-- ==== Sys2Proof/Word.lean ====
section
/-! DEFINITION. The plain value types of the engine: a level, a command word, a colour plane, an event on a line. -/

namespace Sys2Proof

/-- A level of a line, or one bit: `false` is 0 (low), `true` is 1 (high). R8. -/
abbrev Level := Bool

/-- A 12-bit command word (`CMD_BITS` = 12, R5). -/
abbrev Command := BitVec 12

/-- One colour plane of one chip: cell `k` is bit `k` (`PLANE_BITS` = 128, R24). -/
abbrev Plane := BitVec 128

/-- A 16-bit request word (R70). -/
abbrev RequestWord := BitVec 16

/-- The four output lines (R8). -/
inductive Line where
  /-- CLOCK. -/
  | clk
  /-- CHIP-SELECT. -/
  | cs
  /-- DATA. -/
  | data
  /-- WRITE-STROBE. -/
  | wr
  deriving DecidableEq, Repr

/-- An event: a line and the level it was driven to (R21, R35). -/
abbrev Event := Line × Level

/-- Four like things, one per chip of the cascade: `N` = 4, and no other count is in scope (R4, R5). -/
structure PerChip (α : Type) where
  chip0 : α
  chip1 : α
  chip2 : α
  chip3 : α
  deriving DecidableEq, Repr

/-- The entry of chip `k`. -/
def PerChip.get {α : Type} (p : PerChip α) (k : Fin 4) : α :=
  match k with
  | 0 => p.chip0
  | 1 => p.chip1
  | 2 => p.chip2
  | 3 => p.chip3

/-- The same entry for every chip. -/
def PerChip.const {α : Type} (a : α) : PerChip α := ⟨a, a, a, a⟩

/-- Combine two families chip by chip. -/
def PerChip.zipWith {α β γ : Type} (f : α → β → γ) (p : PerChip α) (q : PerChip β) : PerChip γ :=
  ⟨f p.chip0 q.chip0, f p.chip1 q.chip1, f p.chip2 q.chip2, f p.chip3 q.chip3⟩

end Sys2Proof
end

