-- ==== Sys2Proof/Syntax.lean ====
section
/-! DEFINITION. The instructions: one constructor per row of spec/opcode_table.json. -/

namespace Sys2Proof

/-- The operations of R71 and the wire rows of R77 to R80.
Operands are at the abstract level of R71, R73 and D19: `i` and `c` natural numbers, `l` an integer. -/
inductive Instr where
  /-- `SEL_NONE` (R102). -/
  | selNone
  /-- `SEL_ALL` (R103). -/
  | selAll
  /-- `SEL_ONE i` (R104). -/
  | selOne (i : Nat)
  /-- `WR_CMD c` (R121). -/
  | wrCmd (c : Nat)
  /-- `EXTRACT r, q`: `r` = chipRow, `q` = chipCol (R140). -/
  | extract (r q : BitVec 1)
  /-- `WR_DATA` (R142). -/
  | wrData
  /-- `BCAST_CMD c` (R122). -/
  | bcastCmd (c : Nat)
  /-- `BEGIN` (R160). -/
  | beginInit
  /-- `SET_INTENSITY l` (R162). -/
  | setIntensity (l : Int)
  /-- `CLEAR` (R164). -/
  | clear
  /-- `SHOW` (R166). -/
  | showFrame
  /-- The command frame `SYS_DIS` (R77, R80); the next twelve likewise. -/
  | sysDis
  | sysEn
  | ledOff
  | ledOn
  | blinkOff
  | blinkOn
  | slaveMode
  | rcMasterMode
  | extClkMasterMode
  | comNmos8
  | comNmos16
  | comPmos8
  | comPmos16
  /-- The command frame of PWM level `level` (R80). -/
  | pwmDuty (level : BitVec 4)
  /-- The data frame carrying the two planes given (R78). -/
  | dataFrame (red green : Plane)
  /-- The clear frame (R79). -/
  | clearFrame
  deriving DecidableEq, Repr

end Sys2Proof
end

