-- ==== Sys2Proof/WellFormed.lean ====
section
/-! DEFINITION. Which instructions the encodings can write. -/

namespace Sys2Proof

/-- The operand fits its field (R72, R73): `i` and `c` are read as `zext_12`, `l` as `sext_12`.
An instruction outside these bounds has a meaning at the abstract level (R73, D19) but no request word. -/
def WellFormed (i : Instr) : Bool :=
  match i with
  | .selNone => true
  | .selAll => true
  | .selOne i => decide (i < 4096)
  | .wrCmd c => decide (c < 4096)
  | .extract _ _ => true
  | .wrData => true
  | .bcastCmd c => decide (c < 4096)
  | .beginInit => true
  | .setIntensity l => decide (-2048 ≤ l ∧ l ≤ 2047)
  | .clear => true
  | .showFrame => true
  | .sysDis => true
  | .sysEn => true
  | .ledOff => true
  | .ledOn => true
  | .blinkOff => true
  | .blinkOn => true
  | .slaveMode => true
  | .rcMasterMode => true
  | .extClkMasterMode => true
  | .comNmos8 => true
  | .comNmos16 => true
  | .comPmos8 => true
  | .comPmos16 => true
  | .pwmDuty _ => true
  | .dataFrame _ _ => true
  | .clearFrame => true

end Sys2Proof
end

