-- ==== Sys2Proof/Decode.lean ====
section
/-! DEFINITION. Decoding and encoding: request words (R70 to R73, R82) and wire frames (R77 to R80).
Every function here is total; what is no row of the table is rejected (`none`). -/

namespace Sys2Proof

/-- What can be presented to be run: a request word on the request port (R70); or one wire frame, numbered as the table
numbers it: a 12-bit command frame as its command word (R77), a long frame (R78, R79) as its length and one number whose bit 0
is the bit sent first. DESIGN CHOICE (safe): the frame forms are the model's, so that the table's wire rows can be run as
instructions too; the request port carries the first form only, log entry 5. -/
inductive Presented where
  | request (w : RequestWord)
  | command (c : Command)
  | longFrame (nbits w : Nat)
  deriving DecidableEq, Repr

/-! ## Bits in order -/

/-- The low `n` bits of `w`, bit 0 first. -/
def bitsLsbFirst : Nat → Nat → List Level
  | 0, _ => []
  | n + 1, w => (w % 2 == 1) :: bitsLsbFirst n (w / 2)

/-- The number whose bits, bit 0 first, are the list. -/
def natOfBits : List Level → Nat
  | [] => 0
  | b :: bs => b.toNat + 2 * natOfBits bs

/-- The twelve bits of a command word in the order sent, `c[11]` first (R56, R77). -/
def commandBits (c : Command) : List Level := (bitsLsbFirst 12 c.toNat).reverse

/-- The command word that twelve bits, most significant first, spell. -/
def commandOfBits (bits : List Level) : Command := BitVec.ofNat 12 (natOfBits bits.reverse)

/-- The bits of a plane in the order sent, cell 0 first (R56, R78). -/
def planeBits (p : Plane) : List Level := bitsLsbFirst 128 p.toNat

/-- The plane whose cells, cell 0 first, are the list. -/
def planeOfBits (bits : List Level) : Plane := BitVec.ofNat 128 (natOfBits bits)

/-! ## Command words (R80) -/

/-- The fixed command words of the table. -/
def commandWords : List (Command × Instr) :=
  [(0x800, .sysDis), (0x802, .sysEn), (0x804, .ledOff), (0x806, .ledOn), (0x810, .blinkOff), (0x812, .blinkOn),
   (0x820, .slaveMode), (0x830, .rcMasterMode), (0x838, .extClkMasterMode), (0x840, .comNmos8),
   (0x848, .comNmos16), (0x850, .comPmos8), (0x858, .comPmos16)]

/-- The word of PWM level `level`: `0x940 | (level << 1)` (R80). -/
def pwmWord (level : BitVec 4) : Command := 0x940 ||| (level.zeroExtend 12 <<< 1)

/-- The row a command word stands in: a fixed word, or a word with `c & 0xFE1 = 0x940`, whose bits 4:1 are the level. -/
def decodeCommand (c : Command) : Option Instr :=
  if c &&& 0xFE1 = 0x940 then some (.pwmDuty (c.extractLsb' 1 4)) else commandWords.lookup c

/-! ## Request words (R72) -/

/-- An operation without an operand requires `REQ[11:0] = 0`. -/
def noOperand (arg : BitVec 12) (i : Instr) : Option Instr := if arg = 0 then some i else none

/-- The operation a request word asks for; `none` for an illegal one (R72, R73, R82). -/
def decodeRequest (w : RequestWord) : Option Instr :=
  let arg : BitVec 12 := w.extractLsb' 0 12
  match (w.extractLsb' 12 4).toNat with
  | 0 => noOperand arg .selNone
  | 1 => noOperand arg .selAll
  | 2 => some (.selOne arg.toNat)
  | 3 => some (.wrCmd arg.toNat)
  | 4 => if arg.extractLsb' 2 10 = 0 then some (.extract (arg.extractLsb' 1 1) (arg.extractLsb' 0 1)) else none
  | 5 => noOperand arg .wrData
  | 6 => some (.bcastCmd arg.toNat)
  | 7 => noOperand arg .beginInit
  | 8 => some (.setIntensity arg.toInt)
  | 9 => noOperand arg .clear
  | 10 => noOperand arg .showFrame
  | _ => none

/-! ## Frames (R78, R79, R84) -/

/-- The ten leading bits `1,0,1` and seven zeros as a number, bit 0 sent first (R78, R79). -/
def frameHead : Nat := 5

/-- The row a long frame stands in: a data frame has 266 bits, ten leading bits, then red, then green; a clear frame has 394
bits, all zero after the leading ten. -/
def decodeLongFrame (nbits w : Nat) : Option Instr :=
  if nbits = 266 then
    if w % 2 ^ 10 = frameHead ∧ w / 2 ^ 138 < 2 ^ 128 then
      some (.dataFrame (BitVec.ofNat 128 (w / 2 ^ 10)) (BitVec.ofNat 128 (w / 2 ^ 138)))
    else none
  else if nbits = 394 then (if w = frameHead then some .clearFrame else none)
  else none

/-- The instruction presented, if it is one. -/
def decode : Presented → Option Instr
  | .request w => decodeRequest w
  | .command c => decodeCommand c
  | .longFrame nbits w => decodeLongFrame nbits w

/-- The frame that a list of bits, in the order sent, spells; what a chip was sent is such a list (R60). -/
def frameOfBits (bits : List Level) : Presented :=
  if bits.length = 12 then .command (commandOfBits bits) else .longFrame bits.length (natOfBits bits)

/-! ## The encoder -/

/-- The request word with operation code `op` and operand `arg` (R70). -/
def requestWord (op : BitVec 4) (arg : BitVec 12) : RequestWord := op ++ arg

/-- The data frame of two planes as a number (R78). -/
def dataFrameWord (red green : Plane) : Nat := frameHead + 2 ^ 10 * red.toNat + 2 ^ 138 * green.toNat

/-- The encoding of an instruction (R72, R77 to R80). -/
def encode (i : Instr) : Presented :=
  match i with
  | .selNone => .request (requestWord 0x0 0)
  | .selAll => .request (requestWord 0x1 0)
  | .selOne i => .request (requestWord 0x2 (BitVec.ofNat 12 i))
  | .wrCmd c => .request (requestWord 0x3 (BitVec.ofNat 12 c))
  | .extract r q => .request (requestWord 0x4 ((0 : BitVec 10) ++ (r ++ q)))
  | .wrData => .request (requestWord 0x5 0)
  | .bcastCmd c => .request (requestWord 0x6 (BitVec.ofNat 12 c))
  | .beginInit => .request (requestWord 0x7 0)
  | .setIntensity l => .request (requestWord 0x8 (BitVec.ofInt 12 l))
  | .clear => .request (requestWord 0x9 0)
  | .showFrame => .request (requestWord 0xA 0)
  | .sysDis => .command 0x800
  | .sysEn => .command 0x802
  | .ledOff => .command 0x804
  | .ledOn => .command 0x806
  | .blinkOff => .command 0x810
  | .blinkOn => .command 0x812
  | .slaveMode => .command 0x820
  | .rcMasterMode => .command 0x830
  | .extClkMasterMode => .command 0x838
  | .comNmos8 => .command 0x840
  | .comNmos16 => .command 0x848
  | .comPmos8 => .command 0x850
  | .comPmos16 => .command 0x858
  | .pwmDuty level => .command (pwmWord level)
  | .dataFrame red green => .longFrame 266 (dataFrameWord red green)
  | .clearFrame => .longFrame 394 frameHead

/-! ## The table's numbering -/

/-- The number whose low `n` bits are those of `w` in the other order. -/
def reverseBits (n w : Nat) : Nat := natOfBits (bitsLsbFirst n w).reverse

/-- A long row of the table, `n` bits, as it is presented. The table counts the frame's bits from the first one sent
("bits 0..2 = 1,0,1"); its `encoding` text writes the same bits in the order sent, so that read as a numeral the first bit
sent is the most significant, as it is in the command rows. A word that is a frame in the first numbering is taken so, and
any other word in the second. -/
def tableFrame (n w : Nat) : Presented :=
  .longFrame n (if (decodeLongFrame n w).isSome then w else reverseBits n w)

/-- A table word as it is presented. A row of 12 bits in whole bytes and a row of 16 bits have the same size, so a 16-bit word
that is no request and whose low twelve bits are a command word of the table is that command frame; no word is both. -/
def tablePresented (nbits w : Nat) : Presented :=
  if nbits ≤ 16 then
    if (nbits ≤ 12 || (decodeRequest (BitVec.ofNat 16 w)).isNone) && decide (w < 4096) &&
        (decodeCommand (BitVec.ofNat 12 w)).isSome then
      .command (BitVec.ofNat 12 w)
    else .request (BitVec.ofNat 16 w)
  else if nbits ≤ 272 then tableFrame 266 w
  else tableFrame 394 w

/-- The instruction the decoder reads from a table word. -/
def decodeTableWord (nbits w : Nat) : Option Instr := decode (tablePresented nbits w)

end Sys2Proof
end

