-- ==== Sys2Proof/Config.lean ====
section
/-! DEFINITION. What an implementation fixes: the configuration record of R5 and the constraints of R6.
The values this hardware takes stand in Sys2Proof/Machine/Params.lean, where a repair can mend them.
The spec leaves no result of an instruction open, so there is no free value here. -/

namespace Sys2Proof

/-- The configuration record (R5, R29): constants that no operation writes. -/
structure Config where
  /-- `N`, the number of cascaded chips. -/
  n : Nat
  panelW : Nat
  panelH : Nat
  chipW : Nat
  chipH : Nat
  /-- `CHIP_POS`: the `(chipRow, chipCol)` of each chip. -/
  chipPos : PerChip (BitVec 1 × BitVec 1)
  /-- `CMD_BITS`, the width of a command word. -/
  cmdBits : Nat
  /-- `WRITE_ID`, the data frame preamble, in the order sent. -/
  writeId : List Level
  /-- `ADDR_BITS`, the number of zero address bits. -/
  addrBits : Nat
  /-- `MEM_BITS`, the zero bits a clear frame carries. -/
  memBits : Nat
  csSelectLevel : Level
  clkFirst : Level
  clkIdle : Level
  wrIdle : Level
  /-- `RED_BIT`: which bit of the pixel code is red. -/
  redBit : Nat
  sysDis : Command
  sysEn : Command
  ledOff : Command
  ledOn : Command
  blinkOff : Command
  blinkOn : Command
  slaveMode : Command
  rcMasterMode : Command
  extClkMasterMode : Command
  comNmos8 : Command
  comNmos16 : Command
  comPmos8 : Command
  comPmos16 : Command
  pwmBase : Command
  intensityMin : Int
  intensityMax : Int
  /-- `SETTLE_DELAY`: a duration, timing only; nothing reads it (R210). -/
  settleDelay : Nat
  deriving DecidableEq, Repr

namespace Config

/-- `CS_DESELECT_LEVEL` = 1 - `CS_SELECT_LEVEL` (R5). -/
def csDeselectLevel (c : Config) : Level := !c.csSelectLevel

/-- `PLANE_BITS` = `CHIP_W * CHIP_H` (R5, D9). -/
def planeBits (c : Config) : Nat := c.chipW * c.chipH

/-- The command words of R80 and `PWM_BASE`. -/
def commandWords (c : Config) : List Command :=
  [c.sysDis, c.sysEn, c.ledOff, c.ledOn, c.blinkOff, c.blinkOn, c.slaveMode, c.rcMasterMode, c.extClkMasterMode,
   c.comNmos8, c.comNmos16, c.comPmos8, c.comPmos16, c.pwmBase]

/-- The constraints of R6. The widths of `Command` and `Plane`, which R5 and R24 fix, are checked to be those of the record. -/
def wf (c : Config) : Bool :=
  decide (2 ≤ c.n) && c.n == 4 && c.panelW == 2 * c.chipW && c.panelH == 2 * c.chipH &&
  [((0 : BitVec 1), (0 : BitVec 1)), (0, 1), (1, 0), (1, 1)].all (fun pos =>
    [c.chipPos.chip0, c.chipPos.chip1, c.chipPos.chip2, c.chipPos.chip3].count pos == 1) &&
  c.planeBits == 128 && decide (2 * c.planeBits ≤ c.memBits) && decide (c.redBit ≤ 1) &&
  c.cmdBits == 12 && c.commandWords.all (fun w => decide (w.toNat < 2 ^ c.cmdBits)) &&
  c.clkFirst != c.clkIdle && c.wrIdle

end Config

end Sys2Proof
end

