-- ==== Sys2Proof/Machine/Params.lean ====
section
/-! DEFINITION. The values this hardware takes, `PE-N4-32x16-P128` (R5). -/

namespace Sys2Proof.Machine

/-- The configuration of this hardware (R5; command words R80).
Geometry, preamble and clamp range are the source's. UNVERIFIED (unsafe): the levels (D3, D4), `RED_BIT` (D6), `MEM_BITS`
(D8) and the numeric command words (D7) are the spec's own decisions from general knowledge, log entry 9. -/
def config : Config where
  n := 4
  panelW := 32
  panelH := 16
  chipW := 16
  chipH := 8
  chipPos := ⟨(0, 0), (0, 1), (1, 0), (1, 1)⟩
  cmdBits := 12
  writeId := [true, false, true]
  addrBits := 7
  memBits := 384
  csSelectLevel := false
  clkFirst := true
  clkIdle := false
  wrIdle := true
  redBit := 1
  sysDis := 0x800
  sysEn := 0x802
  ledOff := 0x804
  ledOn := 0x806
  blinkOff := 0x810
  blinkOn := 0x812
  slaveMode := 0x820
  rcMasterMode := 0x830
  extClkMasterMode := 0x838
  comNmos8 := 0x840
  comNmos16 := 0x848
  comPmos8 := 0x850
  comPmos16 := 0x858
  pwmBase := 0x940
  intensityMin := 0
  intensityMax := 15
  settleDelay := 0

end Sys2Proof.Machine
end

