-- ==== Sys2Proof/Machine/State.lean ====
section
/-! DEFINITION. The state of the engine (10_state.md), what it is given by the host, and the state after reset (R37, R200). -/

namespace Sys2Proof.Machine

/-- Why the machine stops. No instruction ends in one of these: the spec's faults are `EngineFault`, and raising one is a
next state (R184). -/
inductive Fault where
  /-- Raised by `step` when BUSY = 1 and the expansion of (OP, ARG) has no micro-operation at UPC. Safe: R31 gives no effect
  there, and no run reaches it (log entry 11). -/
  | noMicroOperation
  /-- Raised by `step` when BUSY = 1 and (OP, ARG) is no legal request. Safe: R31 gives no effect there, and no run reaches
  it (log entry 11). -/
  | noOperation
  deriving DecidableEq, Repr

/-- Why the machine refuses. -/
inductive Refusal where
  /-- Given by `exec` for an instruction that has no meaning yet. Safe. -/
  | notModelled (mnemonic : String)
  /-- Given by `step` for a presented frame that is no row of the table. Safe: frames are presented through the model's own
  entry only (log entry 5), and no instruction of the table is one; a word outside the table is sent by WR_CMD (R83). -/
  | notAFrame
  deriving DecidableEq, Repr

/-- The faults the engine raises (R180). -/
inductive EngineFault where
  /-- `SEL_ONE` with an index outside `[0, N)` (R181). -/
  | addressingError
  /-- A request word that matches no operation (R182). -/
  | illegalRequest
  /-- `BEGIN` before any `SET_INTENSITY`, or `WR_DATA` before any `EXTRACT` (R183). -/
  | uninitialised
  deriving DecidableEq, Repr

/-- A cell of the chip-select shift register: 0, 1 or `X` (R27). -/
inductive ChainCell where
  | deselected
  | selected
  | unknown
  deriving DecidableEq, Repr

/-- The four line latches (R20). -/
structure Lines where
  clk : Level
  cs : Level
  data : Level
  wr : Level
  deriving DecidableEq, Repr

/-- What the observer of R60 holds for one chip: `RX`, the bits of the frame in progress, and `FRAMES`, the completed
non-empty frames, both oldest first. -/
structure Received where
  rx : List Level
  frames : List (List Level)
  deriving DecidableEq, Repr

/-- The pixel space: the cells that differ from 0, each at its linear address `y * PANEL_W + x` (R50), addresses rising.
A cell's two bits stand in a byte whose upper six bits are zero. -/
abbrev Memory := List Host.Cell

/-- A move of the host (R213): present something to be run, write a pixel, or assert reset. -/
inductive HostMove where
  | present (p : Presented)
  | pixel (x : BitVec 5) (y : BitVec 4) (v : BitVec 2)
  | reset
  deriving DecidableEq, Repr

end Sys2Proof.Machine

namespace Sys2Proof.Machine

/-- The state. Engine state, ghost history (R35), the observer (R60), the pixel space (R33) and the host's moves to come. -/
structure State where
  /-- `LINE[CLK]`, `LINE[CS]`, `LINE[DATA]`, `LINE[WR]` (R20). -/
  lines : Lines
  /-- `CMDSR` (R23). -/
  cmdsr : Command
  /-- `RED` (R24). -/
  red : Plane
  /-- `GREEN` (R24). -/
  green : Plane
  /-- `PLANES_VALID` (R25). -/
  planesValid : Bool
  /-- `ICMD` (R28). -/
  icmd : Command
  /-- `ICMD_VALID` (R28). -/
  icmdValid : Bool
  /-- `SR`, the model of the cascade's chip-select shift register (R27). -/
  sr : PerChip ChainCell
  /-- `FAULT` (R32). -/
  fault : Bool
  /-- `FAULT_CODE` (R180). -/
  faultCode : BitVec 2
  /-- `FAULT_INFO` (R180). -/
  faultInfo : BitVec 12
  /-- `BUSY` (R30). -/
  busy : Bool
  /-- `OP` (R30). -/
  op : BitVec 4
  /-- `ARG` (R30). -/
  arg : BitVec 12
  /-- `UPC` (R30). -/
  upc : BitVec 12
  /-- `TRACE` (R35), newest event first; `State.trace` is the list in order. -/
  traceRev : List Event
  /-- `PXTRACE` (R35), newest read first; `State.pxTrace` is the list in order. -/
  pxTraceRev : List (Nat × Nat)
  /-- The observer of what each chip is sent (R60). -/
  chips : PerChip Received
  /-- The pixel space (R50); external, never written by the engine. -/
  pixels : Memory
  /-- The host's moves to come, the next one first (R212, R213). -/
  host : List HostMove
  deriving DecidableEq, Repr

/-- `TRACE` in order (R35). -/
def State.trace (s : State) : List Event := s.traceRev.reverse

/-- `PXTRACE` in order (R35). -/
def State.pxTrace (s : State) : List (Nat × Nat) := s.pxTraceRev.reverse

/-- The machine right after reset (R37, R200).
DESIGN CHOICE (unsafe): `CMDSR`, `RED`, `GREEN`, `ICMD`, `OP` and `ARG`, which the spec leaves unspecified, are zero (log
entry 2), every pixel is 0 (log entry 1), the observer has seen nothing (log entry 6) and the host has no move (log entry 4). -/
def State.reset : State where
  lines := ⟨config.clkIdle, config.csDeselectLevel, false, config.wrIdle⟩
  cmdsr := 0
  red := 0
  green := 0
  planesValid := false
  icmd := 0
  icmdValid := false
  sr := PerChip.const .unknown
  fault := false
  faultCode := 0
  faultInfo := 0
  busy := false
  op := 0
  arg := 0
  upc := 0
  traceRev := []
  pxTraceRev := []
  chips := PerChip.const ⟨[], []⟩
  pixels := []
  host := []

end Sys2Proof.Machine
end

