-- ==== Sys2Proof/Machine/Flags.lean ====
section
/-! DEFINITION. The flag of the CHIP-SELECT level, the selection state, and the status the host reads. The engine has no
condition codes and no arithmetic flags (R32). -/

namespace Sys2Proof.Machine

/-- `flag(CS)` as the chain takes it: selected exactly if the level is `CS_SELECT_LEVEL` (R8, R26). -/
def csFlag (cs : Level) : ChainCell := if cs = config.csSelectLevel then .selected else .deselected

/-- The selection states (R27). -/
inductive Selection where
  | undef
  | none
  | all
  | one (i : Fin 4)
  | mixed
  deriving DecidableEq, Repr

/-- `sel(SR)` (R27). -/
def sel (sr : PerChip ChainCell) : Selection :=
  match sr with
  | ⟨.unknown, _, _, _⟩ => .undef
  | ⟨_, .unknown, _, _⟩ => .undef
  | ⟨_, _, .unknown, _⟩ => .undef
  | ⟨_, _, _, .unknown⟩ => .undef
  | ⟨.deselected, .deselected, .deselected, .deselected⟩ => .none
  | ⟨.selected, .selected, .selected, .selected⟩ => .all
  | ⟨.selected, .deselected, .deselected, .deselected⟩ => .one 0
  | ⟨.deselected, .selected, .deselected, .deselected⟩ => .one 1
  | ⟨.deselected, .deselected, .selected, .deselected⟩ => .one 2
  | ⟨.deselected, .deselected, .deselected, .selected⟩ => .one 3
  | _ => .mixed

/-- `code(F)`, what `FAULT_CODE` records (R180). -/
def EngineFault.code (f : EngineFault) : BitVec 2 :=
  match f with
  | .addressingError => 1
  | .illegalRequest => 2
  | .uninitialised => 3

/-- The status outputs of R70. -/
structure Status where
  busy : Bool
  fault : Bool
  faultCode : BitVec 2
  faultInfo : BitVec 12
  deriving DecidableEq, Repr

/-- What the host reads at any time (R70, R213). -/
def status (s : State) : Status := ⟨s.busy, s.fault, s.faultCode, s.faultInfo⟩

end Sys2Proof.Machine
end

