-- ==== Sys2Proof/Machine/Operands.lean ====
section
/-! DEFINITION. Operand forms: the mask of a command operand, the clamp of an intensity, the intensity word, the bits of a
pixel code, coordinates and cell indices (R53, R73, R140, R141, R162, R167). -/

namespace Sys2Proof.Machine

/-- `c mod 4096`: only the low 12 bits of a command operand are significant (R73, R121). -/
def maskCommand (c : Nat) : Command := BitVec.ofNat 12 c

/-- `clamp(v, lo, hi)` on integers, the comparison signed (R8, R167). -/
def clamp (v lo hi : Int) : Int := if v < lo then lo else if hi < v then hi else v

/-- The intensity command `(L << 1) | PWM_BASE` with `L` the clamped level; the OR is bitwise on 12 bits (R162). -/
def intensityCommand (l : Int) : Command :=
  (BitVec.ofInt 12 (clamp l config.intensityMin config.intensityMax) <<< 1) ||| config.pwmBase

/-- The index operand as `FAULT_INFO` keeps it, `i[11:0]` (R180). -/
def indexInfo (i : Nat) : BitVec 12 := BitVec.ofNat 12 i

/-- `red(v) = v[RED_BIT]` (R53). -/
def redOf (redBit : Nat) (v : BitVec 2) : Level := v.getLsbD redBit

/-- `green(v) = v[1 - RED_BIT]` (R53). -/
def greenOf (redBit : Nat) (v : BitVec 2) : Level := v.getLsbD (1 - redBit)

/-- The linear address `y * PANEL_W + x` of a cell of the pixel space (R50, D24). -/
def pixelAddress (x y : Nat) : Nat := y * config.panelW + x

/-- The panel column of local column `col` in the rectangle of grid column `q` (R140). -/
def pixelX (q : BitVec 1) (col : Nat) : Nat := q.toNat * config.chipW + col

/-- The panel row of local row `row` in the rectangle of grid row `r` (R140). -/
def pixelY (r : BitVec 1) (row : Nat) : Nat := r.toNat * config.chipH + row

/-- The cell index of local column `col` and local row `row` (R140, R141). -/
def cellIndex (col row : Nat) : Nat := col * config.chipH + row

/-- The local `(column, row)` pairs in the order they are read: columns left to right, in each the rows top to bottom
(R140). -/
def scanOrder : List (Nat × Nat) :=
  (List.range config.chipW).flatMap fun col => (List.range config.chipH).map fun row => (col, row)

/-- `CHIP_POS[c]` (R5, R52). -/
def chipPos (c : Fin 4) : BitVec 1 × BitVec 1 := config.chipPos.get c

end Sys2Proof.Machine
end

