-- ==== Sys2Proof/Machine/Ops.lean ====
section
/-! DEFINITION. The named operations over the state: line latches, the select chain and the observer, the pixel space,
raising a fault, and accepting and retiring a request. -/

namespace Sys2Proof.Machine

/-! ## The pixel space (R50 to R55) -/

/-- What a cell that is not listed reads as. DESIGN CHOICE (unsafe): 0, BLACK, log entry 1. -/
def Memory.default : BitVec 8 := 0

/-- The byte at an address. -/
def Memory.read : Memory → Nat → BitVec 8
  | [], _ => Memory.default
  | (b, v) :: m, a => if a = b then v else Memory.read m a

/-- Write a byte, keeping the canonical form: a cell that reads as an unlisted one is not listed. -/
def Memory.write : Memory → Nat → BitVec 8 → Memory
  | [], a, v => if v = Memory.default then [] else [(a, v)]
  | (b, w) :: m, a, v =>
    if a < b then (if v = Memory.default then (b, w) :: m else (a, v) :: (b, w) :: m)
    else if a = b then (if v = Memory.default then m else (a, v) :: m)
    else (b, w) :: Memory.write m a v

/-- The canonical form from address `lo` on: addresses rising and below 512, no cell listed that reads as an unlisted one,
and every value a 2-bit code. -/
def Memory.wfFrom : Nat → Memory → Bool
  | _, [] => true
  | lo, (a, v) :: m =>
    decide (lo ≤ a) && decide (a < 512) && v != Memory.default && decide (v.toNat < 4) && Memory.wfFrom (a + 1) m

/-- The canonical form of the pixel space. -/
def Memory.wf (m : Memory) : Bool := Memory.wfFrom 0 m

/-- The value of the cell at column `x`, row `y`, a query (R50, R55). -/
def pixelAt (s : State) (x y : Nat) : BitVec 2 := (s.pixels.read (pixelAddress x y)).setWidth 2

/-- The record of one read in `PXTRACE` (R50). -/
def recordRead (x y : Nat) (s : State) : State := { s with pxTraceRev := (x, y) :: s.pxTraceRev }

/-- The host writes one pixel (R63, R213). -/
def writePixel (x : BitVec 5) (y : BitVec 4) (v : BitVec 2) (s : State) : State :=
  { s with pixels := s.pixels.write (pixelAddress x.toNat y.toNat) (v.setWidth 8) }

/-! ## The line latches, the select chain and the observer -/

/-- The latch of a line. -/
def Lines.get (l : Line) (ls : Lines) : Level :=
  match l with
  | .clk => ls.clk
  | .cs => ls.cs
  | .data => ls.data
  | .wr => ls.wr

/-- Set the latch of a line. -/
def Lines.set (l : Line) (v : Level) (ls : Lines) : Lines :=
  match l with
  | .clk => { ls with clk := v }
  | .cs => { ls with cs := v }
  | .data => { ls with data := v }
  | .wr => { ls with wr := v }

/-- The observer at a low to high strobe: a selected chip takes the bit (R60). -/
def Received.sample (bit : Level) (cell : ChainCell) (r : Received) : Received :=
  match cell with
  | .selected => { r with rx := r.rx ++ [bit] }
  | .deselected => r
  | .unknown => r

/-- The frame in progress ends; an empty one is not recorded (R60). -/
def Received.close (r : Received) : Received :=
  ⟨[], if r.rx = [] then r.frames else r.frames ++ [r.rx]⟩

/-- The observer at a chain shift: a chip that is no longer selected ends its frame, a chip newly selected starts one
(R60). -/
def Received.edge (r : Received) (before after : ChainCell) : Received :=
  match before, after with
  | .selected, .selected => r
  | .selected, _ => r.close
  | _, .selected => { r with rx := [] }
  | _, _ => r

/-- The shift register after one shift: the flag enters at chip 0, the last chip's flag is lost (R26). -/
def shiftIn (f : ChainCell) (sr : PerChip ChainCell) : PerChip ChainCell := ⟨f, sr.chip0, sr.chip1, sr.chip2⟩

/-- The observer's part of a chain shift, `SR` going from `before` to `after` (R60). -/
def observeShift (before after : PerChip ChainCell) (chips : PerChip Received) : PerChip Received :=
  ⟨chips.chip0.edge before.chip0 after.chip0, chips.chip1.edge before.chip1 after.chip1,
    chips.chip2.edge before.chip2 after.chip2, chips.chip3.edge before.chip3 after.chip3⟩

/-- `chain_shift()`, with the observer's part (R26, R60). -/
def chainShift (s : State) : State :=
  { s with
    sr := shiftIn (csFlag s.lines.cs) s.sr
    chips := observeShift s.sr (shiftIn (csFlag s.lines.cs) s.sr) s.chips }

/-- The observer's part of a low to high strobe (R60). -/
def sampleData (s : State) : State :=
  { s with chips := PerChip.zipWith (Received.sample s.lines.data) s.sr s.chips }

/-- The latch and `TRACE` part of a drive (R21). -/
def setLine (l : Line) (v : Level) (s : State) : State :=
  { s with lines := s.lines.set l v, traceRev := (l, v) :: s.traceRev }

/-- `drive(L, v)` (R21): the only way a latch changes; every call is one event. The chain shifts at the second drive of a
clock pulse; selected chips sample at the low to high strobe. -/
def drive (l : Line) (v : Level) (s : State) : State :=
  match l with
  | .clk => if s.lines.clk = config.clkFirst ∧ v = config.clkIdle then chainShift (setLine .clk v s) else setLine .clk v s
  | .cs => setLine .cs v s
  | .data => setLine .data v s
  | .wr => if s.lines.wr = false ∧ v = true then sampleData (setLine .wr v s) else setLine .wr v s

/-! ## Raising a fault, and runs that may end in one -/

/-- `raise F(info)` (R184): the first fault's code and operand are kept, `FAULT` is set, `BUSY` falls. -/
def raise (f : EngineFault) (info : BitVec 12) (s : State) : State :=
  { s with
    faultCode := if s.fault then s.faultCode else f.code
    faultInfo := if s.fault then s.faultInfo else info
    fault := true
    busy := false }

/-- How an operation, or a part of one, ends: it runs to its end, or it raises (R184). -/
inductive Run where
  | done (s : State)
  | raised (s : State)
  deriving DecidableEq, Repr

/-- The state it ends in. -/
def Run.state (r : Run) : State :=
  match r with
  | .done s => s
  | .raised s => s

/-- Go on with `f`, unless a fault was raised: a raise abandons every enclosing composite (R184). -/
def Run.andThen (r : Run) (f : State → Run) : Run :=
  match r with
  | .done s => f s
  | .raised s => .raised s

/-- The outcome of an instruction that ends so. Either way the machine goes on: raising a fault is a next state (R184). -/
def Run.outcome (r : Run) : Host.Outcome State Fault Refusal := .next r.state

/-! ## Requests: acceptance and retirement (R31) -/

/-- Acceptance of a request word: `OP`, `ARG`, `UPC` and `BUSY` (R31). -/
def accept (w : RequestWord) (s : State) : State :=
  { s with op := w.extractLsb' 12 4, arg := w.extractLsb' 0 12, upc := 0, busy := true }

/-- The end of an accepted operation: `BUSY` falls and `UPC` stays at the last micro-operation performed, `last` (R31).
DEDUCED (unsafe): that `UPC` keeps that value while idle, log entry 7. -/
def retire (last : Nat) (s : State) : State := { s with busy := false, upc := BitVec.ofNat 12 last }

/-- An illegal request (R182): the fault registers change and nothing else; `BUSY` stays 0. -/
def illegalRequest (w : RequestWord) (s : State) : State := raise .illegalRequest (w.extractLsb' 0 12) s

/-- The reset input (R200): every piece of engine state takes its reset value. The pixel space and the host's moves are not
the engine's and stay. DESIGN CHOICE (unsafe): the observer starts again with `TRACE`, log entry 6. -/
def resetEngine (s : State) : State := { State.reset with pixels := s.pixels, host := s.host }

end Sys2Proof.Machine
end

