-- ==== Sys2Proof/Machine/ChipSelect.lean ====
section
/-! DEFINITION. The chip selector: the clock cell and SEL_NONE, SEL_ALL, SEL_ONE (40_chip_select.md). -/

namespace Sys2Proof.Machine

/-- `pulse_clk()`: one clock cell (R100). -/
def pulseClk (s : State) : State := drive .clk config.clkIdle (drive .clk config.clkFirst s)

/-- `m` clock pulses. -/
def pulses : Nat → State → State
  | 0, s => s
  | m + 1, s => pulses m (pulseClk s)

/-- Drive `CS` to a level and pulse `N` times: the shape of SEL_NONE and SEL_ALL (R102, R103). -/
def selectAtLevel (level : Level) (s : State) : State := pulses config.n (drive .cs level s)

/-- `SEL_NONE` (R102). -/
def selNone (s : State) : State := selectAtLevel config.csDeselectLevel s

/-- `SEL_ALL` (R103). -/
def selAll (s : State) : State := selectAtLevel config.csSelectLevel s

/-- The part of `SEL_ONE i` after its index check: one flag is put on the chain and moved `i` places (R104, C3). -/
def injectFlag (i : Nat) (s : State) : State :=
  pulses i (drive .cs config.csDeselectLevel (pulseClk (drive .cs config.csSelectLevel s)))

/-- `SEL_ONE i`: the index check comes after the `SEL_NONE` part (R104, C6). -/
def selOne (i : Nat) (s : State) : Run :=
  if i < config.n then .done (injectFlag i (selNone s))
  else .raised (raise .addressingError (indexInfo i) (selNone s))

/-- Meaning of `SEL_NONE` (R102). -/
def execSelNone (s : State) : Host.Outcome State Fault Refusal := (Run.done (selNone s)).outcome

/-- Meaning of `SEL_ALL` (R103). -/
def execSelAll (s : State) : Host.Outcome State Fault Refusal := (Run.done (selAll s)).outcome

/-- Meaning of `SEL_ONE i` (R104). -/
def execSelOne (i : Nat) (s : State) : Host.Outcome State Fault Refusal := (selOne i s).outcome

end Sys2Proof.Machine
end

