-- ==== Sys2Proof/Machine/CommandSerializer.lean ====
section
/-! DEFINITION. The command serializer: the bit cell, WR_CMD and BCAST_CMD (41_command_serializer.md). -/

namespace Sys2Proof.Machine

/-- `wr_bit(b)`: strobe low, data, strobe high (R120). -/
def wrBit (b : Level) (s : State) : State := drive .wr true (drive .data b (drive .wr false s))

/-- Bit cells one after another. -/
def wrBits : List Level → State → State
  | [], s => s
  | b :: bs, s => wrBits bs (wrBit b s)

/-- Load `CMDSR` and send it, most significant bit first (R121). -/
def sendCommand (c : Command) (s : State) : State := wrBits (commandBits c) { s with cmdsr := c }

/-- `BCAST_CMD c` for a command word: `SEL_ALL`, `WR_CMD c`, `SEL_NONE` (R122). -/
def broadcast (c : Command) (s : State) : State := selNone (sendCommand c (selAll s))

/-- Meaning of `WR_CMD c` (R121). -/
def execWrCmd (c : Nat) (s : State) : Host.Outcome State Fault Refusal :=
  (Run.done (sendCommand (maskCommand c) s)).outcome

/-- Meaning of `BCAST_CMD c` (R122). -/
def execBcastCmd (c : Nat) (s : State) : Host.Outcome State Fault Refusal :=
  (Run.done (broadcast (maskCommand c) s)).outcome

end Sys2Proof.Machine
end

