-- ==== Sys2Proof/Machine/PlaneData.lean ====
section
/-! DEFINITION. The plane extractor and the data transmitter: EXTRACT and WR_DATA (42_plane_data.md). -/

namespace Sys2Proof.Machine

/-- Write one cell of a plane. -/
def setCell (k : Nat) (v : Level) (p : Plane) : Plane :=
  if v then p ||| BitVec.twoPow 128 k else p &&& ~~~(BitVec.twoPow 128 k)

/-- Read one pixel and write the cell it feeds in both planes (R140, R53). -/
def readCell (x y k : Nat) (s : State) : State :=
  recordRead x y { s with
    red := setCell k (redOf config.redBit (pixelAt s x y)) s.red
    green := setCell k (greenOf config.redBit (pixelAt s x y)) s.green }

/-- The reads of `EXTRACT r, q` at the local positions listed, in their order (R140). -/
def readCells (r q : BitVec 1) : List (Nat × Nat) → State → State
  | [], s => s
  | p :: ps, s => readCells r q ps (readCell (pixelX q p.1) (pixelY r p.2) (cellIndex p.1 p.2) s)

/-- `EXTRACT r, q` (R140). -/
def extract (r q : BitVec 1) (s : State) : State := { readCells r q scanOrder s with planesValid := true }

/-- The ten leading bits of a data or clear frame, from the configuration: preamble and zero address (R78, R79). -/
def leadBits : List Level := config.writeId ++ List.replicate config.addrBits false

/-- Send one data frame carrying two planes, red first (R142). -/
def sendPlanes (red green : Plane) (s : State) : State := wrBits (leadBits ++ planeBits red ++ planeBits green) s

/-- `WR_DATA`: the validity check comes first (R142, R183). -/
def wrData (s : State) : Run :=
  if s.planesValid then .done (sendPlanes s.red s.green s) else .raised (raise .uninitialised 1 s)

/-- Meaning of `EXTRACT r, q` (R140). -/
def execExtract (r q : BitVec 1) (s : State) : Host.Outcome State Fault Refusal := (Run.done (extract r q s)).outcome

/-- Meaning of `WR_DATA` (R142). -/
def execWrData (s : State) : Host.Outcome State Fault Refusal := (wrData s).outcome

end Sys2Proof.Machine
end

