-- ==== Sys2Proof/Machine/Sequencer.lean ====
section
/-! DEFINITION. The sequencer: BEGIN, SET_INTENSITY, CLEAR, SHOW (43_sequencer.md). -/

namespace Sys2Proof.Machine

/-- Broadcasts one after another, each with its own selection (R160, R161). -/
def broadcasts : List Command → State → State
  | [], s => s
  | c :: cs, s => broadcasts cs (broadcast c s)

/-- The seven words of `BEGIN`, in their order, with the intensity command `icmd` fifth (R160). `ICMD` may be read at the
start, since nothing writes it meanwhile (R63, D26). -/
def initCommands (icmd : Command) : List Command :=
  [config.sysDis, config.comNmos8, config.rcMasterMode, config.sysEn, icmd, config.blinkOff, config.ledOn]

/-- `BEGIN`: the validity check comes first (R160, R183). -/
def beginInit (s : State) : Run :=
  if s.icmdValid then .done (broadcasts (initCommands s.icmd) s) else .raised (raise .uninitialised 0 s)

/-- `SET_INTENSITY l` (R162). -/
def setIntensity (l : Int) (s : State) : Run :=
  beginInit { s with icmd := intensityCommand l, icmdValid := true }

/-- Send one clear frame (R79). -/
def sendClearFrame (s : State) : State := wrBits (leadBits ++ List.replicate config.memBits false) s

/-- `CLEAR` (R164). -/
def clearChips (s : State) : State := selNone (sendClearFrame (selAll s))

/-- The part of `SHOW` for chip `c` (R166). -/
def showChip (c : Fin 4) (s : State) : Run :=
  (selOne c.val s).andThen fun s =>
    (wrData (extract (chipPos c).1 (chipPos c).2 s)).andThen fun s => .done (selNone s)

/-- `SHOW` (R166). -/
def showAll (s : State) : Run :=
  (((showChip 0 (broadcast config.sysEn s)).andThen (showChip 1)).andThen (showChip 2)).andThen (showChip 3)

/-- Meaning of `BEGIN` (R160). -/
def execBeginInit (s : State) : Host.Outcome State Fault Refusal := (beginInit s).outcome

/-- Meaning of `SET_INTENSITY l` (R162). -/
def execSetIntensity (l : Int) (s : State) : Host.Outcome State Fault Refusal := (setIntensity l s).outcome

/-- Meaning of `CLEAR` (R164). -/
def execClear (s : State) : Host.Outcome State Fault Refusal := (Run.done (clearChips s)).outcome

/-- Meaning of `SHOW` (R166). -/
def execShowFrame (s : State) : Host.Outcome State Fault Refusal := (showAll s).outcome

end Sys2Proof.Machine
end

