-- ==== Sys2Proof/Machine/Wire.lean ====
section
/-! DEFINITION. The wire rows of the table as instructions: the engine sends exactly that frame (R77 to R80).
DESIGN CHOICE (safe): a command frame is sent as WR_CMD sends it, through `CMDSR` (R23, R121); a data frame carries the planes
it is given, as the source's `writeData(red, green)` does (R142), and loads no plane register; a clear frame is the frame part
of CLEAR (R79, R164). None of them selects a chip: which chips take the bits is decided by the selection at the time (R57).
Log entries 5 and 15. -/

namespace Sys2Proof.Machine

/-- Meaning of the command frame `SYS_DIS` (R77, R80). -/
def execSysDis (s : State) : Host.Outcome State Fault Refusal := (Run.done (sendCommand config.sysDis s)).outcome

/-- Meaning of the command frame `SYS_EN` (R77, R80). -/
def execSysEn (s : State) : Host.Outcome State Fault Refusal := (Run.done (sendCommand config.sysEn s)).outcome

/-- Meaning of the command frame `LED_OFF` (R77, R80). -/
def execLedOff (s : State) : Host.Outcome State Fault Refusal := (Run.done (sendCommand config.ledOff s)).outcome

/-- Meaning of the command frame `LED_ON` (R77, R80). -/
def execLedOn (s : State) : Host.Outcome State Fault Refusal := (Run.done (sendCommand config.ledOn s)).outcome

/-- Meaning of the command frame `BLINK_OFF` (R77, R80). -/
def execBlinkOff (s : State) : Host.Outcome State Fault Refusal := (Run.done (sendCommand config.blinkOff s)).outcome

/-- Meaning of the command frame `BLINK_ON` (R77, R80). -/
def execBlinkOn (s : State) : Host.Outcome State Fault Refusal := (Run.done (sendCommand config.blinkOn s)).outcome

/-- Meaning of the command frame `SLAVE_MODE` (R77, R80). -/
def execSlaveMode (s : State) : Host.Outcome State Fault Refusal := (Run.done (sendCommand config.slaveMode s)).outcome

/-- Meaning of the command frame `RC_MASTER_MODE` (R77, R80). -/
def execRcMasterMode (s : State) : Host.Outcome State Fault Refusal := (Run.done (sendCommand config.rcMasterMode s)).outcome

/-- Meaning of the command frame `EXT_CLK_MASTER_MODE` (R77, R80). -/
def execExtClkMasterMode (s : State) : Host.Outcome State Fault Refusal := (Run.done (sendCommand config.extClkMasterMode s)).outcome

/-- Meaning of the command frame `COM_NMOS_8` (R77, R80). -/
def execComNmos8 (s : State) : Host.Outcome State Fault Refusal := (Run.done (sendCommand config.comNmos8 s)).outcome

/-- Meaning of the command frame `COM_NMOS_16` (R77, R80). -/
def execComNmos16 (s : State) : Host.Outcome State Fault Refusal := (Run.done (sendCommand config.comNmos16 s)).outcome

/-- Meaning of the command frame `COM_PMOS_8` (R77, R80). -/
def execComPmos8 (s : State) : Host.Outcome State Fault Refusal := (Run.done (sendCommand config.comPmos8 s)).outcome

/-- Meaning of the command frame `COM_PMOS_16` (R77, R80). -/
def execComPmos16 (s : State) : Host.Outcome State Fault Refusal := (Run.done (sendCommand config.comPmos16 s)).outcome

/-- Meaning of the command frame of PWM level `level`, `(level << 1) | PWM_BASE` (R80). -/
def execPwmDuty (level : BitVec 4) (s : State) : Host.Outcome State Fault Refusal :=
  (Run.done (sendCommand (intensityCommand level.toNat) s)).outcome

/-- Meaning of the data frame carrying `red` and `green` (R78). -/
def execDataFrame (red green : Plane) (s : State) : Host.Outcome State Fault Refusal :=
  (Run.done (sendPlanes red green s)).outcome

/-- Meaning of the clear frame (R79). -/
def execClearFrame (s : State) : Host.Outcome State Fault Refusal := (Run.done (sendClearFrame s)).outcome

end Sys2Proof.Machine
end

