-- ==== Sys2Proof/Machine/Dispatch.lean ====
section
/-! DEFINITION. One arm per instruction, each one call of its meaning. -/

namespace Sys2Proof.Machine

def exec (i : Instr) (s : State) : Host.Outcome State Fault Refusal :=
  match i with
  | .selNone => Sys2Proof.Machine.execSelNone s
  | .selAll => Sys2Proof.Machine.execSelAll s
  | .selOne index => Sys2Proof.Machine.execSelOne index s
  | .wrCmd c => Sys2Proof.Machine.execWrCmd c s
  | .extract r q => Sys2Proof.Machine.execExtract r q s
  | .wrData => Sys2Proof.Machine.execWrData s
  | .bcastCmd c => Sys2Proof.Machine.execBcastCmd c s
  | .beginInit => Sys2Proof.Machine.execBeginInit s
  | .setIntensity l => Sys2Proof.Machine.execSetIntensity l s
  | .clear => Sys2Proof.Machine.execClear s
  | .showFrame => Sys2Proof.Machine.execShowFrame s
  | .sysDis => Sys2Proof.Machine.execSysDis s
  | .sysEn => Sys2Proof.Machine.execSysEn s
  | .ledOff => Sys2Proof.Machine.execLedOff s
  | .ledOn => Sys2Proof.Machine.execLedOn s
  | .blinkOff => Sys2Proof.Machine.execBlinkOff s
  | .blinkOn => Sys2Proof.Machine.execBlinkOn s
  | .slaveMode => Sys2Proof.Machine.execSlaveMode s
  | .rcMasterMode => Sys2Proof.Machine.execRcMasterMode s
  | .extClkMasterMode => Sys2Proof.Machine.execExtClkMasterMode s
  | .comNmos8 => Sys2Proof.Machine.execComNmos8 s
  | .comNmos16 => Sys2Proof.Machine.execComNmos16 s
  | .comPmos8 => Sys2Proof.Machine.execComPmos8 s
  | .comPmos16 => Sys2Proof.Machine.execComPmos16 s
  | .pwmDuty level => Sys2Proof.Machine.execPwmDuty level s
  | .dataFrame red green => Sys2Proof.Machine.execDataFrame red green s
  | .clearFrame => Sys2Proof.Machine.execClearFrame s

end Sys2Proof.Machine
end

