-- ==== Sys2Proof/Machine/Micro.lean ====
section
/-! DEFINITION. The engine one micro-operation at a time (R30, R31): the expansion of each operation as the flat list of its
micro-operations, and the step that performs one. The meanings of the instructions are written without these lists; that the
two agree is a claim (R31, R86). -/

namespace Sys2Proof.Machine

/-- Where a drive takes its level from: a constant, or a bit of a register read when the drive is made. -/
inductive Source where
  | const (v : Level)
  | cmdsr (b : Nat)
  | red (k : Nat)
  | green (k : Nat)
  deriving DecidableEq, Repr

/-- A micro-operation (R30). -/
inductive MicroOp where
  /-- One drive. -/
  | drive (l : Line) (v : Source)
  /-- One pixel read with the two plane-cell writes it feeds; the last of an `EXTRACT` also sets `PLANES_VALID`. -/
  | read (x y k : Nat) (last : Bool)
  /-- One load of `CMDSR` with a constant word. -/
  | load (c : Command)
  /-- The load of `CMDSR` with `ICMD` (the fifth word of `BEGIN`, R63). -/
  | loadIcmd
  /-- The store of `ICMD` with `ICMD_VALID`. -/
  | storeIcmd (l : Int)
  /-- The index check of `SEL_ONE`. -/
  | checkIndex (i : Nat)
  /-- The validity check of `BEGIN`. -/
  | checkIcmd
  /-- The validity check of `WR_DATA`. -/
  | checkPlanes
  deriving DecidableEq, Repr

/-- The level a drive takes. -/
def Source.level (v : Source) (s : State) : Level :=
  match v with
  | .const b => b
  | .cmdsr b => s.cmdsr.getLsbD b
  | .red k => s.red.getLsbD k
  | .green k => s.green.getLsbD k

/-- Perform one micro-operation (R31). -/
def perform (m : MicroOp) (s : State) : Run :=
  match m with
  | .drive l v => .done (drive l (v.level s) s)
  | .read x y k last => .done { readCell x y k s with planesValid := last || s.planesValid }
  | .load c => .done { s with cmdsr := c }
  | .loadIcmd => .done { s with cmdsr := s.icmd }
  | .storeIcmd l => .done { s with icmd := intensityCommand l, icmdValid := true }
  | .checkIndex i => if i < config.n then .done s else .raised (raise .addressingError (indexInfo i) s)
  | .checkIcmd => if s.icmdValid then .done s else .raised (raise .uninitialised 0 s)
  | .checkPlanes => if s.planesValid then .done s else .raised (raise .uninitialised 1 s)

/-- Perform micro-operations in order, stopping at the first that raises. -/
def performAll : List MicroOp → State → Run
  | [], s => .done s
  | m :: ms, s => (perform m s).andThen (performAll ms)

/-! ## Expansions (R30) -/

/-- The two drives of `m` clock cells (R100). -/
def pulseOps (m : Nat) : List MicroOp :=
  (List.range m).flatMap fun _ => [.drive .clk (.const config.clkFirst), .drive .clk (.const config.clkIdle)]

/-- The three drives of a bit cell (R120). -/
def bitOps (v : Source) : List MicroOp := [.drive .wr (.const false), .drive .data v, .drive .wr (.const true)]

/-- `SEL_NONE` and `SEL_ALL` (R102, R103). -/
def selectOps (level : Level) : List MicroOp := .drive .cs (.const level) :: pulseOps config.n

/-- `SEL_ONE i` (R104): out of range, the index check is the last micro-operation performed. -/
def selOneOps (i : Nat) : List MicroOp :=
  selectOps config.csDeselectLevel ++ [.checkIndex i] ++
    (if i < config.n then
      [.drive .cs (.const config.csSelectLevel)] ++ pulseOps 1 ++ [.drive .cs (.const config.csDeselectLevel)] ++ pulseOps i
    else [])

/-- The load of `CMDSR` and the twelve cells `CMDSR[11]` down to `CMDSR[0]` (R121). -/
def commandOps (load : MicroOp) : List MicroOp :=
  load :: ((List.range 12).reverse.flatMap fun b => bitOps (.cmdsr b))

/-- A broadcast (R122). -/
def broadcastOps (load : MicroOp) : List MicroOp :=
  selectOps config.csSelectLevel ++ commandOps load ++ selectOps config.csDeselectLevel

/-- The reads of `EXTRACT r, q` (R140). -/
def extractOps (r q : BitVec 1) : List MicroOp :=
  scanOrder.map fun p =>
    .read (pixelX q p.1) (pixelY r p.2) (cellIndex p.1 p.2) (cellIndex p.1 p.2 + 1 == config.planeBits)

/-- Bit cells of constants. -/
def constOps (bits : List Level) : List MicroOp := bits.flatMap fun b => bitOps (.const b)

/-- `WR_DATA` (R142). -/
def wrDataOps : List MicroOp :=
  .checkPlanes :: (constOps leadBits ++ ((List.range config.planeBits).flatMap fun k => bitOps (.red k)) ++
    ((List.range config.planeBits).flatMap fun k => bitOps (.green k)))

/-- `BEGIN` (R160). -/
def beginOps : List MicroOp :=
  .checkIcmd :: ([.load config.sysDis, .load config.comNmos8, .load config.rcMasterMode, .load config.sysEn, .loadIcmd,
    .load config.blinkOff, .load config.ledOn].flatMap broadcastOps)

/-- The bit cells of the clear frame (R79). -/
def clearFrameOps : List MicroOp := constOps (leadBits ++ List.replicate config.memBits false)

/-- The part of `SHOW` for chip `c` (R166). -/
def showChipOps (c : Fin 4) : List MicroOp :=
  selOneOps c.val ++ extractOps (chipPos c).1 (chipPos c).2 ++ wrDataOps ++ selectOps config.csDeselectLevel

/-- The expansion of an instruction: the flat list of micro-operations its rule's pseudocode performs (R30). -/
def expansion (i : Instr) : List MicroOp :=
  match i with
  | .selNone => selectOps config.csDeselectLevel
  | .selAll => selectOps config.csSelectLevel
  | .selOne i => selOneOps i
  | .wrCmd c => commandOps (.load (maskCommand c))
  | .extract r q => extractOps r q
  | .wrData => wrDataOps
  | .bcastCmd c => broadcastOps (.load (maskCommand c))
  | .beginInit => beginOps
  | .setIntensity l => .storeIcmd l :: beginOps
  | .clear => selectOps config.csSelectLevel ++ clearFrameOps ++ selectOps config.csDeselectLevel
  | .showFrame =>
    broadcastOps (.load config.sysEn) ++ showChipOps 0 ++ showChipOps 1 ++ showChipOps 2 ++ showChipOps 3
  | .sysDis => commandOps (.load config.sysDis)
  | .sysEn => commandOps (.load config.sysEn)
  | .ledOff => commandOps (.load config.ledOff)
  | .ledOn => commandOps (.load config.ledOn)
  | .blinkOff => commandOps (.load config.blinkOff)
  | .blinkOn => commandOps (.load config.blinkOn)
  | .slaveMode => commandOps (.load config.slaveMode)
  | .rcMasterMode => commandOps (.load config.rcMasterMode)
  | .extClkMasterMode => commandOps (.load config.extClkMasterMode)
  | .comNmos8 => commandOps (.load config.comNmos8)
  | .comNmos16 => commandOps (.load config.comNmos16)
  | .comPmos8 => commandOps (.load config.comPmos8)
  | .comPmos16 => commandOps (.load config.comPmos16)
  | .pwmDuty level => commandOps (.load (intensityCommand level.toNat))
  | .dataFrame red green => constOps (leadBits ++ planeBits red ++ planeBits green)
  | .clearFrame => clearFrameOps

/-- The index of the last micro-operation an operation performs when it runs from `s`: the last of its expansion, or the
check that raises (R31, R184). Micro-operations in closed form: a selection has `1 + 2N`, a command `1 + 36`, a data frame
`1 + 798`. -/
def lastMicro (i : Instr) (s : State) : Nat :=
  match i with
  | .selNone => 2 * config.n
  | .selAll => 2 * config.n
  | .selOne i => if i < config.n then 2 * config.n + 5 + 2 * i else 2 * config.n + 1
  | .wrCmd _ => 36
  | .extract _ _ => config.planeBits - 1
  | .wrData => if s.planesValid then 3 * (10 + 2 * config.planeBits) else 0
  | .bcastCmd _ => 2 * (1 + 2 * config.n) + 36
  | .beginInit => if s.icmdValid then 7 * (2 * (1 + 2 * config.n) + 37) else 0
  | .setIntensity _ => 1 + 7 * (2 * (1 + 2 * config.n) + 37)
  | .clear => 2 * (1 + 2 * config.n) + 3 * (10 + config.memBits) - 1
  | .showFrame => 3866
  | .sysDis => 36
  | .sysEn => 36
  | .ledOff => 36
  | .ledOn => 36
  | .blinkOff => 36
  | .blinkOn => 36
  | .slaveMode => 36
  | .rcMasterMode => 36
  | .extClkMasterMode => 36
  | .comNmos8 => 36
  | .comNmos16 => 36
  | .comPmos8 => 36
  | .comPmos16 => 36
  | .pwmDuty _ => 36
  | .dataFrame _ _ => 3 * (10 + 2 * config.planeBits) - 1
  | .clearFrame => 3 * (10 + config.memBits) - 1

/-! ## One step of the engine, micro-operation by micro-operation (R31) -/

/-- Perform `m`; the operation is over if it raised or was the last, else `UPC` goes on to `next` (R31). -/
def performStep (m : MicroOp) (next : Nat) (isLast : Bool) (s : State) : State :=
  match perform m s with
  | .raised s => { s with busy := false }
  | .done s => if isLast then { s with busy := false } else { s with upc := BitVec.ofNat 12 next }

/-- The busy branch of R31: perform the micro-operation at `UPC` of the expansion of `(OP, ARG)`. -/
def microBusy (s : State) : Host.Outcome State Fault Refusal :=
  match decodeRequest (requestWord s.op s.arg) with
  | none => .fault .noOperation
  | some i =>
    match (expansion i)[s.upc.toNat]? with
    | none => .fault .noMicroOperation
    | some m => .next (performStep m (s.upc.toNat + 1) (s.upc.toNat + 1 == (expansion i).length) s)

/-- One step of the engine exactly as R31 writes it, for a request at the head of the host's moves: acceptance is a step of
its own, and each micro-operation is a step. A state with no request presented does not change. -/
def microStep (s : State) : Host.Outcome State Fault Refusal :=
  if s.busy then microBusy s
  else
    match s.host with
    | .present (.request w) :: rest =>
      match decodeRequest w with
      | none => .next (illegalRequest w { s with host := rest })
      | some _ => .next (accept w { s with host := rest })
    | _ => .next s

/-- `k` micro-steps. -/
def microRun : Nat → State → Host.Outcome State Fault Refusal
  | 0, s => .next s
  | k + 1, s =>
    match microStep s with
    | .next s => microRun k s
    | .fault r => .fault r
    | .refused r => .refused r

end Sys2Proof.Machine
end

