-- ==== Sys2Proof/Machine/Fetch.lean ====
section
/-! DEFINITION. What the next step of the machine does: the host's next move, or the next micro-operation of an operation in
progress (R31, R205, R213, R214), and the presentation of one instruction. -/

namespace Sys2Proof.Machine

/-- What the next step does. -/
inductive Action where
  /-- Nothing is presented (R31: no change). -/
  | wait
  /-- The step leads to this state without running an instruction: a pixel write, a reset, or an illegal request. -/
  | become (s : State)
  /-- An operation is in progress: perform its next micro-operation. -/
  | micro
  /-- Run `i` from `s`, as the accepted request; `last` is the index of the last micro-operation it performs. -/
  | operation (i : Instr) (last : Nat) (s : State)
  /-- Run `i` from `s`, as a frame. -/
  | transmission (i : Instr) (s : State)
  /-- A frame that is no row of the table. -/
  | unnamedFrame
  deriving DecidableEq, Repr

/-- A frame presented, with the row it stands in. -/
def takeFrame (row : Option Instr) (s : State) : Action :=
  match row with
  | none => .unnamedFrame
  | some i => .transmission i s

/-- The host's move `move` at `BUSY = 0`; `s` is the state with that move taken from the list. -/
def takeMove (move : HostMove) (s : State) : Action :=
  match move with
  | .reset => .become (resetEngine s)
  | .pixel x y v => .become (writePixel x y v s)
  | .present (.request w) =>
    match decodeRequest w with
    | none => .become (illegalRequest w s)
    | some i => .operation i (lastMicro i s) (accept w s)
  | .present (.command c) => takeFrame (decodeCommand c) s
  | .present (.longFrame nbits w) => takeFrame (decodeLongFrame nbits w) s

/-- The next step: while `BUSY = 1` only a reset is taken from the host (R204, R205, R207); the engine goes on. -/
def nextAction (s : State) : Action :=
  match s.host with
  | [] => if s.busy then .micro else .wait
  | move :: rest =>
    if s.busy then (if move = .reset then .become (resetEngine { s with host := rest }) else .micro)
    else takeMove move { s with host := rest }

/-- Present one thing as the host's next move, with the engine idle. -/
def presentNext (p : Presented) (s : State) : State := { s with busy := false, host := .present p :: s.host }

/-- What follows the run of an accepted operation: it is retired (R31). -/
def retireOutcome (last : Nat) (o : Host.Outcome State Fault Refusal) : Host.Outcome State Fault Refusal :=
  match o with
  | .next s => .next (retire last s)
  | .fault r => .fault r
  | .refused r => .refused r

end Sys2Proof.Machine
end

