-- ==== Sys2Proof/Machine/Step.lean ====
section
/-! DEFINITION. One step of the machine. A request presented while the engine is idle runs to its end in one step, as R31 and
D1 allow (log entry 3); a state with an operation in progress goes on by one micro-operation. -/

namespace Sys2Proof.Machine

/-- Carry out what the next step does from `s`. -/
def runAction (a : Action) (s : State) : Host.Outcome State Fault Refusal :=
  match a with
  | .wait => .next s
  | .become t => .next t
  | .micro => microBusy s
  | .operation i last t => retireOutcome last (exec i t)
  | .transmission i t => exec i t
  | .unnamedFrame => .refused .notAFrame

/-- One step. -/
def step (s : State) : Host.Outcome State Fault Refusal := runAction (nextAction s) s

/-- `s` with one instruction of the table presented, so that the very next step runs it (log entry 4). -/
def State.withFetchWord (s : State) (nbits w : Nat) : State := presentNext (tablePresented nbits w) s

end Sys2Proof.Machine
end

