-- ==== Sys2Proof/Machine/Observer.lean ====
section
/-! DEFINITION. Views of what the observer recorded: the display RAM of a chip as the frames it was sent fill it (R57, R58).
The chips themselves are outside the model (R4); this view reads `FRAMES` and nothing reads it back. -/

namespace Sys2Proof.Machine

/-- The payload of a data frame or a clear frame, which fills the RAM in order from its first bit (R57, R78, R79); `none` for
any other frame. DEDUCED (unsafe): a frame is one of the two if it begins with the preamble and the zero address and has
exactly the 266 or 394 bits of R84, which no other transfers inside one selection add up to, log entry 16. -/
def payload (frame : List Level) : Option (List Level) :=
  if (frame.length = 266 ∨ frame.length = 394) ∧
      frame.take 10 = [true, false, true, false, false, false, false, false, false, false] then
    some (frame.drop 10)
  else none

/-- The frame is one command word of the table, which writes no RAM (R57, R80). -/
def isCommandFrame (frame : List Level) : Bool :=
  frame.length == 12 && (decodeCommand (commandOfBits frame)).isSome

/-- What is known of bit `j` of a chip's RAM after one more frame: a data or clear frame that reaches the bit writes it, a
command of the table leaves it. DESIGN CHOICE (safe): any other frame leaves nothing known. Such are a word outside the
chip's command table (0xA00 to 0xA03 begin like a data frame) and several transfers inside one selection; what the chip does
with them is outside the model (R83, U10, U11), log entry 16. -/
def ramAfter (j : Nat) (before : Option Level) (frame : List Level) : Option Level :=
  match payload frame with
  | some bits => if j < bits.length then bits[j]? else before
  | none => if isCommandFrame frame then before else none

/-- Bit `j` of a chip's RAM, in the chip's own sequential-write order, after the frames listed, oldest first; `none` where
nothing is known of it, as at power-on (R203). -/
def ramBit (frames : List (List Level)) (j : Nat) : Option Level := frames.foldl (ramAfter j) none

/-- Bit `j` of chip `c`'s RAM as far as the frames it completed tell. -/
def chipRam (s : State) (c : Fin 4) (j : Nat) : Option Level := ramBit (s.chips.get c).frames j

end Sys2Proof.Machine
end

