-- ==== Sys2Proof/Safety.lean ====
section
/-! DEFINITION. The terms claims are stated in: the events of the wire codes (R74 to R79), the premises of R215, the good end
of R212, the discipline of R208, and the invariant of R38. Written from the spec's rules, not from the meanings. -/

namespace Sys2Proof.Safety

open Sys2Proof.Machine

/-! ## The wire (R74 to R79) -/

/-- `m` clock cells (R75). -/
def pulseEvents : Nat → List Event
  | 0 => []
  | m + 1 => (.clk, config.clkFirst) :: (.clk, config.clkIdle) :: pulseEvents m

/-- The chip-select codes of none (`D p p p p`) and of all (`S p p p p`) (R76). -/
def selectEvents (level : Level) : List Event := (.cs, level) :: pulseEvents 4

/-- The chip-select code of chip `i`: `D p p p p  S p  D`, then `i` times `p` (R76). -/
def selectOneEvents (i : Nat) : List Event :=
  selectEvents config.csDeselectLevel ++ [(.cs, config.csSelectLevel)] ++ pulseEvents 1 ++
    [(.cs, config.csDeselectLevel)] ++ pulseEvents i

/-- Bit cells, each `(WR,0) (DATA,b) (WR,1)` (R74). -/
def bitEvents : List Level → List Event
  | [] => []
  | b :: bs => (.wr, false) :: (.data, b) :: (.wr, true) :: bitEvents bs

/-- The bits of a command frame: `c[11], c[10], ..., c[0]` (R77). -/
def commandFrame (c : Command) : List Level := (List.range 12).map fun n => c.getLsbD (11 - n)

/-- The ten leading bits: `1,0,1` and seven zeros (R78). -/
def leading : List Level := [true, false, true, false, false, false, false, false, false, false]

/-- The bits of a data frame: leading bits, `RED[0..127]`, `GREEN[0..127]` (R78). -/
def dataFrame (red green : Nat → Level) : List Level :=
  leading ++ (List.range 128).map red ++ (List.range 128).map green

/-- The bits of a clear frame (R79). -/
def clearFrame : List Level := leading ++ List.replicate 384 false

/-- A broadcast of one command (R122). -/
def broadcastEvents (c : Command) : List Event :=
  selectEvents config.csSelectLevel ++ bitEvents (commandFrame c) ++ selectEvents config.csDeselectLevel

/-! ## The panel (R52, R140, R141) -/

/-- Grid row and column of chip `c`: `{0:(0,0), 1:(0,1), 2:(1,0), 3:(1,1)}` (R52). -/
def gridOf (c : Fin 4) : Nat × Nat := (c.val / 2, c.val % 2)

/-- The reads of the rectangle at grid position `(r, q)`, in order: column-major, 16 columns of 8 rows (R140). -/
def rectangle (r q : Nat) : List (Nat × Nat) :=
  (List.range 16).flatMap fun col => (List.range 8).map fun row => (16 * q + col, 8 * r + row)

/-- The pixel cell `k` of the planes of the rectangle at `(r, q)` (R141). -/
def cellPixel (s : State) (r q k : Nat) : BitVec 2 := pixelAt s (16 * q + k / 8) (8 * r + k % 8)

/-- The red bit of that pixel, `v[RED_BIT]` (R53). -/
def redCell (s : State) (r q k : Nat) : Level := (cellPixel s r q k).getLsbD config.redBit

/-- The green bit of that pixel, `v[1 - RED_BIT]` (R53). -/
def greenCell (s : State) (r q k : Nat) : Level := (cellPixel s r q k).getLsbD (1 - config.redBit)

/-- The bits of the data frame that `SHOW` sends to chip `c` (R166, R78). -/
def chipFrame (s : State) (c : Fin 4) : List Level :=
  dataFrame (redCell s (gridOf c).1 (gridOf c).2) (greenCell s (gridOf c).1 (gridOf c).2)

/-- The events `SHOW` makes for chip `c` (R166). -/
def showChipEvents (s : State) (c : Fin 4) : List Event :=
  selectOneEvents c.val ++ bitEvents (chipFrame s c) ++ selectEvents config.csDeselectLevel

/-- The events of `SHOW` (R166). -/
def showEvents (s : State) : List Event :=
  broadcastEvents 0x802 ++ showChipEvents s 0 ++ showChipEvents s 1 ++ showChipEvents s 2 ++ showChipEvents s 3

/-- The seven words of `BEGIN` (R160). -/
def initWords (icmd : Command) : List Command := [0x800, 0x840, 0x830, 0x802, icmd, 0x810, 0x806]

/-- The intensity command of level `L`, 0 to 15, as R163 tabulates it. -/
def levelWord (level : Nat) : Command := BitVec.ofNat 12 (0x940 + 2 * level)

/-! ## Premises (R215)

`StablePixels` and `SoleDriver` hold in every run of the model, since no step lets anything else write the pixels while
`BUSY = 1` or drive a line (log entry 14). -/

/-- `Idle`. -/
abbrev Idle (s : State) : Prop := s.busy = false

/-- `NoFault`. -/
abbrev NoFault (s : State) : Prop := s.fault = false

/-- `FromReset`, whatever the pixels and the host's moves. -/
abbrev FromReset (s : State) : Prop := s = { State.reset with pixels := s.pixels, host := s.host }

/-- `Constructed` (R202): the state after reset and then `SET_INTENSITY level`. The request is run by the step that takes it
from the host; a level that no request word can carry (R73, D21) is the abstract operation. -/
def Constructed (level : Int) (s : State) : Prop :=
  ∃ s0, FromReset s0 ∧
    ((∃ w rest, s0.host = .present (.request w) :: rest ∧ decodeRequest w = some (.setIntensity level) ∧ step s0 = .next s) ∨
      (WellFormed (.setIntensity level) = false ∧ exec (.setIntensity level) s0 = .next s))

/-- `KnownChain`. -/
abbrev KnownChain (s : State) : Prop := sel s.sr ≠ .undef

/-- No chip has a frame in progress. -/
abbrev NoFrameOpen (s : State) : Prop := ∀ k : Fin 4, (s.chips.get k).rx = []

/-- The good end of a run (R212): nothing in progress or presented, `FAULT` = 0 and no chip selected. -/
abbrev GoodEnd (s : State) : Prop := s.busy = false ∧ s.host = [] ∧ s.fault = false ∧ sel s.sr = .none

/-- What the host has done so far, as the duties of R208 need it. -/
structure HostUse where
  /-- The chips it has selected and not deselected again. -/
  selection : Selection
  /-- The transfer of this selection has been made. -/
  sent : Bool
  /-- The grid position of the rectangle last extracted. -/
  planes : Option (BitVec 1 × BitVec 1)
  deriving DecidableEq, Repr

namespace HostUse

/-- Nothing done yet. -/
def start : HostUse := ⟨.none, false, none⟩

/-- No chip is selected. -/
def idle (u : HostUse) : Bool := decide (u.selection = .none)

/-- A chip is selected and this selection's transfer is still to be made (R208 a, b). -/
def ready (u : HostUse) : Bool := decide (u.selection ≠ .none) && !u.sent

/-- The planes last extracted are those of the one chip selected (R208 d). -/
def paired (u : HostUse) : Bool :=
  match u.selection with
  | .one c => decide (u.planes = some (chipPos c))
  | .all => false
  | .none => false
  | .undef => false
  | .mixed => false

/-- The word is one of the chip's command table (R208 e, R80). -/
def tableWord (c : Nat) : Bool := (decodeCommand (maskCommand c)).isSome

/-- The instruction keeps the duties of R208. DEDUCED (safe, a premise only): a chip selected is deselected by SEL_NONE before
the next selection or composite (c), and WR_DATA goes to one chip (d), log entry 20. -/
def allows (u : HostUse) (i : Instr) : Bool :=
  match i with
  | .selNone => true
  | .selAll => u.idle
  | .selOne _ => u.idle
  | .extract _ _ => true
  | .wrCmd c => u.ready && tableWord c
  | .wrData => u.ready && u.paired
  | .bcastCmd c => u.idle && tableWord c
  | .beginInit => u.idle
  | .setIntensity _ => u.idle
  | .clear => u.idle
  | .showFrame => u.idle
  | .sysDis => u.ready
  | .sysEn => u.ready
  | .ledOff => u.ready
  | .ledOn => u.ready
  | .blinkOff => u.ready
  | .blinkOn => u.ready
  | .slaveMode => u.ready
  | .rcMasterMode => u.ready
  | .extClkMasterMode => u.ready
  | .comNmos8 => u.ready
  | .comNmos16 => u.ready
  | .comPmos8 => u.ready
  | .comPmos16 => u.ready
  | .pwmDuty _ => u.ready
  | .dataFrame _ _ => u.ready
  | .clearFrame => u.ready

/-- A selection is made. -/
def select (u : HostUse) (chips : Selection) : HostUse := { u with selection := chips, sent := false }

/-- A transfer is made. -/
def send (u : HostUse) : HostUse := { u with sent := true }

/-- The host's use after the instruction. `SEL_ONE` out of range leaves no chip selected (R104); `SHOW` extracts chip 3's
rectangle last (R166). -/
def after (u : HostUse) (i : Instr) : HostUse :=
  match i with
  | .selNone => u.select .none
  | .selAll => u.select .all
  | .selOne n => if h : n < 4 then u.select (.one ⟨n, h⟩) else u.select .none
  | .extract r q => { u with planes := some (r, q) }
  | .wrCmd _ => u.send
  | .wrData => u.send
  | .bcastCmd _ => u.select .none
  | .beginInit => u.select .none
  | .setIntensity _ => u.select .none
  | .clear => u.select .none
  | .showFrame => { u.select .none with planes := some (chipPos 3) }
  | .sysDis => u.send
  | .sysEn => u.send
  | .ledOff => u.send
  | .ledOn => u.send
  | .blinkOff => u.send
  | .blinkOn => u.send
  | .slaveMode => u.send
  | .rcMasterMode => u.send
  | .extClkMasterMode => u.send
  | .comNmos8 => u.send
  | .comNmos16 => u.send
  | .comPmos8 => u.send
  | .comPmos16 => u.send
  | .pwmDuty _ => u.send
  | .dataFrame _ _ => u.send
  | .clearFrame => u.send

end HostUse

/-- `OneTransferPerSelection`: the instructions, run in order from `u`, keep the duties of R208 (a) to (e), and no chip is left
selected. -/
def oneTransferPerSelection : HostUse → List Instr → Bool
  | u, [] => u.idle
  | u, i :: is => u.allows i && oneTransferPerSelection (u.after i) is

/-- The bits are a row of the table: a command, a data frame or a clear frame. -/
def isRow (bits : List Level) : Bool := (decode (frameOfBits bits)).isSome

/-- The state agrees with the host's use of it: no chip selected, or the chips selected; every frame recorded, and every
frame open once the transfer is made, is a row of the table; before, no frame has a bit. -/
abbrev Tracks (u : HostUse) (s : State) : Prop :=
  (if u.selection = .none then ∀ k : Fin 4, s.sr.get k ≠ .selected else sel s.sr = u.selection) ∧
    (∀ k : Fin 4, ∀ f ∈ (s.chips.get k).frames, isRow f = true) ∧
    (∀ k : Fin 4, if s.sr.get k = .selected ∧ u.sent = true then isRow (s.chips.get k).rx = true
      else (s.chips.get k).rx = []) ∧
    (s.icmdValid = true → (decodeCommand s.icmd).isSome = true) ∧ (u.planes ≠ none → s.planesValid = true)

/-! ## The invariant (R38) -/

/-- The line and chain part of R38: `CLK` and `WR` idle, no mixed selection; and, as R27 says of `X`, the chain is unknown
in every cell or in none. -/
abbrev ChainQuiet (s : State) : Prop :=
  s.lines.clk = config.clkIdle ∧ s.lines.wr = config.wrIdle ∧ sel s.sr ≠ .mixed ∧
    (sel s.sr = .undef → s.sr = PerChip.const .unknown)

/-- `ICMD` holds a legal value once it is valid (R28), and the fault registers record nothing before the first fault and a
fault's code after it (R180, R184). -/
abbrev RegistersLegal (s : State) : Prop :=
  (s.icmdValid = true → s.icmd ∈ (List.range 16).map levelWord) ∧
    (s.fault = false → s.faultCode = 0 ∧ s.faultInfo = 0) ∧ (s.fault = true → s.faultCode ≠ 0)

/-- The observer: a chip that is not selected has no frame in progress, and no recorded frame is empty (R60). -/
abbrev ObserverLegal (s : State) : Prop :=
  ∀ k : Fin 4, (s.sr.get k ≠ .selected → (s.chips.get k).rx = []) ∧ [] ∉ (s.chips.get k).frames

/-- The invariant between operations (R38, with R27, R28, R60, R180 and the canonical form of the pixel space). -/
abbrev Quiet (s : State) : Prop :=
  s.busy = false ∧ ChainQuiet s ∧ RegistersLegal s ∧ ObserverLegal s ∧ Memory.wf s.pixels = true

end Sys2Proof.Safety
end

