-- ==== Sys2Proof/Certificates/Slice0/Obligations.lean ====
section
/-! DEFINITION. What is claimed of the model, from the numbered rules of spec/. Each docstring cites the rules it rests on. -/

open Sys2Proof Sys2Proof.Machine Sys2Proof.Safety

namespace Sys2Proof.Claims

/-- No cell of the pixel space reads differently. -/
abbrev SamePixels (s t : State) : Prop := ∀ x y : Nat, pixelAt t x y = pixelAt s x y

/-- The frame of a chip-select operation: only `CS`, `CLK`, `SR`, `TRACE` and the observer change. -/
abbrev SelectFrame (s t : State) : Prop :=
  t = { s with lines := t.lines, sr := t.sr, traceRev := t.traceRev, chips := t.chips } ∧
    t.lines.data = s.lines.data ∧ t.lines.wr = s.lines.wr ∧ SamePixels s t

/-- The frame of a transfer: only `DATA`, `WR`, `CMDSR`, `TRACE` and the observer change. -/
abbrev SerialFrame (s t : State) : Prop :=
  t = { s with lines := t.lines, cmdsr := t.cmdsr, traceRev := t.traceRev, chips := t.chips } ∧
    t.lines.clk = s.lines.clk ∧ t.lines.cs = s.lines.cs ∧ SamePixels s t

/-- The observer after bits sent: each selected chip takes them, and no other does, an unknown one included. That is the
reading of R60, DEDUCED (log entry 12). -/
abbrev ChipsTake (bits : List Level) (s t : State) : Prop :=
  ∀ k : Fin 4, t.chips.get k =
    if s.sr.get k = .selected then ⟨(s.chips.get k).rx ++ bits, (s.chips.get k).frames⟩ else s.chips.get k

/-- The observer after a deselection of every chip: the frame of a selected chip ends, an empty one is not recorded (R60). -/
abbrev FramesEnd (s t : State) : Prop :=
  ∀ k : Fin 4, t.chips.get k =
    if s.sr.get k = .selected then
      ⟨[], if (s.chips.get k).rx = [] then (s.chips.get k).frames else (s.chips.get k).frames ++ [(s.chips.get k).rx]⟩
    else s.chips.get k

/-- The observer after whole frames sent to every chip from a state with no frame open. -/
abbrev ChipsRecord (frames : Fin 4 → List (List Level)) (s t : State) : Prop :=
  ∀ k : Fin 4, t.chips.get k = ⟨[], (s.chips.get k).frames ++ frames k⟩

/-- `i` sends the command word `c` from `s`: `CMDSR`, twelve bit cells most significant bit first, and nothing else (R77,
R121). -/
abbrev SendsCommand (i : Instr) (c : Command) (s : State) : Prop :=
  ∃ t, exec i s = .next t ∧ t.cmdsr = c ∧ t.lines.data = c.getLsbD 0 ∧ t.lines.wr = true ∧
    t.trace = s.trace ++ bitEvents (commandFrame c) ∧ ChipsTake (commandFrame c) s t ∧ SerialFrame s t

/-- The payload for chip `c` of a panel whose only coloured pixel is `(0,0)`, of value `v` (R143). -/
def cornerPayload (v : BitVec 2) (c : Nat) : List Level :=
  if c = 0 then [v.getLsbD 1] ++ List.replicate 127 false ++ [v.getLsbD 0] ++ List.replicate 127 false
  else List.replicate 256 false

/-- Run instructions one after another, each to its end. -/
def execAll : List Instr → State → Host.Outcome State Fault Refusal
  | [], s => .next s
  | i :: is, s =>
    match exec i s with
    | .next t => execAll is t
    | .fault r => .fault r
    | .refused r => .refused r

/-- The lines each instruction may drive (R22): `CS` and `CLK` for the selections, `DATA` and `WR` for the transfers, all four
for the operations that contain both, none for EXTRACT. -/
def mayDrive (i : Instr) (l : Line) : Bool :=
  match i with
  | .selNone => l = .cs ∨ l = .clk
  | .selAll => l = .cs ∨ l = .clk
  | .selOne _ => l = .cs ∨ l = .clk
  | .extract _ _ => false
  | .bcastCmd _ => true
  | .beginInit => true
  | .setIntensity _ => true
  | .clear => true
  | .showFrame => true
  | .wrCmd _ => l = .data ∨ l = .wr
  | .wrData => l = .data ∨ l = .wr
  | .sysDis => l = .data ∨ l = .wr
  | .sysEn => l = .data ∨ l = .wr
  | .ledOff => l = .data ∨ l = .wr
  | .ledOn => l = .data ∨ l = .wr
  | .blinkOff => l = .data ∨ l = .wr
  | .blinkOn => l = .data ∨ l = .wr
  | .slaveMode => l = .data ∨ l = .wr
  | .rcMasterMode => l = .data ∨ l = .wr
  | .extClkMasterMode => l = .data ∨ l = .wr
  | .comNmos8 => l = .data ∨ l = .wr
  | .comNmos16 => l = .data ∨ l = .wr
  | .comPmos8 => l = .data ∨ l = .wr
  | .comPmos16 => l = .data ∨ l = .wr
  | .pwmDuty _ => l = .data ∨ l = .wr
  | .dataFrame _ _ => l = .data ∨ l = .wr
  | .clearFrame => l = .data ∨ l = .wr

/-- The instructions that load `CMDSR`: those that send a command (R39), the command rows among them. -/
def loadsCmdsr (i : Instr) : Bool :=
  match i with
  | .selNone => false
  | .selAll => false
  | .selOne _ => false
  | .wrCmd _ => true
  | .extract _ _ => false
  | .wrData => false
  | .bcastCmd _ => true
  | .beginInit => true
  | .setIntensity _ => true
  | .clear => false
  | .showFrame => true
  | .sysDis => true
  | .sysEn => true
  | .ledOff => true
  | .ledOn => true
  | .blinkOff => true
  | .blinkOn => true
  | .slaveMode => true
  | .rcMasterMode => true
  | .extClkMasterMode => true
  | .comNmos8 => true
  | .comNmos16 => true
  | .comPmos8 => true
  | .comPmos16 => true
  | .pwmDuty _ => true
  | .dataFrame _ _ => false
  | .clearFrame => false

/-- A row of the table of R211: events on `CS`, `CLK`, `WR`, `DATA`, bits sent, and pixel reads. -/
structure Counts where
  cs : Nat
  clk : Nat
  wr : Nat
  data : Nat
  bits : Nat
  reads : Nat
  deriving DecidableEq, Repr

/-- `i` runs from `s` with exactly these numbers of events and reads. -/
abbrev HasCounts (i : Instr) (s : State) (c : Counts) : Prop :=
  ∃ t events reads, exec i s = .next t ∧ t.trace = s.trace ++ events ∧ t.pxTrace = s.pxTrace ++ reads ∧
    events.countP (·.1 = .cs) = c.cs ∧ events.countP (·.1 = .clk) = c.clk ∧ events.countP (·.1 = .wr) = c.wr ∧
    events.countP (·.1 = .data) = c.data ∧ events.length = c.cs + c.clk + c.wr + c.data ∧
    events.count (.wr, true) = c.bits ∧ reads.length = c.reads

end Sys2Proof.Claims

open Sys2Proof.Claims

/-! ## Reset, requests, steps -/

/-- The values R37 states for reset. The entries the table leaves unspecified are not stated. -/
def Obligations.ResetLeavesTheStatedValues : Prop :=
  (∀ k, State.reset.sr.get k = .unknown) ∧ sel State.reset.sr = .undef ∧ State.reset.lines.clk = false ∧
    State.reset.lines.wr = true ∧ State.reset.lines.cs = true ∧ State.reset.lines.data = false ∧
    State.reset.planesValid = false ∧ State.reset.icmdValid = false ∧ State.reset.fault = false ∧
    State.reset.faultCode = 0 ∧ State.reset.faultInfo = 0 ∧ State.reset.busy = false ∧ State.reset.upc = 0 ∧
    State.reset.trace = [] ∧ State.reset.pxTrace = []

/-- The invariant of R38 holds at reset. That the observer and the pixel space start empty is the model's choice (log entries
1 and 6). -/
def Obligations.InvariantAtReset : Prop := Quiet State.reset

/-- The invariant is kept by every step (R38): with no operation in progress, `CLK` and `WR` are idle, the selection is never
mixed and is unknown only before the first selection, `ICMD` is legal once valid, the fault registers agree, no unselected
chip has a frame open, and the pixel space keeps its form. -/
def Obligations.EveryStepKeepsTheInvariant : Prop :=
  ∀ s t : State, Quiet s → step s = .next t → Quiet t

/-- Operation codes and operands (R72, R73), for every operand. -/
def Obligations.RequestCodesDecode : Prop :=
  ∀ a : BitVec 12,
    decodeRequest (0x0#4 ++ a) = (if a = 0 then some .selNone else none) ∧
    decodeRequest (0x1#4 ++ a) = (if a = 0 then some .selAll else none) ∧
    decodeRequest (0x2#4 ++ a) = some (.selOne a.toNat) ∧
    decodeRequest (0x3#4 ++ a) = some (.wrCmd a.toNat) ∧
    decodeRequest (0x4#4 ++ a) = (if a.toNat < 4 then some (.extract (a.extractLsb' 1 1) (a.extractLsb' 0 1)) else none) ∧
    decodeRequest (0x5#4 ++ a) = (if a = 0 then some .wrData else none) ∧
    decodeRequest (0x6#4 ++ a) = some (.bcastCmd a.toNat) ∧
    decodeRequest (0x7#4 ++ a) = (if a = 0 then some .beginInit else none) ∧
    decodeRequest (0x8#4 ++ a) = some (.setIntensity a.toInt) ∧
    decodeRequest (0x9#4 ++ a) = (if a = 0 then some .clear else none) ∧
    decodeRequest (0xA#4 ++ a) = (if a = 0 then some .showFrame else none) ∧
    ∀ op : BitVec 4, 0xB#4 ≤ op → decodeRequest (op ++ a) = none

/-- Words written out from R72, R80, R78 and R79 decode to what they stand for. -/
def Obligations.WrittenWordsDecode : Prop :=
  decode (.request 0x0000) = some .selNone ∧ decode (.request 0x2FFF) = some (.selOne 4095) ∧
    decode (.request 0x3802) = some (.wrCmd 0x802) ∧ decode (.request 0x4003) = some (.extract 1 1) ∧
    decode (.request 0x8FFB) = some (.setIntensity (-5)) ∧ decode (.request 0xA000) = some .showFrame ∧
    decode (.request 0x4004) = none ∧ decode (.command 0x830) = some .rcMasterMode ∧
    decode (.command 0x954) = some (.pwmDuty 10) ∧ decode (.longFrame 266 0x405) = some (.dataFrame 1 0) ∧
    decode (.longFrame 394 5) = some .clearFrame

/-- Decoding undoes encoding, for every instruction an encoding can write. -/
def Obligations.DecodeUndoesEncode : Prop :=
  ∀ i : Instr, WellFormed i = true → decode (encode i) = some i

/-- Encoding undoes decoding, so each word or frame has one meaning, and what is decoded is well-formed. -/
def Obligations.EncodeUndoesDecode : Prop :=
  ∀ (p : Presented) (i : Instr), decode p = some i → encode i = p ∧ WellFormed i = true

/-- A presented request runs as its instruction (R31): acceptance loads `OP`, `ARG`, `UPC` and `BUSY`, `exec` runs, and at the
end `BUSY` falls. That `UPC` then stays at the last micro-operation performed is DEDUCED from R31 (log entry 7). -/
def Obligations.StepRunsThePresentedRequest : Prop :=
  ∀ (s t : State) (w : RequestWord) (rest : List HostMove) (i : Instr),
    s.busy = false → s.host = .present (.request w) :: rest → decodeRequest w = some i →
    exec i { s with host := rest, op := w.extractLsb' 12 4, arg := w.extractLsb' 0 12, upc := 0, busy := true } = .next t →
    step s = .next { t with busy := false, upc := BitVec.ofNat 12 (lastMicro i s) }

/-- A presented frame runs as its row (the model's own entry, log entry 5): nothing is added around `exec`. -/
def Obligations.StepRunsThePresentedFrame : Prop :=
  ∀ (s : State) (p : Presented) (rest : List HostMove) (i : Instr),
    s.busy = false → s.host = .present p :: rest → (∀ w, p ≠ .request w) → decode p = some i →
    step s = exec i { s with host := rest }

/-- With nothing presented an idle engine does not change (R31). -/
def Obligations.IdleEngineWaits : Prop := ∀ s : State, s.busy = false → s.host = [] → step s = .next s

/-- Illegal request words, and only they, are rejected; the step raises `IllegalRequest` with `REQ[11:0]`: no event, no pixel
read, no register changed but the fault registers, of which the first fault's code and operand are kept (R82, R182). -/
def Obligations.IllegalRequestRaises : Prop :=
  ∀ (s : State) (w : RequestWord) (rest : List HostMove),
    s.busy = false → s.host = .present (.request w) :: rest →
    (decodeRequest w = none ↔
      (w.extractLsb' 12 4).toNat ≥ 0xB ∨
      ((w.extractLsb' 12 4).toNat ∈ [0x0, 0x1, 0x5, 0x7, 0x9, 0xA] ∧ w.extractLsb' 0 12 ≠ 0) ∨
      ((w.extractLsb' 12 4).toNat = 0x4 ∧ w.extractLsb' 2 10 ≠ 0)) ∧
    (decodeRequest w = none → step s = .next { s with
      host := rest
      fault := true
      faultCode := if s.fault then s.faultCode else 2
      faultInfo := if s.fault then s.faultInfo else w.extractLsb' 0 12 })

/-- What the host presents while `BUSY = 1` has no effect and is not taken (R205). -/
def Obligations.BusyEngineTakesNoRequest : Prop :=
  ∀ s t : State, s.busy = true → (∀ rest, s.host ≠ .reset :: rest) → step s = .next t →
    t.host = s.host ∧ step { s with host := [] } = .next { t with host := [] }

/-- A reset, at any time, leaves the reset state (R200); the pixel space and the host's other moves stay. -/
def Obligations.ResetMoveResets : Prop :=
  ∀ (s : State) (rest : List HostMove), s.host = .reset :: rest →
    step s = .next { State.reset with pixels := s.pixels, host := rest }

/-- A pixel the host writes while the engine is idle holds the new value, and no other cell changes (R63). -/
def Obligations.PixelWriteIsSeen : Prop :=
  ∀ (s : State) (x : BitVec 5) (y : BitVec 4) (v : BitVec 2) (rest : List HostMove),
    s.busy = false → Memory.wf s.pixels = true → s.host = .pixel x y v :: rest →
    ∃ t, step s = .next t ∧ pixelAt t x.toNat y.toNat = v ∧
      (∀ a b : Nat, a < 32 → ¬ (a = x.toNat ∧ b = y.toNat) → pixelAt t a b = pixelAt s a b) ∧
      t = { s with pixels := t.pixels, host := rest }

/-! ## The chip selector -/

/-- `m` pulses at one `CS` level with flag `f` (R101): the first `min(m, N)` cells hold `f`, the others what stood `m` places
before; `N` pulses set every cell. -/
def Obligations.PulsesMoveTheFlag : Prop :=
  ∀ (m : Nat) (s : State),
    (∀ k : Fin 4, k.val < min m 4 → (pulses m s).sr.get k = csFlag s.lines.cs) ∧
    (∀ (k : Fin 4) (j : Fin 4), m ≤ k.val → j.val = k.val - m → (pulses m s).sr.get k = s.sr.get j) ∧
    (∀ k : Fin 4, (pulses 4 s).sr.get k = csFlag s.lines.cs)

/-- `SEL_NONE` (R102): nine events, every chip deselected, `CS` at the deselect level, from any state. -/
def Obligations.SelNoneDeselectsEveryChip : Prop :=
  ∀ s : State, ∃ t, exec .selNone s = .next t ∧ (∀ k, t.sr.get k = .deselected) ∧ sel t.sr = .none ∧
    t.lines.cs = true ∧ t.lines.clk = false ∧
    t.trace = s.trace ++ [(.cs, true), (.clk, true), (.clk, false), (.clk, true), (.clk, false), (.clk, true),
      (.clk, false), (.clk, true), (.clk, false)] ∧ SelectFrame s t

/-- `SEL_ALL` (R103): nine events, every chip selected, `CS` left at the select level, from any state. On the observer's side
(R60, log entry 12): from no chip selected every chip starts its frame empty; with no frame open, or from every chip selected,
every chip's record is as before. -/
def Obligations.SelAllSelectsEveryChip : Prop :=
  ∀ s : State, ∃ t, exec .selAll s = .next t ∧ (∀ k, t.sr.get k = .selected) ∧ sel t.sr = .all ∧
    t.lines.cs = false ∧ t.lines.clk = false ∧
    t.trace = s.trace ++ [(.cs, false), (.clk, true), (.clk, false), (.clk, true), (.clk, false), (.clk, true),
      (.clk, false), (.clk, true), (.clk, false)] ∧ SelectFrame s t ∧
    (sel s.sr = .none → ∀ k, t.chips.get k = ⟨[], (s.chips.get k).frames⟩) ∧
    (NoFrameOpen s ∨ sel s.sr = .all → ∀ k, t.chips.get k = s.chips.get k)

/-- `SEL_ONE i` in range (R104): `13 + 2i` events, the select code of R76, and chip `i` alone selected. -/
def Obligations.SelOneSelectsOneChip : Prop :=
  ∀ (i : Fin 4) (s : State), ∃ t, exec (.selOne i.val) s = .next t ∧
    (∀ k, t.sr.get k = if k = i then .selected else .deselected) ∧ sel t.sr = .one i ∧
    t.lines.cs = true ∧ t.lines.clk = false ∧
    t.trace = s.trace ++ selectOneEvents i.val ∧ (selectOneEvents i.val).length = 13 + 2 * i.val ∧ SelectFrame s t

/-- `SEL_ONE i` out of range (R104, R181): the nine events of `SEL_NONE` and no more, no chip selected, and
`AddressingError(i[11:0])` raised, which keeps an earlier fault's code and operand and drops `BUSY`. -/
def Obligations.SelOneOutOfRangeFaults : Prop :=
  ∀ (i : Nat) (s : State), 4 ≤ i → ∃ t, exec (.selOne i) s = .next t ∧
    (∀ k, t.sr.get k = .deselected) ∧ sel t.sr = .none ∧ t.lines = { s.lines with cs := true, clk := false } ∧
    t.trace = s.trace ++ selectEvents true ∧ t.fault = true ∧ t.busy = false ∧
    t.faultCode = (if s.fault then s.faultCode else 1) ∧
    t.faultInfo = (if s.fault then s.faultInfo else BitVec.ofNat 12 i) ∧
    t = { s with lines := t.lines, sr := t.sr, traceRev := t.traceRev, chips := t.chips, fault := t.fault,
                 faultCode := t.faultCode, faultInfo := t.faultInfo, busy := t.busy } ∧ SamePixels s t

/-- Idempotent reset (R105): `SEL_ONE i` then `SEL_NONE` leaves the lines and the chain as `SEL_NONE` alone does, from any
state, for any `i`; both end with `CS` = 1, `CLK` = 0, `DATA` and `WR` untouched and every cell 0; the fault registers differ
only for `i` out of range. -/
def Obligations.SelectThenDeselectIsDeselect : Prop :=
  ∀ (i : Nat) (s : State), ∃ t u, execAll [.selOne i, .selNone] s = .next t ∧ exec .selNone s = .next u ∧
    t.lines = u.lines ∧ t.sr = u.sr ∧ u.lines = { s.lines with cs := true, clk := false } ∧
    (∀ k, u.sr.get k = .deselected) ∧
    (i < 4 → t.fault = u.fault ∧ t.faultCode = u.faultCode ∧ t.faultInfo = u.faultInfo) ∧
    t = { u with traceRev := t.traceRev, chips := t.chips, fault := t.fault, faultCode := t.faultCode,
                 faultInfo := t.faultInfo, busy := t.busy }

/-- Chip-select operations compose (R106): from any two states the same operation makes the same events, and it ends with no
chip, all chips or one chip selected. -/
def Obligations.SelectionEventsDependOnOperandOnly : Prop :=
  ∀ (i : Instr) (s s' : State), (i = .selNone ∨ i = .selAll ∨ ∃ n, i = .selOne n) →
    ∃ t t' events, exec i s = .next t ∧ exec i s' = .next t' ∧ t.trace = s.trace ++ events ∧
      t'.trace = s'.trace ++ events ∧ t.sr = t'.sr ∧ (sel t.sr = .none ∨ sel t.sr = .all ∨ ∃ k, sel t.sr = .one k)

/-- `SEL_NONE` and `SEL_ONE` end the frame of every selected chip, and the chips a flag passes record nothing (R60, R102,
R104). The premise is part of the invariant. -/
def Obligations.DeselectionEndsFrames : Prop :=
  ∀ (i : Nat) (s : State), ObserverLegal s → ∃ t u, exec .selNone s = .next t ∧ FramesEnd s t ∧
    exec (.selOne i) s = .next u ∧ FramesEnd s u

/-! ## The command serializer -/

/-- `WR_CMD c` (R77, R121), for any natural number `c`, of which the low twelve bits are sent: most significant first, 36
events. Which chips take the bits is R60's reading (log entry 12). -/
def Obligations.WrCmdSendsTheWord : Prop :=
  ∀ (c : Nat) (s : State), SendsCommand (.wrCmd c) (BitVec.ofNat 12 c) s ∧
    (bitEvents (commandFrame (BitVec.ofNat 12 c))).length = 36

/-- `writeCommand` (R123): for every `cmd` below 4096 exactly 12 cells, each one low to high strobe, the `n`-th carrying
`cmd[12 - n]`. -/
def Obligations.WrCmdEmitsTwelveBits : Prop :=
  ∀ (cmd : Nat) (s : State), cmd < 4096 → ∃ t, exec (.wrCmd cmd) s = .next t ∧
    t.trace = s.trace ++ ((List.range' 1 12).flatMap fun n =>
      [(Line.wr, false), (Line.data, cmd.testBit (12 - n)), (Line.wr, true)])

/-- The command rows of the table send their word (R77, R80): the thirteen fixed words, and the sixteen PWM words
`0x940 | (L << 1)`. That a row is run so is the model's choice (log entry 5). -/
def Obligations.CommandRowsSendTheirWord : Prop :=
  ∀ s : State,
    SendsCommand .sysDis 0x800 s ∧ SendsCommand .sysEn 0x802 s ∧ SendsCommand .ledOff 0x804 s ∧
    SendsCommand .ledOn 0x806 s ∧ SendsCommand .blinkOff 0x810 s ∧ SendsCommand .blinkOn 0x812 s ∧
    SendsCommand .slaveMode 0x820 s ∧ SendsCommand .rcMasterMode 0x830 s ∧ SendsCommand .extClkMasterMode 0x838 s ∧
    SendsCommand .comNmos8 0x840 s ∧ SendsCommand .comNmos16 0x848 s ∧ SendsCommand .comPmos8 0x850 s ∧
    SendsCommand .comPmos16 0x858 s ∧
    ∀ level : BitVec 4, SendsCommand (.pwmDuty level) (BitVec.ofNat 12 (0x940 + 2 * level.toNat)) s

/-- `BCAST_CMD c` (R122): 54 events, and a state that does not depend on the selection it started from. -/
def Obligations.BcastCmdSendsToAll : Prop :=
  ∀ (c : Nat) (s : State), ∃ t, exec (.bcastCmd c) s = .next t ∧ t.cmdsr = BitVec.ofNat 12 c ∧
    t.lines = ⟨false, true, c.testBit 0, true⟩ ∧ sel t.sr = .none ∧
    t.trace = s.trace ++ broadcastEvents (BitVec.ofNat 12 c) ∧ (broadcastEvents (BitVec.ofNat 12 c)).length = 54 ∧
    t = { s with lines := t.lines, cmdsr := t.cmdsr, sr := t.sr, traceRev := t.traceRev, chips := t.chips } ∧
    SamePixels s t

/-- The chips' side of `BCAST_CMD c` (R122): each records one frame, the twelve bits of `c`. -/
def Obligations.BcastCmdIsRecordedByAll : Prop :=
  ∀ (c : Nat) (s : State), NoFrameOpen s → ∃ t, exec (.bcastCmd c) s = .next t ∧
    ChipsRecord (fun _ => [commandFrame (BitVec.ofNat 12 c)]) s t

/-! ## The plane extractor and the data transmitter -/

/-- `EXTRACT r, q` (R140): every cell of both planes is the red or green bit of its pixel, 128 reads in column-major order,
no event, and nothing else changes. -/
def Obligations.ExtractReadsTheRectangle : Prop :=
  ∀ (r q : BitVec 1) (s : State), ∃ t, exec (.extract r q) s = .next t ∧
    (∀ k, k < 128 → t.red.getLsbD k = (pixelAt s (16 * q.toNat + k / 8) (8 * r.toNat + k % 8)).getLsbD 1 ∧
      t.green.getLsbD k = (pixelAt s (16 * q.toNat + k / 8) (8 * r.toNat + k % 8)).getLsbD 0) ∧
    t.planesValid = true ∧ t.pxTrace = s.pxTrace ++ rectangle r.toNat q.toNat ∧
    (rectangle r.toNat q.toNat).length = 128 ∧
    t = { s with red := t.red, green := t.green, planesValid := t.planesValid, pxTraceRev := t.pxTraceRev } ∧
    SamePixels s t

/-- The planes of a rectangle do not depend on pixels outside it, nor on what the planes held (R25, R140). -/
def Obligations.ExtractDependsOnItsRectangleOnly : Prop :=
  ∀ (r q : BitVec 1) (s s' : State),
    (∀ x y : Nat, 16 * q.toNat ≤ x → x < 16 * q.toNat + 16 → 8 * r.toNat ≤ y → y < 8 * r.toNat + 8 →
      pixelAt s' x y = pixelAt s x y) →
    ∃ t t', exec (.extract r q) s = .next t ∧ exec (.extract r q) s' = .next t' ∧ t.red = t'.red ∧ t.green = t'.green

/-- Cells and pixels correspond (R141): panel pixel `(x, y)` belongs to the chip at grid position `(y div 8, x div 16)` and to
cell `8 * (x mod 16) + (y mod 8)`; conversely cell `k` of a chip's planes holds the pixel at local column `k div 8`, local row
`k mod 8` of its rectangle. -/
def Obligations.CellsAndPixelsCorrespond : Prop :=
  ∀ s : State,
    (∀ x y : Nat, x < 32 → y < 16 → ∃ (c : Fin 4) (k : Nat),
      c.val = 2 * (y / 8) + x / 16 ∧ k = 8 * (x % 16) + y % 8 ∧ k < 128 ∧
      ((chipPos c).1.toNat, (chipPos c).2.toNat) = (y / 8, x / 16) ∧ k / 8 = x % 16 ∧ k % 8 = y % 8 ∧
      ∃ t, exec (.extract (chipPos c).1 (chipPos c).2) s = .next t ∧
        t.red.getLsbD k = (pixelAt s x y).getLsbD 1 ∧ t.green.getLsbD k = (pixelAt s x y).getLsbD 0) ∧
    (∀ (c : Fin 4) (k : Nat), k < 128 → ∃ t, exec (.extract (chipPos c).1 (chipPos c).2) s = .next t ∧
      t.red.getLsbD k = (pixelAt s (16 * (c.val % 2) + k / 8) (8 * (c.val / 2) + k % 8)).getLsbD 1 ∧
      t.green.getLsbD k = (pixelAt s (16 * (c.val % 2) + k / 8) (8 * (c.val / 2) + k % 8)).getLsbD 0)

/-- `WR_DATA` with valid planes (R78, R142): one data frame of 266 bit cells carrying `RED` and `GREEN` as R78 lays it out, which
the selected chips take; the planes are not consumed. Which chips take the bits is R60's reading (log entry 12). -/
def Obligations.WrDataSendsThePlanes : Prop :=
  ∀ s : State, s.planesValid = true → ∃ t frame, exec .wrData s = .next t ∧ frame.length = 266 ∧
    frame.take 10 = [true, false, true, false, false, false, false, false, false, false] ∧
    (∀ k, k < 128 → frame[10 + k]? = some (s.red.getLsbD k) ∧ frame[138 + k]? = some (s.green.getLsbD k)) ∧
    t.trace = s.trace ++ bitEvents frame ∧ (bitEvents frame).length = 798 ∧ t.lines.wr = true ∧
    t.lines.data = s.green.getLsbD 127 ∧
    ChipsTake frame s t ∧ SerialFrame s t ∧ t.cmdsr = s.cmdsr

/-- `WR_DATA` before any `EXTRACT` (R142, R183): `Uninitialised(1)`, no event, nothing else changed. -/
def Obligations.WrDataWithoutPlanesFaults : Prop :=
  ∀ s : State, s.planesValid = false → exec .wrData s = .next { s with
    fault := true
    faultCode := if s.fault then s.faultCode else 3
    faultInfo := if s.fault then s.faultInfo else 1
    busy := false }

/-- The data frame row (R78): the frame carries the two planes given, and loads no plane register (the model's choice, log
entry 15). -/
def Obligations.DataFrameRowSendsItsPlanes : Prop :=
  ∀ (red green : Plane) (s : State), ∃ t, exec (.dataFrame red green) s = .next t ∧
    t.trace = s.trace ++ bitEvents (dataFrame red.getLsbD green.getLsbD) ∧
    (bitEvents (dataFrame red.getLsbD green.getLsbD)).length = 798 ∧ t.lines.wr = true ∧
    t.lines.data = green.getLsbD 127 ∧ ChipsTake (dataFrame red.getLsbD green.getLsbD) s t ∧ SerialFrame s t ∧
    t.cmdsr = s.cmdsr

/-- The clear frame row (R79): 394 bit cells, the ten leading bits and 384 zeros (that a row is run so is the model's choice,
log entry 5). -/
def Obligations.ClearFrameRowSendsZeros : Prop :=
  ∀ s : State, ∃ t, exec .clearFrame s = .next t ∧
    t.trace = s.trace ++ bitEvents (leading ++ List.replicate 384 false) ∧
    (bitEvents (leading ++ List.replicate 384 false)).length = 1182 ∧ t.lines.wr = true ∧ t.lines.data = false ∧
    ChipsTake (leading ++ List.replicate 384 false) s t ∧ SerialFrame s t ∧ t.cmdsr = s.cmdsr

/-! ## The sequencer -/

/-- `BEGIN` with a valid intensity command (R160, R161): the seven broadcasts in their order, 378 events, each with its own
selection; every chip records the seven words. -/
def Obligations.BeginSendsSevenCommands : Prop :=
  ∀ s : State, s.icmdValid = true → ∃ t, exec .beginInit s = .next t ∧
    t.trace = s.trace ++ [0x800, 0x840, 0x830, 0x802, s.icmd, 0x810, 0x806].flatMap broadcastEvents ∧
    ((initWords s.icmd).flatMap broadcastEvents).length = 378 ∧ t.cmdsr = 0x806 ∧
    t.lines = ⟨false, true, false, true⟩ ∧ sel t.sr = .none ∧
    (NoFrameOpen s → ChipsRecord (fun _ => (initWords s.icmd).map commandFrame) s t) ∧
    t = { s with lines := t.lines, cmdsr := t.cmdsr, sr := t.sr, traceRev := t.traceRev, chips := t.chips } ∧
    SamePixels s t

/-- `BEGIN` before any `SET_INTENSITY` (R160, R183): `Uninitialised(0)`, no event, nothing else changed. -/
def Obligations.BeginWithoutIntensityFaults : Prop :=
  ∀ s : State, s.icmdValid = false → exec .beginInit s = .next { s with
    fault := true
    faultCode := if s.fault then s.faultCode else 3
    faultInfo := if s.fault then s.faultInfo else 0
    busy := false }

/-- `SET_INTENSITY l`, for any integer `l` (R162): `ICMD` is the word of the clamped level, it is valid, and `BEGIN` runs with
it. -/
def Obligations.SetIntensityStoresAndBegins : Prop :=
  ∀ (l : Int) (s : State), ∃ t, exec (.setIntensity l) s = .next t ∧
    t.icmd = levelWord (max 0 (min l 15)).toNat ∧ t.icmdValid = true ∧
    t.trace = s.trace ++ (initWords (levelWord (max 0 (min l 15)).toNat)).flatMap broadcastEvents ∧ t.cmdsr = 0x806 ∧
    t.lines = ⟨false, true, false, true⟩ ∧ sel t.sr = .none ∧
    (NoFrameOpen s →
      ChipsRecord (fun _ => (initWords (levelWord (max 0 (min l 15)).toNat)).map commandFrame) s t) ∧
    t = { s with lines := t.lines, cmdsr := t.cmdsr, icmd := t.icmd, icmdValid := t.icmdValid, sr := t.sr,
                 traceRev := t.traceRev, chips := t.chips } ∧ SamePixels s t

/-- `ICMD` for every level, as R163 tabulates it. -/
def Obligations.IntensityWordsAreTabulated : Prop :=
  ∀ (s : State) (level : Nat) (word : Command),
    (level, word) ∈ [(0, 0x940#12), (1, 0x942#12), (2, 0x944#12), (3, 0x946#12), (4, 0x948#12), (5, 0x94A#12),
      (6, 0x94C#12), (7, 0x94E#12), (8, 0x950#12), (9, 0x952#12), (10, 0x954#12), (11, 0x956#12), (12, 0x958#12),
      (13, 0x95A#12), (14, 0x95C#12), (15, 0x95E#12)] →
    ∃ t, exec (.setIntensity level) s = .next t ∧ t.icmd = word

/-- An intensity outside the range is clamped, silently (R162, R185): below 0 it is level 0, above 15 it is level 15, and no
fault is recorded. -/
def Obligations.IntensityIsClamped : Prop :=
  ∀ (l : Int) (s : State), (l < 0 → exec (.setIntensity l) s = exec (.setIntensity 0) s) ∧
    (15 < l → exec (.setIntensity l) s = exec (.setIntensity 15) s) ∧
    ∃ t, exec (.setIntensity l) s = .next t ∧ t.fault = s.fault ∧ t.faultCode = s.faultCode ∧ t.faultInfo = s.faultInfo

/-- `CLEAR` (R164): 1200 events; every chip records one frame of `1,0,1` and 391 zeros; the planes, `ICMD`, `CMDSR` and the
pixel space stay. -/
def Obligations.ClearZeroesEveryChip : Prop :=
  ∀ s : State, ∃ t, exec .clear s = .next t ∧
    t.trace = s.trace ++ selectEvents false ++ bitEvents ([true, false, true] ++ List.replicate 391 false) ++
      selectEvents true ∧
    t.lines = ⟨false, true, false, true⟩ ∧ sel t.sr = .none ∧
    (NoFrameOpen s → ChipsRecord (fun _ => [[true, false, true] ++ List.replicate 391 false]) s t) ∧
    t = { s with lines := t.lines, sr := t.sr, traceRev := t.traceRev, chips := t.chips } ∧ SamePixels s t

/-- `SHOW` (R166): `SYS_EN` to all, then for each chip in order its selection, the reads of its rectangle, its data frame and
a deselection; 512 reads; it cannot fault. -/
def Obligations.ShowSendsEveryRectangle : Prop :=
  ∀ s : State, ∃ t, exec .showFrame s = .next t ∧ t.trace = s.trace ++ showEvents s ∧
    t.pxTrace = s.pxTrace ++ rectangle 0 0 ++ rectangle 0 1 ++ rectangle 1 0 ++ rectangle 1 1 ∧
    t.lines = ⟨false, true, (pixelAt s 31 15).getLsbD 0, true⟩ ∧ sel t.sr = .none ∧ t.cmdsr = 0x802 ∧
    (∀ k, k < 128 → t.red.getLsbD k = redCell s 1 1 k ∧ t.green.getLsbD k = greenCell s 1 1 k) ∧ t.planesValid = true ∧
    t = { s with lines := t.lines, cmdsr := t.cmdsr, red := t.red, green := t.green, planesValid := t.planesValid,
                 sr := t.sr, traceRev := t.traceRev, pxTraceRev := t.pxTraceRev, chips := t.chips } ∧ SamePixels s t

/-- The chips' side of `SHOW` (R166): each records `0x802`, then its own rectangle's data frame and no other's. -/
def Obligations.ShowIsRecordedByEachChip : Prop :=
  ∀ s : State, NoFrameOpen s → ∃ t, exec .showFrame s = .next t ∧
    ChipsRecord (fun c => [commandFrame 0x802, chipFrame s c]) s t

/-- `SHOW` is idempotent (R166): a second `SHOW` over the same pixels makes the same events and reads again, and leaves every
engine register as the first did. -/
def Obligations.ShowRepeatsItself : Prop :=
  ∀ s : State, ∃ t u events reads, exec .showFrame s = .next t ∧ exec .showFrame t = .next u ∧
    t.trace = s.trace ++ events ∧ u.trace = t.trace ++ events ∧ t.pxTrace = s.pxTrace ++ reads ∧
    u.pxTrace = t.pxTrace ++ reads ∧
    u = { t with traceRev := u.traceRev, pxTraceRev := u.pxTraceRev, chips := u.chips }

/-- What lands in the chips' memory (R58): after `SHOW`, bit `j < 128` of chip `c`'s RAM is the red bit of the pixel at local
column `j div 8`, local row `j mod 8` of its rectangle, and bit `128 + j` the green bit of the same pixel; after `CLEAR`, from a
state with no frame open, the first 384 bits of every chip are 0. The RAM is the view of `FRAMES` of log entry 16. -/
def Obligations.FramesFillTheChips : Prop :=
  ∀ s : State,
    (∃ t, exec .showFrame s = .next t ∧ ∀ (c : Fin 4) (j : Nat), j < 128 →
      chipRam t c j = some (redCell s (gridOf c).1 (gridOf c).2 j) ∧
      chipRam t c (128 + j) = some (greenCell s (gridOf c).1 (gridOf c).2 j)) ∧
    (NoFrameOpen s → ∃ t, exec .clear s = .next t ∧ ∀ (c : Fin 4) (j : Nat), j < 384 → chipRam t c j = some false)

/-- `clear()` then `show()` on an all-BLACK panel (R144): the data frame of every chip is the ten leading bits and 256 zeros, on
the lines and, where no frame was open, at each chip. -/
def Obligations.BlackPanelSendsZeroPayloads : Prop :=
  ∀ s : State, (∀ x y : Nat, x < 32 → y < 16 → pixelAt s x y = 0) →
    ∃ t u, exec .clear s = .next t ∧ exec .showFrame t = .next u ∧
      u.trace = t.trace ++ broadcastEvents 0x802 ++ ([0, 1, 2, 3].flatMap fun c =>
        selectOneEvents c ++ bitEvents (leading ++ List.replicate 256 false) ++ selectEvents true) ∧
      (NoFrameOpen s →
        ChipsRecord (fun _ => [clearFrame, commandFrame 0x802, leading ++ List.replicate 256 false]) s u)

/-- A single coloured pixel at `(0,0)` (R143): chip 0's payload has the red bit at position 0 of the red part and the green bit
at position 0 of the green part, all else zero; the other chips' payloads are zero. -/
def Obligations.CornerPixelReachesPositionZero : Prop :=
  ∀ (s : State) (v : BitVec 2), pixelAt s 0 0 = v →
    (∀ x y : Nat, x < 32 → y < 16 → ¬ (x = 0 ∧ y = 0) → pixelAt s x y = 0) →
    ∃ t, exec .showFrame s = .next t ∧
      t.trace = s.trace ++ broadcastEvents 0x802 ++ ([0, 1, 2, 3].flatMap fun c =>
        selectOneEvents c ++ bitEvents (leading ++ cornerPayload v c) ++ selectEvents true) ∧
      (NoFrameOpen s → ChipsRecord (fun c => [commandFrame 0x802, leading ++ cornerPayload v c.val]) s t)

/-- Construction (R202): from reset, whatever the initial level, every chip records the seven commands with the intensity word
of the clamped level fifth, and no chip stays selected. -/
def Obligations.ConstructionSendsSevenCommands : Prop :=
  ∀ (l : Int) (s : State), Constructed l s → ∀ k : Fin 4,
    s.chips.get k = ⟨[], (initWords (levelWord (max 0 (min l 15)).toNat)).map commandFrame⟩ ∧ sel s.sr = .none ∧
      s.icmdValid = true ∧ s.fault = false

/-! ## The whole machine -/

/-- `FAULT` is never cleared by an operation, and the first fault's code and operand are kept (R184). -/
def Obligations.FirstFaultIsKept : Prop :=
  ∀ (i : Instr) (s t : State), exec i s = .next t → s.fault = true →
    t.fault = true ∧ t.faultCode = s.faultCode ∧ t.faultInfo = s.faultInfo

/-- No operation reads the fault registers (R32, R184): with them changed, everything else comes out the same. -/
def Obligations.FaultChangesNothingElse : Prop :=
  ∀ (i : Instr) (s : State) (f : Bool) (code : BitVec 2) (info : BitVec 12), ∃ t t', exec i s = .next t ∧
    exec i { s with fault := f, faultCode := code, faultInfo := info } = .next t' ∧
    t' = { t with fault := t'.fault, faultCode := t'.faultCode, faultInfo := t'.faultInfo }

/-- Who raises what (R180, R181, R183, R186): if an instruction run without a fault ends in one, it is `SEL_ONE` out of range
with code 1 and its index, `BEGIN` without a valid `ICMD` with code 3 and 0, or `WR_DATA` without valid planes with code 3
and 1. -/
def Obligations.OnlyThreeInstructionsFault : Prop :=
  ∀ (i : Instr) (s t : State), exec i s = .next t → s.fault = false → t.fault = true →
    (∃ n, i = .selOne n ∧ 4 ≤ n ∧ t.faultCode = 1 ∧ t.faultInfo = BitVec.ofNat 12 n) ∨
    (i = .beginInit ∧ s.icmdValid = false ∧ t.faultCode = 3 ∧ t.faultInfo = 0) ∨
    (i = .wrData ∧ s.planesValid = false ∧ t.faultCode = 3 ∧ t.faultInfo = 1)

/-- Registers have their writers (R28, R33, R39): `ICMD` only `SET_INTENSITY`; the planes and `PXTRACE` only `EXTRACT` and
`SHOW`; `CMDSR` only the operations that send a command; a line and `TRACE` only the operations that may drive; `SR` only those
that may drive `CLK`; the observer only those that drive; the fault registers and `BUSY` only the three that can raise; no
instruction writes the pixel space, the request registers, `UPC` or the host's moves. The wire rows are among the instructions
(log entry 5). -/
def Obligations.RegistersHaveTheirWriters : Prop :=
  ∀ (i : Instr) (s t : State), exec i s = .next t →
    ((∀ l, i ≠ .setIntensity l) → t.icmd = s.icmd ∧ t.icmdValid = s.icmdValid) ∧
    ((∀ r q, i ≠ .extract r q) → i ≠ .showFrame →
      t.red = s.red ∧ t.green = s.green ∧ t.planesValid = s.planesValid ∧ t.pxTrace = s.pxTrace) ∧
    (loadsCmdsr i = false → t.cmdsr = s.cmdsr) ∧
    (∀ l, mayDrive i l = false → t.lines.get l = s.lines.get l) ∧
    (mayDrive i .clk = false → t.sr = s.sr) ∧
    ((∀ l, mayDrive i l = false) → t.trace = s.trace ∧ t.chips = s.chips) ∧
    ((∀ n, i ≠ .selOne n) → i ≠ .wrData → i ≠ .beginInit →
      t.fault = s.fault ∧ t.faultCode = s.faultCode ∧ t.faultInfo = s.faultInfo ∧ t.busy = s.busy) ∧
    t.op = s.op ∧ t.arg = s.arg ∧ t.upc = s.upc ∧ t.host = s.host ∧ SamePixels s t

/-- A host that keeps the duties of R208 sends whole rows of the table only: if the state agrees with what the host has done
and the instruction is one that R208 allows next, then the state it leaves agrees again, every frame recorded being a command
of the table, a data frame or a clear frame. The duties are read as log entry 20 says, the observer as log entry 12. -/
def Obligations.DisciplinedUseSendsWholeRows : Prop :=
  ∀ (i : Instr) (u : HostUse) (s t : State),
    Tracks u s → u.allows i = true → exec i s = .next t → Tracks (u.after i) t

/-- Lines have their drivers (R22): `CS` and `CLK` are driven only by selections and what contains them, `DATA` and `WR` only
by transfers and what contains them, and `EXTRACT` drives nothing. That the wire rows are transfers too is the model's choice
(log entry 5). -/
def Obligations.LinesHaveTheirDrivers : Prop :=
  ∀ (i : Instr) (s : State), ∃ t events, exec i s = .next t ∧ t.trace = s.trace ++ events ∧
    ∀ e ∈ events, mayDrive i e.1 = true

/-- The event counts of R211. -/
def Obligations.EventCountsAreTabulated : Prop :=
  ∀ s : State,
    HasCounts .selNone s ⟨1, 8, 0, 0, 0, 0⟩ ∧ HasCounts .selAll s ⟨1, 8, 0, 0, 0, 0⟩ ∧
    (∀ i, i < 4 → HasCounts (.selOne i) s ⟨3, 10 + 2 * i, 0, 0, 0, 0⟩) ∧
    (∀ i, 4 ≤ i → HasCounts (.selOne i) s ⟨1, 8, 0, 0, 0, 0⟩) ∧
    (∀ c, HasCounts (.wrCmd c) s ⟨0, 0, 24, 12, 12, 0⟩) ∧ (∀ c, HasCounts (.bcastCmd c) s ⟨2, 16, 24, 12, 12, 0⟩) ∧
    (∀ r q, HasCounts (.extract r q) s ⟨0, 0, 0, 0, 0, 128⟩) ∧
    (s.planesValid = true → HasCounts .wrData s ⟨0, 0, 532, 266, 266, 0⟩) ∧
    (s.icmdValid = true → HasCounts .beginInit s ⟨14, 112, 168, 84, 84, 0⟩) ∧
    (∀ l, HasCounts (.setIntensity l) s ⟨14, 112, 168, 84, 84, 0⟩) ∧ HasCounts .clear s ⟨2, 16, 788, 394, 394, 0⟩ ∧
    HasCounts .showFrame s ⟨18, 100, 2152, 1076, 1076, 512⟩

/-- `X` is never produced (R27): from a chain with no unknown cell, no instruction makes one. -/
def Obligations.UnknownIsNeverProduced : Prop :=
  ∀ (i : Instr) (s t : State), exec i s = .next t → (∀ k, s.sr.get k ≠ .unknown) → ∀ k, t.sr.get k ≠ .unknown

/-- Composites are their expansions (R86): run in order, the parts leave the same state, events and reads included. -/
def Obligations.CompositesAreTheirExpansions : Prop :=
  ∀ s : State,
    (∀ c, exec (.bcastCmd c) s = execAll [.selAll, .wrCmd c, .selNone] s) ∧
    (s.icmdValid = true → exec .beginInit s =
      execAll [.bcastCmd 0x800, .bcastCmd 0x840, .bcastCmd 0x830, .bcastCmd 0x802, .bcastCmd s.icmd.toNat,
        .bcastCmd 0x810, .bcastCmd 0x806] s) ∧
    (∀ l, exec (.setIntensity l) s =
      exec .beginInit { s with icmd := levelWord (max 0 (min l 15)).toNat, icmdValid := true }) ∧
    (∃ t, exec .selAll s = .next t ∧
      exec .clear s = exec .selNone (wrBits (List.replicate 384 false)
        (wrBits (List.replicate 7 false) (wrBit true (wrBit false (wrBit true t)))))) ∧
    exec .showFrame s = execAll [.bcastCmd 0x802,
      .selOne 0, .extract 0 0, .wrData, .selNone, .selOne 1, .extract 0 1, .wrData, .selNone,
      .selOne 2, .extract 1 0, .wrData, .selNone, .selOne 3, .extract 1 1, .wrData, .selNone] s

/-- The engine one micro-operation at a time comes to the same state as the step that runs a request whole (R31): acceptance
and then every micro-operation of the expansion up to the last performed. -/
def Obligations.MicroStepsComposeToTheStep : Prop :=
  ∀ (s : State) (w : RequestWord) (rest : List HostMove) (i : Instr),
    s.busy = false → s.host = .present (.request w) :: rest → decodeRequest w = some i →
    microRun (lastMicro i s + 2) s = step s ∧ ∃ t, step s = .next t ∧ t.busy = false

/-- Every expansion fits the counter (R30): at most 3867 micro-operations, and `SHOW` has exactly 3346 drives, 512 pixel reads,
one load of `CMDSR`, four index checks and four validity checks. -/
def Obligations.ExpansionsFitTheCounter : Prop :=
  (∀ i : Instr, (expansion i).length ≤ 3867) ∧
    (expansion .showFrame).length = 3867 ∧
    (expansion .showFrame).countP (fun m => match m with | .drive _ _ => true | _ => false) = 3346 ∧
    (expansion .showFrame).countP (fun m => match m with | .read _ _ _ _ => true | _ => false) = 512 ∧
    (expansion .showFrame).countP (fun m => match m with | .load _ => true | _ => false) = 1 ∧
    (expansion .showFrame).countP (fun m => match m with | .checkIndex _ => true | _ => false) = 4 ∧
    (expansion .showFrame).countP (fun m => match m with | .checkPlanes => true | _ => false) = 4
end

