-- ==== Sys2Proof/Laws/State.lean ====
section
/-! SUPPORT. One lemma per field per named update of State, each by rfl, so that no later proof unfolds an update. -/

namespace Sys2Proof.Machine

section
variable (s : State)

@[simp] theorem setLine_lines (l : Line) (v : Level) : (setLine l v s).lines = s.lines.set l v := rfl
@[simp] theorem setLine_cmdsr (l : Line) (v : Level) : (setLine l v s).cmdsr = s.cmdsr := rfl
@[simp] theorem setLine_red (l : Line) (v : Level) : (setLine l v s).red = s.red := rfl
@[simp] theorem setLine_green (l : Line) (v : Level) : (setLine l v s).green = s.green := rfl
@[simp] theorem setLine_planesValid (l : Line) (v : Level) : (setLine l v s).planesValid = s.planesValid := rfl
@[simp] theorem setLine_icmd (l : Line) (v : Level) : (setLine l v s).icmd = s.icmd := rfl
@[simp] theorem setLine_icmdValid (l : Line) (v : Level) : (setLine l v s).icmdValid = s.icmdValid := rfl
@[simp] theorem setLine_sr (l : Line) (v : Level) : (setLine l v s).sr = s.sr := rfl
@[simp] theorem setLine_fault (l : Line) (v : Level) : (setLine l v s).fault = s.fault := rfl
@[simp] theorem setLine_faultCode (l : Line) (v : Level) : (setLine l v s).faultCode = s.faultCode := rfl
@[simp] theorem setLine_faultInfo (l : Line) (v : Level) : (setLine l v s).faultInfo = s.faultInfo := rfl
@[simp] theorem setLine_busy (l : Line) (v : Level) : (setLine l v s).busy = s.busy := rfl
@[simp] theorem setLine_op (l : Line) (v : Level) : (setLine l v s).op = s.op := rfl
@[simp] theorem setLine_arg (l : Line) (v : Level) : (setLine l v s).arg = s.arg := rfl
@[simp] theorem setLine_upc (l : Line) (v : Level) : (setLine l v s).upc = s.upc := rfl
@[simp] theorem setLine_traceRev (l : Line) (v : Level) : (setLine l v s).traceRev = (l, v) :: s.traceRev := rfl
@[simp] theorem setLine_pxTraceRev (l : Line) (v : Level) : (setLine l v s).pxTraceRev = s.pxTraceRev := rfl
@[simp] theorem setLine_chips (l : Line) (v : Level) : (setLine l v s).chips = s.chips := rfl
@[simp] theorem setLine_pixels (l : Line) (v : Level) : (setLine l v s).pixels = s.pixels := rfl
@[simp] theorem setLine_host (l : Line) (v : Level) : (setLine l v s).host = s.host := rfl

@[simp] theorem recordRead_lines (x y : Nat) : (recordRead x y s).lines = s.lines := rfl
@[simp] theorem recordRead_cmdsr (x y : Nat) : (recordRead x y s).cmdsr = s.cmdsr := rfl
@[simp] theorem recordRead_red (x y : Nat) : (recordRead x y s).red = s.red := rfl
@[simp] theorem recordRead_green (x y : Nat) : (recordRead x y s).green = s.green := rfl
@[simp] theorem recordRead_planesValid (x y : Nat) : (recordRead x y s).planesValid = s.planesValid := rfl
@[simp] theorem recordRead_icmd (x y : Nat) : (recordRead x y s).icmd = s.icmd := rfl
@[simp] theorem recordRead_icmdValid (x y : Nat) : (recordRead x y s).icmdValid = s.icmdValid := rfl
@[simp] theorem recordRead_sr (x y : Nat) : (recordRead x y s).sr = s.sr := rfl
@[simp] theorem recordRead_fault (x y : Nat) : (recordRead x y s).fault = s.fault := rfl
@[simp] theorem recordRead_faultCode (x y : Nat) : (recordRead x y s).faultCode = s.faultCode := rfl
@[simp] theorem recordRead_faultInfo (x y : Nat) : (recordRead x y s).faultInfo = s.faultInfo := rfl
@[simp] theorem recordRead_busy (x y : Nat) : (recordRead x y s).busy = s.busy := rfl
@[simp] theorem recordRead_op (x y : Nat) : (recordRead x y s).op = s.op := rfl
@[simp] theorem recordRead_arg (x y : Nat) : (recordRead x y s).arg = s.arg := rfl
@[simp] theorem recordRead_upc (x y : Nat) : (recordRead x y s).upc = s.upc := rfl
@[simp] theorem recordRead_traceRev (x y : Nat) : (recordRead x y s).traceRev = s.traceRev := rfl
@[simp] theorem recordRead_pxTraceRev (x y : Nat) : (recordRead x y s).pxTraceRev = (x, y) :: s.pxTraceRev := rfl
@[simp] theorem recordRead_chips (x y : Nat) : (recordRead x y s).chips = s.chips := rfl
@[simp] theorem recordRead_pixels (x y : Nat) : (recordRead x y s).pixels = s.pixels := rfl
@[simp] theorem recordRead_host (x y : Nat) : (recordRead x y s).host = s.host := rfl

@[simp] theorem writePixel_lines (x : BitVec 5) (y : BitVec 4) (v : BitVec 2) : (writePixel x y v s).lines = s.lines := rfl
@[simp] theorem writePixel_cmdsr (x : BitVec 5) (y : BitVec 4) (v : BitVec 2) : (writePixel x y v s).cmdsr = s.cmdsr := rfl
@[simp] theorem writePixel_red (x : BitVec 5) (y : BitVec 4) (v : BitVec 2) : (writePixel x y v s).red = s.red := rfl
@[simp] theorem writePixel_green (x : BitVec 5) (y : BitVec 4) (v : BitVec 2) : (writePixel x y v s).green = s.green := rfl
@[simp] theorem writePixel_planesValid (x : BitVec 5) (y : BitVec 4) (v : BitVec 2) : (writePixel x y v s).planesValid = s.planesValid := rfl
@[simp] theorem writePixel_icmd (x : BitVec 5) (y : BitVec 4) (v : BitVec 2) : (writePixel x y v s).icmd = s.icmd := rfl
@[simp] theorem writePixel_icmdValid (x : BitVec 5) (y : BitVec 4) (v : BitVec 2) : (writePixel x y v s).icmdValid = s.icmdValid := rfl
@[simp] theorem writePixel_sr (x : BitVec 5) (y : BitVec 4) (v : BitVec 2) : (writePixel x y v s).sr = s.sr := rfl
@[simp] theorem writePixel_fault (x : BitVec 5) (y : BitVec 4) (v : BitVec 2) : (writePixel x y v s).fault = s.fault := rfl
@[simp] theorem writePixel_faultCode (x : BitVec 5) (y : BitVec 4) (v : BitVec 2) : (writePixel x y v s).faultCode = s.faultCode := rfl
@[simp] theorem writePixel_faultInfo (x : BitVec 5) (y : BitVec 4) (v : BitVec 2) : (writePixel x y v s).faultInfo = s.faultInfo := rfl
@[simp] theorem writePixel_busy (x : BitVec 5) (y : BitVec 4) (v : BitVec 2) : (writePixel x y v s).busy = s.busy := rfl
@[simp] theorem writePixel_op (x : BitVec 5) (y : BitVec 4) (v : BitVec 2) : (writePixel x y v s).op = s.op := rfl
@[simp] theorem writePixel_arg (x : BitVec 5) (y : BitVec 4) (v : BitVec 2) : (writePixel x y v s).arg = s.arg := rfl
@[simp] theorem writePixel_upc (x : BitVec 5) (y : BitVec 4) (v : BitVec 2) : (writePixel x y v s).upc = s.upc := rfl
@[simp] theorem writePixel_traceRev (x : BitVec 5) (y : BitVec 4) (v : BitVec 2) : (writePixel x y v s).traceRev = s.traceRev := rfl
@[simp] theorem writePixel_pxTraceRev (x : BitVec 5) (y : BitVec 4) (v : BitVec 2) : (writePixel x y v s).pxTraceRev = s.pxTraceRev := rfl
@[simp] theorem writePixel_chips (x : BitVec 5) (y : BitVec 4) (v : BitVec 2) : (writePixel x y v s).chips = s.chips := rfl
@[simp] theorem writePixel_pixels (x : BitVec 5) (y : BitVec 4) (v : BitVec 2) : (writePixel x y v s).pixels = s.pixels.write (pixelAddress x.toNat y.toNat) (v.setWidth 8) := rfl
@[simp] theorem writePixel_host (x : BitVec 5) (y : BitVec 4) (v : BitVec 2) : (writePixel x y v s).host = s.host := rfl

@[simp] theorem chainShift_lines : (chainShift s).lines = s.lines := rfl
@[simp] theorem chainShift_cmdsr : (chainShift s).cmdsr = s.cmdsr := rfl
@[simp] theorem chainShift_red : (chainShift s).red = s.red := rfl
@[simp] theorem chainShift_green : (chainShift s).green = s.green := rfl
@[simp] theorem chainShift_planesValid : (chainShift s).planesValid = s.planesValid := rfl
@[simp] theorem chainShift_icmd : (chainShift s).icmd = s.icmd := rfl
@[simp] theorem chainShift_icmdValid : (chainShift s).icmdValid = s.icmdValid := rfl
@[simp] theorem chainShift_sr : (chainShift s).sr = shiftIn (csFlag s.lines.cs) s.sr := rfl
@[simp] theorem chainShift_fault : (chainShift s).fault = s.fault := rfl
@[simp] theorem chainShift_faultCode : (chainShift s).faultCode = s.faultCode := rfl
@[simp] theorem chainShift_faultInfo : (chainShift s).faultInfo = s.faultInfo := rfl
@[simp] theorem chainShift_busy : (chainShift s).busy = s.busy := rfl
@[simp] theorem chainShift_op : (chainShift s).op = s.op := rfl
@[simp] theorem chainShift_arg : (chainShift s).arg = s.arg := rfl
@[simp] theorem chainShift_upc : (chainShift s).upc = s.upc := rfl
@[simp] theorem chainShift_traceRev : (chainShift s).traceRev = s.traceRev := rfl
@[simp] theorem chainShift_pxTraceRev : (chainShift s).pxTraceRev = s.pxTraceRev := rfl
@[simp] theorem chainShift_chips : (chainShift s).chips = observeShift s.sr (shiftIn (csFlag s.lines.cs) s.sr) s.chips := rfl
@[simp] theorem chainShift_pixels : (chainShift s).pixels = s.pixels := rfl
@[simp] theorem chainShift_host : (chainShift s).host = s.host := rfl

@[simp] theorem sampleData_lines : (sampleData s).lines = s.lines := rfl
@[simp] theorem sampleData_cmdsr : (sampleData s).cmdsr = s.cmdsr := rfl
@[simp] theorem sampleData_red : (sampleData s).red = s.red := rfl
@[simp] theorem sampleData_green : (sampleData s).green = s.green := rfl
@[simp] theorem sampleData_planesValid : (sampleData s).planesValid = s.planesValid := rfl
@[simp] theorem sampleData_icmd : (sampleData s).icmd = s.icmd := rfl
@[simp] theorem sampleData_icmdValid : (sampleData s).icmdValid = s.icmdValid := rfl
@[simp] theorem sampleData_sr : (sampleData s).sr = s.sr := rfl
@[simp] theorem sampleData_fault : (sampleData s).fault = s.fault := rfl
@[simp] theorem sampleData_faultCode : (sampleData s).faultCode = s.faultCode := rfl
@[simp] theorem sampleData_faultInfo : (sampleData s).faultInfo = s.faultInfo := rfl
@[simp] theorem sampleData_busy : (sampleData s).busy = s.busy := rfl
@[simp] theorem sampleData_op : (sampleData s).op = s.op := rfl
@[simp] theorem sampleData_arg : (sampleData s).arg = s.arg := rfl
@[simp] theorem sampleData_upc : (sampleData s).upc = s.upc := rfl
@[simp] theorem sampleData_traceRev : (sampleData s).traceRev = s.traceRev := rfl
@[simp] theorem sampleData_pxTraceRev : (sampleData s).pxTraceRev = s.pxTraceRev := rfl
@[simp] theorem sampleData_chips : (sampleData s).chips = PerChip.zipWith (Received.sample s.lines.data) s.sr s.chips := rfl
@[simp] theorem sampleData_pixels : (sampleData s).pixels = s.pixels := rfl
@[simp] theorem sampleData_host : (sampleData s).host = s.host := rfl

@[simp] theorem raise_lines (f : EngineFault) (info : BitVec 12) : (raise f info s).lines = s.lines := rfl
@[simp] theorem raise_cmdsr (f : EngineFault) (info : BitVec 12) : (raise f info s).cmdsr = s.cmdsr := rfl
@[simp] theorem raise_red (f : EngineFault) (info : BitVec 12) : (raise f info s).red = s.red := rfl
@[simp] theorem raise_green (f : EngineFault) (info : BitVec 12) : (raise f info s).green = s.green := rfl
@[simp] theorem raise_planesValid (f : EngineFault) (info : BitVec 12) : (raise f info s).planesValid = s.planesValid := rfl
@[simp] theorem raise_icmd (f : EngineFault) (info : BitVec 12) : (raise f info s).icmd = s.icmd := rfl
@[simp] theorem raise_icmdValid (f : EngineFault) (info : BitVec 12) : (raise f info s).icmdValid = s.icmdValid := rfl
@[simp] theorem raise_sr (f : EngineFault) (info : BitVec 12) : (raise f info s).sr = s.sr := rfl
@[simp] theorem raise_fault (f : EngineFault) (info : BitVec 12) : (raise f info s).fault = true := rfl
@[simp] theorem raise_faultCode (f : EngineFault) (info : BitVec 12) : (raise f info s).faultCode = if s.fault then s.faultCode else f.code := rfl
@[simp] theorem raise_faultInfo (f : EngineFault) (info : BitVec 12) : (raise f info s).faultInfo = if s.fault then s.faultInfo else info := rfl
@[simp] theorem raise_busy (f : EngineFault) (info : BitVec 12) : (raise f info s).busy = false := rfl
@[simp] theorem raise_op (f : EngineFault) (info : BitVec 12) : (raise f info s).op = s.op := rfl
@[simp] theorem raise_arg (f : EngineFault) (info : BitVec 12) : (raise f info s).arg = s.arg := rfl
@[simp] theorem raise_upc (f : EngineFault) (info : BitVec 12) : (raise f info s).upc = s.upc := rfl
@[simp] theorem raise_traceRev (f : EngineFault) (info : BitVec 12) : (raise f info s).traceRev = s.traceRev := rfl
@[simp] theorem raise_pxTraceRev (f : EngineFault) (info : BitVec 12) : (raise f info s).pxTraceRev = s.pxTraceRev := rfl
@[simp] theorem raise_chips (f : EngineFault) (info : BitVec 12) : (raise f info s).chips = s.chips := rfl
@[simp] theorem raise_pixels (f : EngineFault) (info : BitVec 12) : (raise f info s).pixels = s.pixels := rfl
@[simp] theorem raise_host (f : EngineFault) (info : BitVec 12) : (raise f info s).host = s.host := rfl

@[simp] theorem accept_lines (w : RequestWord) : (accept w s).lines = s.lines := rfl
@[simp] theorem accept_cmdsr (w : RequestWord) : (accept w s).cmdsr = s.cmdsr := rfl
@[simp] theorem accept_red (w : RequestWord) : (accept w s).red = s.red := rfl
@[simp] theorem accept_green (w : RequestWord) : (accept w s).green = s.green := rfl
@[simp] theorem accept_planesValid (w : RequestWord) : (accept w s).planesValid = s.planesValid := rfl
@[simp] theorem accept_icmd (w : RequestWord) : (accept w s).icmd = s.icmd := rfl
@[simp] theorem accept_icmdValid (w : RequestWord) : (accept w s).icmdValid = s.icmdValid := rfl
@[simp] theorem accept_sr (w : RequestWord) : (accept w s).sr = s.sr := rfl
@[simp] theorem accept_fault (w : RequestWord) : (accept w s).fault = s.fault := rfl
@[simp] theorem accept_faultCode (w : RequestWord) : (accept w s).faultCode = s.faultCode := rfl
@[simp] theorem accept_faultInfo (w : RequestWord) : (accept w s).faultInfo = s.faultInfo := rfl
@[simp] theorem accept_busy (w : RequestWord) : (accept w s).busy = true := rfl
@[simp] theorem accept_op (w : RequestWord) : (accept w s).op = w.extractLsb' 12 4 := rfl
@[simp] theorem accept_arg (w : RequestWord) : (accept w s).arg = w.extractLsb' 0 12 := rfl
@[simp] theorem accept_upc (w : RequestWord) : (accept w s).upc = 0 := rfl
@[simp] theorem accept_traceRev (w : RequestWord) : (accept w s).traceRev = s.traceRev := rfl
@[simp] theorem accept_pxTraceRev (w : RequestWord) : (accept w s).pxTraceRev = s.pxTraceRev := rfl
@[simp] theorem accept_chips (w : RequestWord) : (accept w s).chips = s.chips := rfl
@[simp] theorem accept_pixels (w : RequestWord) : (accept w s).pixels = s.pixels := rfl
@[simp] theorem accept_host (w : RequestWord) : (accept w s).host = s.host := rfl

@[simp] theorem retire_lines (last : Nat) : (retire last s).lines = s.lines := rfl
@[simp] theorem retire_cmdsr (last : Nat) : (retire last s).cmdsr = s.cmdsr := rfl
@[simp] theorem retire_red (last : Nat) : (retire last s).red = s.red := rfl
@[simp] theorem retire_green (last : Nat) : (retire last s).green = s.green := rfl
@[simp] theorem retire_planesValid (last : Nat) : (retire last s).planesValid = s.planesValid := rfl
@[simp] theorem retire_icmd (last : Nat) : (retire last s).icmd = s.icmd := rfl
@[simp] theorem retire_icmdValid (last : Nat) : (retire last s).icmdValid = s.icmdValid := rfl
@[simp] theorem retire_sr (last : Nat) : (retire last s).sr = s.sr := rfl
@[simp] theorem retire_fault (last : Nat) : (retire last s).fault = s.fault := rfl
@[simp] theorem retire_faultCode (last : Nat) : (retire last s).faultCode = s.faultCode := rfl
@[simp] theorem retire_faultInfo (last : Nat) : (retire last s).faultInfo = s.faultInfo := rfl
@[simp] theorem retire_busy (last : Nat) : (retire last s).busy = false := rfl
@[simp] theorem retire_op (last : Nat) : (retire last s).op = s.op := rfl
@[simp] theorem retire_arg (last : Nat) : (retire last s).arg = s.arg := rfl
@[simp] theorem retire_upc (last : Nat) : (retire last s).upc = BitVec.ofNat 12 last := rfl
@[simp] theorem retire_traceRev (last : Nat) : (retire last s).traceRev = s.traceRev := rfl
@[simp] theorem retire_pxTraceRev (last : Nat) : (retire last s).pxTraceRev = s.pxTraceRev := rfl
@[simp] theorem retire_chips (last : Nat) : (retire last s).chips = s.chips := rfl
@[simp] theorem retire_pixels (last : Nat) : (retire last s).pixels = s.pixels := rfl
@[simp] theorem retire_host (last : Nat) : (retire last s).host = s.host := rfl

@[simp] theorem presentNext_lines (p : Presented) : (presentNext p s).lines = s.lines := rfl
@[simp] theorem presentNext_cmdsr (p : Presented) : (presentNext p s).cmdsr = s.cmdsr := rfl
@[simp] theorem presentNext_red (p : Presented) : (presentNext p s).red = s.red := rfl
@[simp] theorem presentNext_green (p : Presented) : (presentNext p s).green = s.green := rfl
@[simp] theorem presentNext_planesValid (p : Presented) : (presentNext p s).planesValid = s.planesValid := rfl
@[simp] theorem presentNext_icmd (p : Presented) : (presentNext p s).icmd = s.icmd := rfl
@[simp] theorem presentNext_icmdValid (p : Presented) : (presentNext p s).icmdValid = s.icmdValid := rfl
@[simp] theorem presentNext_sr (p : Presented) : (presentNext p s).sr = s.sr := rfl
@[simp] theorem presentNext_fault (p : Presented) : (presentNext p s).fault = s.fault := rfl
@[simp] theorem presentNext_faultCode (p : Presented) : (presentNext p s).faultCode = s.faultCode := rfl
@[simp] theorem presentNext_faultInfo (p : Presented) : (presentNext p s).faultInfo = s.faultInfo := rfl
@[simp] theorem presentNext_busy (p : Presented) : (presentNext p s).busy = false := rfl
@[simp] theorem presentNext_op (p : Presented) : (presentNext p s).op = s.op := rfl
@[simp] theorem presentNext_arg (p : Presented) : (presentNext p s).arg = s.arg := rfl
@[simp] theorem presentNext_upc (p : Presented) : (presentNext p s).upc = s.upc := rfl
@[simp] theorem presentNext_traceRev (p : Presented) : (presentNext p s).traceRev = s.traceRev := rfl
@[simp] theorem presentNext_pxTraceRev (p : Presented) : (presentNext p s).pxTraceRev = s.pxTraceRev := rfl
@[simp] theorem presentNext_chips (p : Presented) : (presentNext p s).chips = s.chips := rfl
@[simp] theorem presentNext_pixels (p : Presented) : (presentNext p s).pixels = s.pixels := rfl
@[simp] theorem presentNext_host (p : Presented) : (presentNext p s).host = .present p :: s.host := rfl

@[simp] theorem resetEngine_lines : (resetEngine s).lines = ⟨config.clkIdle, config.csDeselectLevel, false, config.wrIdle⟩ := rfl
@[simp] theorem resetEngine_cmdsr : (resetEngine s).cmdsr = 0 := rfl
@[simp] theorem resetEngine_red : (resetEngine s).red = 0 := rfl
@[simp] theorem resetEngine_green : (resetEngine s).green = 0 := rfl
@[simp] theorem resetEngine_planesValid : (resetEngine s).planesValid = false := rfl
@[simp] theorem resetEngine_icmd : (resetEngine s).icmd = 0 := rfl
@[simp] theorem resetEngine_icmdValid : (resetEngine s).icmdValid = false := rfl
@[simp] theorem resetEngine_sr : (resetEngine s).sr = PerChip.const .unknown := rfl
@[simp] theorem resetEngine_fault : (resetEngine s).fault = false := rfl
@[simp] theorem resetEngine_faultCode : (resetEngine s).faultCode = 0 := rfl
@[simp] theorem resetEngine_faultInfo : (resetEngine s).faultInfo = 0 := rfl
@[simp] theorem resetEngine_busy : (resetEngine s).busy = false := rfl
@[simp] theorem resetEngine_op : (resetEngine s).op = 0 := rfl
@[simp] theorem resetEngine_arg : (resetEngine s).arg = 0 := rfl
@[simp] theorem resetEngine_upc : (resetEngine s).upc = 0 := rfl
@[simp] theorem resetEngine_traceRev : (resetEngine s).traceRev = [] := rfl
@[simp] theorem resetEngine_pxTraceRev : (resetEngine s).pxTraceRev = [] := rfl
@[simp] theorem resetEngine_chips : (resetEngine s).chips = PerChip.const ⟨[], []⟩ := rfl
@[simp] theorem resetEngine_pixels : (resetEngine s).pixels = s.pixels := rfl
@[simp] theorem resetEngine_host : (resetEngine s).host = s.host := rfl

end

/-! Line latches. -/

section
variable (ls : Lines) (v : Level)

@[simp] theorem Lines.set_clk_clk : (ls.set .clk v).clk = v := rfl
@[simp] theorem Lines.set_clk_cs : (ls.set .clk v).cs = ls.cs := rfl
@[simp] theorem Lines.set_clk_data : (ls.set .clk v).data = ls.data := rfl
@[simp] theorem Lines.set_clk_wr : (ls.set .clk v).wr = ls.wr := rfl
@[simp] theorem Lines.set_cs_clk : (ls.set .cs v).clk = ls.clk := rfl
@[simp] theorem Lines.set_cs_cs : (ls.set .cs v).cs = v := rfl
@[simp] theorem Lines.set_cs_data : (ls.set .cs v).data = ls.data := rfl
@[simp] theorem Lines.set_cs_wr : (ls.set .cs v).wr = ls.wr := rfl
@[simp] theorem Lines.set_data_clk : (ls.set .data v).clk = ls.clk := rfl
@[simp] theorem Lines.set_data_cs : (ls.set .data v).cs = ls.cs := rfl
@[simp] theorem Lines.set_data_data : (ls.set .data v).data = v := rfl
@[simp] theorem Lines.set_data_wr : (ls.set .data v).wr = ls.wr := rfl
@[simp] theorem Lines.set_wr_clk : (ls.set .wr v).clk = ls.clk := rfl
@[simp] theorem Lines.set_wr_cs : (ls.set .wr v).cs = ls.cs := rfl
@[simp] theorem Lines.set_wr_data : (ls.set .wr v).data = ls.data := rfl
@[simp] theorem Lines.set_wr_wr : (ls.set .wr v).wr = v := rfl

end

/-! The two lists kept newest first. -/

@[simp] theorem trace_setLine (l : Line) (v : Level) (s : State) : (setLine l v s).trace = s.trace ++ [(l, v)] := by
  simp [State.trace]

@[simp] theorem pxTrace_recordRead (x y : Nat) (s : State) : (recordRead x y s).pxTrace = s.pxTrace ++ [(x, y)] := by
  simp [State.pxTrace]

/-! Per-chip families. -/

section
variable {α β γ : Type}

@[simp] theorem PerChip.get_const (a : α) (k : Fin 4) : (PerChip.const a).get k = a := by
  match k with
  | 0 => rfl
  | 1 => rfl
  | 2 => rfl
  | 3 => rfl

@[simp] theorem PerChip.get_zipWith (f : α → β → γ) (p : PerChip α) (q : PerChip β) (k : Fin 4) :
    (PerChip.zipWith f p q).get k = f (p.get k) (q.get k) := by
  match k with
  | 0 => rfl
  | 1 => rfl
  | 2 => rfl
  | 3 => rfl

/-- Two families are equal if they are chip by chip. -/
theorem PerChip.ext_get {p q : PerChip α} (h : ∀ k, p.get k = q.get k) : p = q := by
  cases p
  cases q
  exact congr (congr (congr (congrArg PerChip.mk (h 0)) (h 1)) (h 2)) (h 3)

end

end Sys2Proof.Machine
end

