-- ==== Sys2Proof/Laws/ChipSelect.lean ====
section
/-! SUPPORT. What a clock pulse, a run of pulses and the chip-select operations do, once each, in closed form. -/

namespace Sys2Proof.Machine

open Sys2Proof.Safety

theorem drive_cs (v : Level) (s : State) : drive .cs v s = setLine .cs v s := rfl

theorem drive_data (v : Level) (s : State) : drive .data v s = setLine .data v s := rfl

/-- One clock pulse: `CLK` ends idle, two events, and the chain shifts once (R100, R21). -/
theorem pulseClk_eq (s : State) : pulseClk s = { s with
    lines := { s.lines with clk := config.clkIdle }
    traceRev := (.clk, config.clkIdle) :: (.clk, config.clkFirst) :: s.traceRev
    sr := shiftIn (csFlag s.lines.cs) s.sr
    chips := observeShift s.sr (shiftIn (csFlag s.lines.cs) s.sr) s.chips } := by
  have h : config.clkFirst ≠ config.clkIdle := by decide
  simp [pulseClk, drive, setLine, chainShift, Lines.set, h]

/-- The chain after `m` shifts of one flag. -/
def shiftMany : Nat → ChainCell → PerChip ChainCell → PerChip ChainCell
  | 0, _, sr => sr
  | m + 1, f, sr => shiftMany m f (shiftIn f sr)

/-- The observer after `m` shifts of one flag. -/
def observeMany : Nat → ChainCell → PerChip ChainCell → PerChip Received → PerChip Received
  | 0, _, _, chips => chips
  | m + 1, f, sr, chips => observeMany m f (shiftIn f sr) (observeShift sr (shiftIn f sr) chips)

/-- The lines after `m` pulses. -/
def pulseLines (m : Nat) (ls : Lines) : Lines := if m = 0 then ls else { ls with clk := config.clkIdle }

/-- `m` pulses at one `CS` level. -/
theorem pulses_eq (m : Nat) (s : State) : pulses m s = { s with
    lines := pulseLines m s.lines
    traceRev := (pulseEvents m).reverse ++ s.traceRev
    sr := shiftMany m (csFlag s.lines.cs) s.sr
    chips := observeMany m (csFlag s.lines.cs) s.sr s.chips } := by
  induction m generalizing s with
  | zero => simp [pulses, pulseLines, pulseEvents, shiftMany, observeMany]
  | succ m ih =>
    rw [pulses, ih, pulseClk_eq]
    simp only [pulseLines, pulseEvents, shiftMany, observeMany, List.reverse_cons, List.append_assoc, List.cons_append,
      List.nil_append]
    by_cases h : m = 0 <;> simp [h]

/-- Four shifts of one flag leave that flag in every cell, whatever the chain held (R101). -/
theorem shiftMany_four (f : ChainCell) (sr : PerChip ChainCell) : shiftMany 4 f sr = PerChip.const f := rfl

/-- `CS` driven to a level and four pulses (R102, R103). -/
theorem selectAtLevel_eq (level : Level) (s : State) : selectAtLevel level s = { s with
    lines := { s.lines with cs := level, clk := config.clkIdle }
    traceRev := (selectEvents level).reverse ++ s.traceRev
    sr := PerChip.const (csFlag level)
    chips := observeMany 4 (csFlag level) s.sr s.chips } := by
  have hn : config.n = 4 := rfl
  rw [selectAtLevel, hn, pulses_eq, drive_cs]
  simp [pulseLines, selectEvents, Lines.set, shiftMany_four, setLine]

theorem csFlag_select : csFlag config.csSelectLevel = .selected := rfl

theorem csFlag_deselect : csFlag config.csDeselectLevel = .deselected := rfl

theorem selNone_eq (s : State) : selNone s = { s with
    lines := { s.lines with cs := config.csDeselectLevel, clk := config.clkIdle }
    traceRev := (selectEvents config.csDeselectLevel).reverse ++ s.traceRev
    sr := PerChip.const .deselected
    chips := observeMany 4 .deselected s.sr s.chips } := by
  rw [selNone, selectAtLevel_eq, csFlag_deselect]

theorem selAll_eq (s : State) : selAll s = { s with
    lines := { s.lines with cs := config.csSelectLevel, clk := config.clkIdle }
    traceRev := (selectEvents config.csSelectLevel).reverse ++ s.traceRev
    sr := PerChip.const .selected
    chips := observeMany 4 .selected s.sr s.chips } := by
  rw [selAll, selectAtLevel_eq, csFlag_select]

/-- The chain with chip `i` alone selected. -/
def onlyChip (i : Nat) : PerChip ChainCell :=
  shiftMany i .deselected (shiftIn .selected (PerChip.const .deselected))

theorem onlyChip_get (i : Nat) (k : Fin 4) : (onlyChip i).get k = if k.val = i then .selected else .deselected := by
  rcases i with _ | _ | _ | _ | i
  · revert k; decide
  · revert k; decide
  · revert k; decide
  · revert k; decide
  · have h : ∀ i, shiftMany i .deselected (PerChip.const .deselected) = PerChip.const .deselected := by
      intro i
      induction i with
      | zero => rfl
      | succ i ih => rw [shiftMany]; exact ih
    have h4 : onlyChip (i + 1 + 1 + 1 + 1) = PerChip.const .deselected := h i
    have hk : ¬ k.val = i + 1 + 1 + 1 + 1 := by omega
    simp [h4, hk]

/-- The part of `SEL_ONE i` after its `SEL_NONE` part: one flag moves to cell `i` (R104). -/
theorem injectFlag_eq (i : Nat) (s : State) (h : s.sr = PerChip.const .deselected) : injectFlag i s = { s with
    lines := { s.lines with cs := config.csDeselectLevel, clk := config.clkIdle }
    traceRev := ([(Line.cs, config.csSelectLevel)] ++ pulseEvents 1 ++ [(Line.cs, config.csDeselectLevel)] ++
      pulseEvents i).reverse ++ s.traceRev
    sr := onlyChip i
    chips := observeMany i .deselected (shiftIn .selected s.sr) (observeShift s.sr (shiftIn .selected s.sr) s.chips) } := by
  rw [injectFlag, pulses_eq, drive_cs, drive_cs, pulseClk_eq]
  by_cases hi : i = 0 <;>
    simp [setLine, Lines.set, csFlag_select, csFlag_deselect, pulseLines, pulseEvents, onlyChip, h, hi]


end Sys2Proof.Machine
end

