-- ==== Sys2Proof/Laws/Decode.lean ====
section
/-! SUPPORT. The fields of a request word (R70). -/

namespace Sys2Proof

theorem requestWord_toNat (op : BitVec 4) (arg : BitVec 12) :
    (requestWord op arg).toNat = op.toNat * 4096 + arg.toNat := by
  have h : (requestWord op arg).toNat = op.toNat <<< 12 ||| arg.toNat := BitVec.toNat_append op arg
  rw [h, ← Nat.shiftLeft_add_eq_or_of_lt arg.isLt, Nat.shiftLeft_eq]

@[simp] theorem requestWord_op (op : BitVec 4) (arg : BitVec 12) : (requestWord op arg).extractLsb' 12 4 = op := by
  apply BitVec.eq_of_toNat_eq
  rw [BitVec.extractLsb'_toNat, requestWord_toNat, Nat.shiftRight_eq_div_pow]
  have := arg.isLt
  have := op.isLt
  omega

@[simp] theorem requestWord_arg (op : BitVec 4) (arg : BitVec 12) : (requestWord op arg).extractLsb' 0 12 = arg := by
  apply BitVec.eq_of_toNat_eq
  rw [BitVec.extractLsb'_toNat, requestWord_toNat, Nat.shiftRight_zero]
  have := arg.isLt
  omega

/-- A request word is its two fields put together. -/
theorem requestWord_fields (w : RequestWord) : requestWord (w.extractLsb' 12 4) (w.extractLsb' 0 12) = w := by
  apply BitVec.eq_of_toNat_eq
  rw [requestWord_toNat, BitVec.extractLsb'_toNat, BitVec.extractLsb'_toNat, Nat.shiftRight_eq_div_pow, Nat.shiftRight_zero]
  have := w.isLt
  omega

end Sys2Proof
end

