-- ==== Sys2Proof/Laws/Memory.lean ====
section
/-! SUPPORT. The pixel space: a read after a write, and the canonical form, which every memory operation keeps. -/

namespace Sys2Proof.Machine

theorem Memory.wfFrom_mono {lo lo' : Nat} (h : lo' ≤ lo) (m : Memory) (hm : Memory.wfFrom lo m = true) :
    Memory.wfFrom lo' m = true := by
  cases m with
  | nil => rfl
  | cons c m =>
    simp only [Memory.wfFrom, Bool.and_eq_true, decide_eq_true_eq] at hm ⊢
    exact ⟨⟨⟨⟨by omega, hm.1.1.1.2⟩, hm.1.1.2⟩, hm.1.2⟩, hm.2⟩

/-- A cell below the first listed address is not listed. -/
theorem Memory.read_below {lo a : Nat} (m : Memory) (hm : Memory.wfFrom lo m = true) (h : a < lo) :
    Memory.read m a = Memory.default := by
  induction m generalizing lo with
  | nil => rfl
  | cons c m ih =>
    obtain ⟨b, v⟩ := c
    simp only [Memory.wfFrom, Bool.and_eq_true, decide_eq_true_eq] at hm
    have hb : ¬ a = b := by omega
    simp only [Memory.read, hb, if_false]
    exact ih hm.2 (by omega)

/-- A read of the address written gives the value written. -/
theorem Memory.read_write_same {lo : Nat} (m : Memory) (hm : Memory.wfFrom lo m = true) (a : Nat) (v : BitVec 8) :
    Memory.read (Memory.write m a v) a = v := by
  induction m generalizing lo with
  | nil =>
    simp only [Memory.write]
    split <;> simp_all [Memory.read]
  | cons c m ih =>
    obtain ⟨b, w⟩ := c
    have hm' := hm
    simp only [Memory.wfFrom, Bool.and_eq_true, decide_eq_true_eq] at hm'
    simp only [Memory.write]
    split
    · split
      · rename_i hlt hv
        rw [hv]
        exact Memory.read_below (lo := b) _ (by simpa [Memory.wfFrom, hm'.1.1.1.2, hm'.1.2, hm'.2] using hm'.1.1.2) hlt
      · simp [Memory.read]
    · split
      · split
        · rename_i heq hv
          rw [hv]
          exact Memory.read_below m hm'.2 (by omega)
        · simp [Memory.read]
      · rename_i hlt heq
        simp only [Memory.read, heq, if_false]
        exact ih hm'.2

/-- A write leaves every other address as it was. -/
theorem Memory.read_write_other (m : Memory) {a a' : Nat} (h : a' ≠ a) (v : BitVec 8) :
    Memory.read (Memory.write m a v) a' = Memory.read m a' := by
  induction m with
  | nil =>
    simp only [Memory.write]
    split <;> simp [Memory.read, h]
  | cons c m ih =>
    obtain ⟨b, w⟩ := c
    simp only [Memory.write]
    split
    · split <;> simp [Memory.read, h]
    · split
      · rename_i heq
        subst heq
        split <;> simp [Memory.read, h]
      · simp only [Memory.read, ih]

theorem Memory.wfFrom_write {lo : Nat} (m : Memory) (hm : Memory.wfFrom lo m = true) {a : Nat} (hlo : lo ≤ a) (ha : a < 512)
    {v : BitVec 8} (hv : v.toNat < 4) : Memory.wfFrom lo (Memory.write m a v) = true := by
  induction m generalizing lo with
  | nil =>
    simp only [Memory.write]
    split <;> simp_all [Memory.wfFrom]
  | cons c m ih =>
    obtain ⟨b, w⟩ := c
    have hm' := hm
    simp only [Memory.wfFrom, Bool.and_eq_true, decide_eq_true_eq] at hm'
    obtain ⟨⟨⟨⟨h1, h2⟩, h3⟩, h4⟩, h5⟩ := hm'
    simp only [Memory.write]
    split
    · rename_i hlt
      split
      · exact hm
      · rename_i hne
        have hab : a + 1 ≤ b := hlt
        simp only [Memory.wfFrom, hlo, ha, hv, h2, h3, h4, h5, hab, decide_true, Bool.and_true, Bool.true_and]
        simpa using hne
    · split
      · rename_i heq
        subst heq
        split
        · exact Memory.wfFrom_mono (by omega) m h5
        · rename_i hne
          simp only [Memory.wfFrom, hlo, ha, hv, h5, decide_true, Bool.and_true, Bool.true_and]
          simpa using hne
      · simp only [Memory.wfFrom, h1, h2, h3, h4, decide_true, Bool.and_true, Bool.true_and]
        exact ih h5 (by omega)

/-- A write of a 2-bit code inside the space keeps the canonical form. -/
theorem Memory.wf_write (m : Memory) (hm : m.wf = true) {a : Nat} (ha : a < 512) {v : BitVec 8} (hv : v.toNat < 4) :
    (m.write a v).wf = true :=
  Memory.wfFrom_write m hm (Nat.zero_le a) ha hv

/-- Equal pixel spaces read alike. -/
theorem pixelAt_congr {s t : State} (h : t.pixels = s.pixels) (x y : Nat) : pixelAt t x y = pixelAt s x y := by
  rw [pixelAt, pixelAt, h]

/-- Every coordinate the host can write lies in the space (R51). -/
theorem pixelAddress_lt (x : BitVec 5) (y : BitVec 4) : pixelAddress x.toNat y.toNat < 512 := by
  have hx := x.isLt
  have hy := y.isLt
  simp only [pixelAddress, config]
  omega

/-- Two coordinates of the panel with one address are the same (R50). -/
theorem pixelAddress_inj {x y x' y' : Nat} (hx : x < 32) (hx' : x' < 32) (h : pixelAddress x y = pixelAddress x' y') :
    x = x' ∧ y = y' := by
  simp only [pixelAddress, config] at h
  omega

/-- A host write keeps the canonical form of the pixel space. -/
theorem wf_writePixel (x : BitVec 5) (y : BitVec 4) (v : BitVec 2) (s : State) (h : s.pixels.wf = true) :
    (writePixel x y v s).pixels.wf = true := by
  refine Memory.wf_write s.pixels h (pixelAddress_lt x y) ?_
  have hv := v.isLt
  rw [BitVec.toNat_setWidth]
  omega

/-- The pixel space after reset has the canonical form. -/
theorem wf_reset : State.reset.pixels.wf = true := rfl

end Sys2Proof.Machine
end

