-- ==== Sys2Proof/Laws/Observer.lean ====
section
/-! SUPPORT. What shifts of the select chain do to the observer (R60). -/

namespace Sys2Proof.Machine

open Sys2Proof.Safety

/-- A chip's record once its frame in progress, if it is selected and has one, is closed. -/
def Received.settled (r : Received) (cell : ChainCell) : Received :=
  match cell with
  | .selected => r.close
  | .deselected => r
  | .unknown => r

/-- A chip that is not selected has no frame open. -/
abbrev Received.legal (r : Received) (cell : ChainCell) : Prop := cell ≠ .selected → r.rx = []

theorem Received.close_of_empty (r : Received) (h : r.rx = []) : r.close = r := by
  cases r
  simp_all [Received.close]

@[simp] theorem Received.close_rx (r : Received) : r.close.rx = [] := rfl

theorem Received.edge_of_empty (r : Received) (h : r.rx = []) (before after : ChainCell) : r.edge before after = r := by
  have hc := r.close_of_empty h
  cases r
  cases before <;> cases after <;> simp_all [Received.edge]

/-- A shift of the chain does not change what a chip's record will be once it is settled. -/
theorem Received.settled_edge (r : Received) (before after : ChainCell) (h : r.legal before) :
    (r.edge before after).settled after = r.settled before ∧ (r.edge before after).legal after := by
  cases before with
  | selected => cases after <;> simp [Received.edge, Received.settled, Received.legal]
  | deselected =>
    have hr := h (by decide)
    rw [r.edge_of_empty hr]
    cases after <;> simp [Received.settled, Received.legal, r.close_of_empty hr, hr]
  | unknown =>
    have hr := h (by decide)
    rw [r.edge_of_empty hr]
    cases after <;> simp [Received.settled, Received.legal, r.close_of_empty hr, hr]

theorem observeShift_get (before after : PerChip ChainCell) (chips : PerChip Received) (k : Fin 4) :
    (observeShift before after chips).get k = (chips.get k).edge (before.get k) (after.get k) := by
  match k with
  | 0 => rfl
  | 1 => rfl
  | 2 => rfl
  | 3 => rfl

/-- After any number of shifts: the record of a chip, once settled, is what it was, and no unselected chip has a frame
open. -/
theorem observeMany_settled (m : Nat) (f : ChainCell) (sr : PerChip ChainCell) (chips : PerChip Received) (k : Fin 4)
    (h : ∀ k, (chips.get k).legal (sr.get k)) :
    ((observeMany m f sr chips).get k).settled ((shiftMany m f sr).get k) = (chips.get k).settled (sr.get k) ∧
      ((observeMany m f sr chips).get k).legal ((shiftMany m f sr).get k) := by
  induction m generalizing sr chips with
  | zero => exact ⟨rfl, h k⟩
  | succ m ih =>
    have step := fun k => (chips.get k).settled_edge (sr.get k) ((shiftIn f sr).get k) (h k)
    obtain ⟨h1, h2⟩ := ih (shiftIn f sr) (observeShift sr (shiftIn f sr) chips)
      (fun k => by rw [observeShift_get]; exact (step k).2)
    refine ⟨?_, h2⟩
    rw [observeMany, shiftMany, h1, observeShift_get]
    exact (step k).1

/-- Four deselecting shifts close the frame of every selected chip and do nothing else (R102). -/
theorem observeMany_deselect (sr : PerChip ChainCell) (chips : PerChip Received) (k : Fin 4)
    (h : ∀ k, (chips.get k).legal (sr.get k)) :
    (observeMany 4 .deselected sr chips).get k = (chips.get k).settled (sr.get k) := by
  have := (observeMany_settled 4 .deselected sr chips k h).1
  rwa [shiftMany_four, PerChip.get_const] at this

/-- Four deselecting shifts from all chips selected close every chip's frame. -/
theorem observeMany_close (chips : PerChip Received) (k : Fin 4) :
    (observeMany 4 .deselected (PerChip.const .selected) chips).get k = (chips.get k).close := by
  have := observeMany_deselect (PerChip.const .selected) chips k (by simp)
  rwa [PerChip.get_const] at this

/-- With no frame open, shifts change no record. -/
theorem observeMany_noFrame (m : Nat) (f : ChainCell) (sr : PerChip ChainCell) (chips : PerChip Received)
    (h : ∀ k, (chips.get k).rx = []) : observeMany m f sr chips = chips := by
  have hs : ∀ sr', observeShift sr sr' chips = chips := fun sr' =>
    PerChip.ext_get fun k => by rw [observeShift_get]; exact (chips.get k).edge_of_empty (h k) _ _
  induction m generalizing sr with
  | zero => rfl
  | succ m ih =>
    have hs' : observeShift sr (shiftIn f sr) chips = chips :=
      PerChip.ext_get fun k => by rw [observeShift_get]; exact (chips.get k).edge_of_empty (h k) _ _
    rw [observeMany, hs']
    exact ih _ (fun sr' => PerChip.ext_get fun k => by rw [observeShift_get]; exact (chips.get k).edge_of_empty (h k) _ _)

end Sys2Proof.Machine
end

