-- ==== Sys2Proof/Laws/Transmit.lean ====
section
/-! SUPPORT. What bit cells do: one cell, a list of cells, a command, a data frame, a clear frame, a broadcast. -/

namespace Sys2Proof.Machine

open Sys2Proof.Safety

/-- The observer after bits sent at one selection: the selected chips take them (R60). -/
def takeBits (bits : List Level) (sr : PerChip ChainCell) (chips : PerChip Received) : PerChip Received :=
  PerChip.zipWith (fun cell r =>
    match cell with
    | .selected => { r with rx := r.rx ++ bits }
    | .deselected => r
    | .unknown => r) sr chips

theorem takeBits_get (bits : List Level) (sr : PerChip ChainCell) (chips : PerChip Received) (k : Fin 4) :
    (takeBits bits sr chips).get k =
      if sr.get k = .selected then { chips.get k with rx := (chips.get k).rx ++ bits } else chips.get k := by
  rw [takeBits, PerChip.get_zipWith]
  cases sr.get k <;> simp

theorem takeBits_nil (sr : PerChip ChainCell) (chips : PerChip Received) : takeBits [] sr chips = chips :=
  PerChip.ext_get fun k => by rw [takeBits_get]; simp

theorem takeBits_takeBits (b c : List Level) (sr : PerChip ChainCell) (chips : PerChip Received) :
    takeBits c sr (takeBits b sr chips) = takeBits (b ++ c) sr chips :=
  PerChip.ext_get fun k => by
    simp only [takeBits_get]
    split <;> simp

/-- One bit cell: three events, `WR` ends high, `DATA` at the bit, and the selected chips take the bit (R120). -/
theorem wrBit_eq (b : Level) (s : State) : wrBit b s = { s with
    lines := { s.lines with data := b, wr := true }
    traceRev := (.wr, true) :: (.data, b) :: (.wr, false) :: s.traceRev
    chips := takeBits [b] s.sr s.chips } := by
  have hs : PerChip.zipWith (Received.sample b) s.sr s.chips = takeBits [b] s.sr s.chips :=
    PerChip.ext_get fun k => by
      rw [PerChip.get_zipWith, takeBits_get]
      cases s.sr.get k <;> rfl
  simp [wrBit, drive, setLine, sampleData, Lines.set, hs]

/-- The lines after bit cells. -/
def bitLines (bits : List Level) (ls : Lines) : Lines :=
  match bits.getLast? with
  | none => ls
  | some b => { ls with data := b, wr := true }

/-- Bit cells: three events each, and the selected chips take the bits. -/
theorem wrBits_eq (bits : List Level) (s : State) : wrBits bits s = { s with
    lines := bitLines bits s.lines
    traceRev := (bitEvents bits).reverse ++ s.traceRev
    chips := takeBits bits s.sr s.chips } := by
  induction bits generalizing s with
  | nil => simp [wrBits, bitLines, bitEvents, takeBits_nil]
  | cons b bs ih =>
    rw [wrBits, ih, wrBit_eq]
    simp only [takeBits_takeBits, bitEvents, List.reverse_cons, List.append_assoc, List.cons_append, List.nil_append,
      State.mk.injEq, and_true]
    cases bs with
    | nil => simp [bitLines]
    | cons c cs => simp [bitLines, List.getLast?_cons]

theorem bitEvents_append (b c : List Level) : bitEvents (b ++ c) = bitEvents b ++ bitEvents c := by
  induction b with
  | nil => rfl
  | cons a b ih => simp [bitEvents, ih]

/-! ## The bits of words and planes -/

theorem bitsLsbFirst_eq (n w : Nat) : bitsLsbFirst n w = (List.range n).map fun k => w.testBit k := by
  induction n generalizing w with
  | zero => rfl
  | succ n ih =>
    rw [bitsLsbFirst, ih, List.range_succ_eq_map, List.map_cons, List.map_map]
    congr 1
    · rw [Nat.testBit_zero]
      rcases Nat.mod_two_eq_zero_or_one w with h | h <;> simp [h]
    · apply List.map_congr_left
      intro k _
      simp [Nat.testBit_succ]

/-- A plane is sent cell 0 first (R78). -/
theorem planeBits_eq (p : Plane) : planeBits p = (List.range 128).map p.getLsbD := by
  rw [planeBits, bitsLsbFirst_eq]
  rfl

/-- A command word is sent `c[11]` first (R77). -/
theorem commandBits_eq (c : Command) : commandBits c = commandFrame c := by
  rw [commandBits, bitsLsbFirst_eq, commandFrame]
  rfl

theorem commandFrame_getLast (c : Command) : (commandFrame c).getLast? = some (c.getLsbD 0) := rfl

/-- `WR_CMD` (R121). -/
theorem sendCommand_eq (c : Command) (s : State) : sendCommand c s = { s with
    cmdsr := c
    lines := { s.lines with data := c.getLsbD 0, wr := true }
    traceRev := (bitEvents (commandFrame c)).reverse ++ s.traceRev
    chips := takeBits (commandFrame c) s.sr s.chips } := by
  rw [sendCommand, wrBits_eq, commandBits_eq]
  simp [bitLines, commandFrame_getLast]

theorem leadBits_eq : leadBits = leading := rfl

/-- The bits of a data frame, as the meaning sends them and as R78 lists them. -/
theorem dataFrame_bits (red green : Plane) :
    leadBits ++ planeBits red ++ planeBits green = dataFrame red.getLsbD green.getLsbD := by
  rw [dataFrame, planeBits_eq, planeBits_eq, leadBits_eq]

/-- A data frame: `DATA` ends at the last green cell (R142). -/
theorem sendPlanes_eq (red green : Plane) (s : State) : sendPlanes red green s = { s with
    lines := { s.lines with data := green.getLsbD 127, wr := true }
    traceRev := (bitEvents (dataFrame red.getLsbD green.getLsbD)).reverse ++ s.traceRev
    chips := takeBits (dataFrame red.getLsbD green.getLsbD) s.sr s.chips } := by
  have hl : (dataFrame red.getLsbD green.getLsbD).getLast? = some (green.getLsbD 127) := by
    have : (List.range 128).map green.getLsbD = (List.range 127).map green.getLsbD ++ [green.getLsbD 127] := by
      rw [List.range_succ, List.map_append]
      rfl
    rw [dataFrame, this, ← List.append_assoc, List.getLast?_append]
    rfl
  rw [sendPlanes, dataFrame_bits, wrBits_eq, bitLines, hl]

/-- A clear frame (R79). -/
theorem sendClearFrame_eq (s : State) : sendClearFrame s = { s with
    lines := { s.lines with data := false, wr := true }
    traceRev := (bitEvents clearFrame).reverse ++ s.traceRev
    chips := takeBits clearFrame s.sr s.chips } := by
  have hb : leadBits ++ List.replicate config.memBits false = clearFrame := rfl
  have hl : clearFrame.getLast? = some false := by
    rw [clearFrame, List.getLast?_append]
    rfl
  rw [sendClearFrame, hb, wrBits_eq, bitLines, hl]

/-- A broadcast (R122). -/
theorem broadcast_eq (c : Command) (s : State) : broadcast c s = { s with
    cmdsr := c
    lines := ⟨config.clkIdle, config.csDeselectLevel, c.getLsbD 0, true⟩
    traceRev := (broadcastEvents c).reverse ++ s.traceRev
    sr := PerChip.const .deselected
    chips := observeMany 4 .deselected (PerChip.const .selected)
      (takeBits (commandFrame c) (PerChip.const .selected) (observeMany 4 .selected s.sr s.chips)) } := by
  rw [broadcast, selNone_eq, sendCommand_eq, selAll_eq]
  simp only [broadcastEvents, List.reverse_append, List.append_assoc]

/-- A broadcast with no frame open: every chip records the word, most significant bit first (R122). -/
theorem broadcast_chips (c : Command) (s : State) (h : NoFrameOpen s) (k : Fin 4) :
    (broadcast c s).chips.get k = ⟨[], (s.chips.get k).frames ++ [commandFrame c]⟩ := by
  have hk := h k
  rw [broadcast_eq]
  simp only [observeMany_close, takeBits_get, PerChip.get_const, if_true, observeMany_noFrame _ _ _ _ h]
  have hne : commandFrame c ≠ [] := by simp [commandFrame]
  simp [Received.close, hk, hne]

end Sys2Proof.Machine
end

