-- ==== Sys2Proof/Laws/Planes.lean ====
section
/-! SUPPORT. What EXTRACT does: its reads, in order, and every cell of the two planes (R140, R141). -/

namespace Sys2Proof.Machine

open Sys2Proof.Safety

/-- One cell of a plane written: that cell holds the value, every other cell is unchanged. -/
theorem setCell_getLsbD (k : Nat) (v : Level) (p : Plane) (j : Nat) :
    (setCell k v p).getLsbD j = if j = k ∧ k < 128 then v else p.getLsbD j := by
  unfold setCell
  cases v
  · by_cases h : j = k
    · subst h
      by_cases hk : j < 128
      · simp [hk]
      · simp [hk, BitVec.getLsbD_of_ge p j (by omega)]
    · simp only [Bool.false_eq_true, if_false, h, false_and, BitVec.getLsbD_and, BitVec.getLsbD_not,
        BitVec.getLsbD_twoPow]
      by_cases hj : j < 128
      · have : ¬ k = j := fun e => h e.symm
        simp [hj, this]
      · simp [hj, BitVec.getLsbD_of_ge p j (by omega)]
  · by_cases h : j = k
    · subst h
      by_cases hk : j < 128 <;> simp [hk]
    · have : ¬ k = j := fun e => h e.symm
      simp [h, this]

/-- Cells written one after another, the cell of `p` with the value `f p`. -/
def setCells (f : Nat × Nat → Level) : List (Nat × Nat) → Plane → Plane
  | [], pl => pl
  | p :: ps, pl => setCells f ps (setCell (cellIndex p.1 p.2) (f p) pl)

theorem setCells_getLsbD (f : Nat × Nat → Level) (ps : List (Nat × Nat)) (hps : ∀ p ∈ ps, p.2 < 8) (pl : Plane) (k : Nat)
    (hk : k < 128) : (setCells f ps pl).getLsbD k = if (k / 8, k % 8) ∈ ps then f (k / 8, k % 8) else pl.getLsbD k := by
  induction ps generalizing pl with
  | nil => simp [setCells]
  | cons p ps ih =>
    rw [setCells, ih (fun q hq => hps q (List.mem_cons_of_mem _ hq)), setCell_getLsbD]
    have hp := hps p List.mem_cons_self
    have hc : cellIndex p.1 p.2 = 8 * p.1 + p.2 := by simp only [cellIndex, config]; omega
    by_cases hin : (k / 8, k % 8) ∈ ps
    · simp [hin]
    · by_cases he : (k / 8, k % 8) = p
      · have : k = cellIndex p.1 p.2 := by rw [hc, ← he]; simp only; omega
        simp [← he, cellIndex, config]
        omega
      · have hne : ¬ k = cellIndex p.1 p.2 := by
          rw [hc]
          intro h
          apply he
          ext
          · simp only; omega
          · simp only; omega
        simp [hin, he, hne]

/-- The value read for a local position of the rectangle `(r, q)`. -/
def readAt (s : State) (r q : BitVec 1) (p : Nat × Nat) : BitVec 2 := pixelAt s (pixelX q p.1) (pixelY r p.2)

/-- The coordinates read for local positions, in their order. -/
def readCoords (r q : BitVec 1) (ps : List (Nat × Nat)) : List (Nat × Nat) := ps.map fun p => (pixelX q p.1, pixelY r p.2)

theorem readCells_eq (r q : BitVec 1) (ps : List (Nat × Nat)) (s : State) : readCells r q ps s = { s with
    red := setCells (fun p => redOf config.redBit (readAt s r q p)) ps s.red
    green := setCells (fun p => greenOf config.redBit (readAt s r q p)) ps s.green
    pxTraceRev := (readCoords r q ps).reverse ++ s.pxTraceRev } := by
  induction ps generalizing s with
  | nil => simp [readCells, setCells, readCoords]
  | cons p ps ih =>
    rw [readCells, ih]
    simp [readCell, recordRead, setCells, readCoords, readAt, pixelAt]

theorem mem_scanOrder (p : Nat × Nat) : p ∈ scanOrder ↔ p.1 < 16 ∧ p.2 < 8 := by
  have h16 : config.chipW = 16 := rfl
  have h8 : config.chipH = 8 := rfl
  simp only [scanOrder, h16, h8, List.mem_flatMap, List.mem_map, List.mem_range]
  constructor
  · rintro ⟨a, ha, b, hb, rfl⟩
    exact ⟨ha, hb⟩
  · rintro ⟨ha, hb⟩
    exact ⟨p.1, ha, p.2, hb, rfl⟩

/-- `EXTRACT` writes the two planes, `PLANES_VALID` and `PXTRACE`, and nothing else (R140, R39). -/
theorem extract_frame (r q : BitVec 1) (s : State) : extract r q s = { s with
    red := (extract r q s).red
    green := (extract r q s).green
    planesValid := true
    pxTraceRev := (readCoords r q scanOrder).reverse ++ s.pxTraceRev } := by
  rw [extract, readCells_eq]

@[simp] theorem extract_lines (r q : BitVec 1) (s : State) : (extract r q s).lines = s.lines := by rw [extract_frame]

@[simp] theorem extract_cmdsr (r q : BitVec 1) (s : State) : (extract r q s).cmdsr = s.cmdsr := by rw [extract_frame]

@[simp] theorem extract_icmd (r q : BitVec 1) (s : State) : (extract r q s).icmd = s.icmd := by rw [extract_frame]

@[simp] theorem extract_icmdValid (r q : BitVec 1) (s : State) : (extract r q s).icmdValid = s.icmdValid := by rw [extract_frame]

@[simp] theorem extract_sr (r q : BitVec 1) (s : State) : (extract r q s).sr = s.sr := by rw [extract_frame]

@[simp] theorem extract_fault (r q : BitVec 1) (s : State) : (extract r q s).fault = s.fault := by rw [extract_frame]

@[simp] theorem extract_faultCode (r q : BitVec 1) (s : State) : (extract r q s).faultCode = s.faultCode := by rw [extract_frame]

@[simp] theorem extract_faultInfo (r q : BitVec 1) (s : State) : (extract r q s).faultInfo = s.faultInfo := by rw [extract_frame]

@[simp] theorem extract_busy (r q : BitVec 1) (s : State) : (extract r q s).busy = s.busy := by rw [extract_frame]

@[simp] theorem extract_op (r q : BitVec 1) (s : State) : (extract r q s).op = s.op := by rw [extract_frame]

@[simp] theorem extract_arg (r q : BitVec 1) (s : State) : (extract r q s).arg = s.arg := by rw [extract_frame]

@[simp] theorem extract_upc (r q : BitVec 1) (s : State) : (extract r q s).upc = s.upc := by rw [extract_frame]

@[simp] theorem extract_traceRev (r q : BitVec 1) (s : State) : (extract r q s).traceRev = s.traceRev := by rw [extract_frame]

@[simp] theorem extract_chips (r q : BitVec 1) (s : State) : (extract r q s).chips = s.chips := by rw [extract_frame]

@[simp] theorem extract_pixels (r q : BitVec 1) (s : State) : (extract r q s).pixels = s.pixels := by rw [extract_frame]

@[simp] theorem extract_host (r q : BitVec 1) (s : State) : (extract r q s).host = s.host := by rw [extract_frame]

theorem extract_red (r q : BitVec 1) (s : State) (k : Nat) (hk : k < 128) :
    (extract r q s).red.getLsbD k = redCell s r.toNat q.toNat k := by
  rw [extract, readCells_eq]
  simp only
  rw [setCells_getLsbD _ _ (fun p hp => ((mem_scanOrder p).1 hp).2) _ _ hk, if_pos ((mem_scanOrder _).2 ⟨by simp only; omega, by simp only; omega⟩)]
  simp only [redOf, readAt, redCell, cellPixel, pixelX, pixelY, config, Nat.mul_comm]

theorem extract_green (r q : BitVec 1) (s : State) (k : Nat) (hk : k < 128) :
    (extract r q s).green.getLsbD k = greenCell s r.toNat q.toNat k := by
  rw [extract, readCells_eq]
  simp only
  rw [setCells_getLsbD _ _ (fun p hp => ((mem_scanOrder p).1 hp).2) _ _ hk, if_pos ((mem_scanOrder _).2 ⟨by simp only; omega, by simp only; omega⟩)]
  simp only [greenOf, readAt, greenCell, cellPixel, pixelX, pixelY, config, Nat.mul_comm]

/-- The reads of `EXTRACT r, q` are the rectangle in column-major order (R140). -/
theorem readCoords_eq (r q : BitVec 1) : readCoords r q scanOrder = rectangle r.toNat q.toNat := by
  revert r q
  decide

/-- The data frame carrying the planes of a rectangle just extracted (R166). -/
theorem dataFrame_extract (r q : BitVec 1) (s : State) :
    dataFrame (extract r q s).red.getLsbD (extract r q s).green.getLsbD =
      dataFrame (redCell s r.toNat q.toNat) (greenCell s r.toNat q.toNat) := by
  have hr : (List.range 128).map (extract r q s).red.getLsbD = (List.range 128).map (redCell s r.toNat q.toNat) :=
    List.map_congr_left fun k hk => extract_red r q s k (List.mem_range.1 hk)
  have hg : (List.range 128).map (extract r q s).green.getLsbD = (List.range 128).map (greenCell s r.toNat q.toNat) :=
    List.map_congr_left fun k hk => extract_green r q s k (List.mem_range.1 hk)
  rw [dataFrame, dataFrame, hr, hg]

theorem redCell_congr {s t : State} (h : t.pixels = s.pixels) (r q : Nat) : redCell t r q = redCell s r q := by
  funext k
  rw [redCell, redCell, cellPixel, cellPixel, pixelAt, pixelAt, h]

theorem greenCell_congr {s t : State} (h : t.pixels = s.pixels) (r q : Nat) : greenCell t r q = greenCell s r q := by
  funext k
  rw [greenCell, greenCell, cellPixel, cellPixel, pixelAt, pixelAt, h]

/-- The planes read depend on the pixels alone, not on what the planes held (R25, R140). -/
theorem extract_planes_congr (r q : BitVec 1) {s t : State} (h : t.pixels = s.pixels) :
    (extract r q t).red = (extract r q s).red ∧ (extract r q t).green = (extract r q s).green := by
  constructor
  · apply BitVec.eq_of_getLsbD_eq
    intro k hk
    rw [extract_red _ _ _ _ hk, extract_red _ _ _ _ hk, redCell, redCell, cellPixel, cellPixel, pixelAt, pixelAt, h]
  · apply BitVec.eq_of_getLsbD_eq
    intro k hk
    rw [extract_green _ _ _ _ hk, extract_green _ _ _ _ hk, greenCell, greenCell, cellPixel, cellPixel, pixelAt, pixelAt, h]

end Sys2Proof.Machine
end

