-- ==== Sys2Proof/Laws/Operations.lean ====
section
/-! SUPPORT. What the operations that can raise, and the parts of SHOW, do: one lemma each. -/

namespace Sys2Proof.Machine

open Sys2Proof.Safety

@[simp] theorem Run.state_done (s : State) : (Run.done s).state = s := rfl

@[simp] theorem Run.state_raised (s : State) : (Run.raised s).state = s := rfl

@[simp] theorem Run.andThen_done (s : State) (f : State → Run) : (Run.done s).andThen f = f s := rfl

@[simp] theorem Run.andThen_raised (s : State) (f : State → Run) : (Run.raised s).andThen f = .raised s := rfl

@[simp] theorem Run.outcome_eq (r : Run) : r.outcome = .next r.state := rfl

/-! ## Every instruction answers a next state (R184, R186) -/

theorem exec_selNone (s : State) : exec .selNone s = .next (selNone s) := by
  simp only [exec, execSelNone, Run.outcome_eq, Run.state_done]

theorem exec_selAll (s : State) : exec .selAll s = .next (selAll s) := by
  simp only [exec, execSelAll, Run.outcome_eq, Run.state_done]

theorem exec_selOne (i : Nat) (s : State) : exec (.selOne i) s = .next ((selOne i s).state) := by
  simp only [exec, execSelOne, Run.outcome_eq]

theorem exec_wrCmd (c : Nat) (s : State) : exec (.wrCmd c) s = .next (sendCommand (maskCommand c) s) := by
  simp only [exec, execWrCmd, Run.outcome_eq, Run.state_done]

theorem exec_extract (r q : BitVec 1) (s : State) : exec (.extract r q) s = .next (extract r q s) := by
  simp only [exec, execExtract, Run.outcome_eq, Run.state_done]

theorem exec_wrData (s : State) : exec .wrData s = .next ((wrData s).state) := by
  simp only [exec, execWrData, Run.outcome_eq]

theorem exec_bcastCmd (c : Nat) (s : State) : exec (.bcastCmd c) s = .next (broadcast (maskCommand c) s) := by
  simp only [exec, execBcastCmd, Run.outcome_eq, Run.state_done]

theorem exec_beginInit (s : State) : exec .beginInit s = .next ((beginInit s).state) := by
  simp only [exec, execBeginInit, Run.outcome_eq]

theorem exec_setIntensity (l : Int) (s : State) : exec (.setIntensity l) s = .next ((setIntensity l s).state) := by
  simp only [exec, execSetIntensity, Run.outcome_eq]

theorem exec_clear (s : State) : exec .clear s = .next (clearChips s) := by
  simp only [exec, execClear, Run.outcome_eq, Run.state_done]

theorem exec_showFrame (s : State) : exec .showFrame s = .next ((showAll s).state) := by
  simp only [exec, execShowFrame, Run.outcome_eq]

theorem exec_sysDis (s : State) : exec .sysDis s = .next (sendCommand config.sysDis s) := by
  simp only [exec, execSysDis, Run.outcome_eq, Run.state_done]

theorem exec_sysEn (s : State) : exec .sysEn s = .next (sendCommand config.sysEn s) := by
  simp only [exec, execSysEn, Run.outcome_eq, Run.state_done]

theorem exec_ledOff (s : State) : exec .ledOff s = .next (sendCommand config.ledOff s) := by
  simp only [exec, execLedOff, Run.outcome_eq, Run.state_done]

theorem exec_ledOn (s : State) : exec .ledOn s = .next (sendCommand config.ledOn s) := by
  simp only [exec, execLedOn, Run.outcome_eq, Run.state_done]

theorem exec_blinkOff (s : State) : exec .blinkOff s = .next (sendCommand config.blinkOff s) := by
  simp only [exec, execBlinkOff, Run.outcome_eq, Run.state_done]

theorem exec_blinkOn (s : State) : exec .blinkOn s = .next (sendCommand config.blinkOn s) := by
  simp only [exec, execBlinkOn, Run.outcome_eq, Run.state_done]

theorem exec_slaveMode (s : State) : exec .slaveMode s = .next (sendCommand config.slaveMode s) := by
  simp only [exec, execSlaveMode, Run.outcome_eq, Run.state_done]

theorem exec_rcMasterMode (s : State) : exec .rcMasterMode s = .next (sendCommand config.rcMasterMode s) := by
  simp only [exec, execRcMasterMode, Run.outcome_eq, Run.state_done]

theorem exec_extClkMasterMode (s : State) : exec .extClkMasterMode s = .next (sendCommand config.extClkMasterMode s) := by
  simp only [exec, execExtClkMasterMode, Run.outcome_eq, Run.state_done]

theorem exec_comNmos8 (s : State) : exec .comNmos8 s = .next (sendCommand config.comNmos8 s) := by
  simp only [exec, execComNmos8, Run.outcome_eq, Run.state_done]

theorem exec_comNmos16 (s : State) : exec .comNmos16 s = .next (sendCommand config.comNmos16 s) := by
  simp only [exec, execComNmos16, Run.outcome_eq, Run.state_done]

theorem exec_comPmos8 (s : State) : exec .comPmos8 s = .next (sendCommand config.comPmos8 s) := by
  simp only [exec, execComPmos8, Run.outcome_eq, Run.state_done]

theorem exec_comPmos16 (s : State) : exec .comPmos16 s = .next (sendCommand config.comPmos16 s) := by
  simp only [exec, execComPmos16, Run.outcome_eq, Run.state_done]

theorem exec_pwmDuty (level : BitVec 4) (s : State) : exec (.pwmDuty level) s = .next (sendCommand (intensityCommand level.toNat) s) := by
  simp only [exec, execPwmDuty, Run.outcome_eq, Run.state_done]

theorem exec_dataFrame (red green : Plane) (s : State) : exec (.dataFrame red green) s = .next (sendPlanes red green s) := by
  simp only [exec, execDataFrame, Run.outcome_eq, Run.state_done]

theorem exec_clearFrame (s : State) : exec .clearFrame s = .next (sendClearFrame s) := by
  simp only [exec, execClearFrame, Run.outcome_eq, Run.state_done]

/-- Every instruction goes on: it answers a next state, whatever the state and the operands (R184, R186). -/
theorem exec_isNext (i : Instr) (s : State) : ∃ t, exec i s = .next t := by
  cases i <;> exact ⟨_, rfl⟩

/-- `SEL_ONE` in range (R104). -/
theorem selOne_done (i : Nat) (hi : i < 4) (s : State) : selOne i s = .done { s with
    lines := { s.lines with cs := config.csDeselectLevel, clk := config.clkIdle }
    traceRev := (selectOneEvents i).reverse ++ s.traceRev
    sr := onlyChip i
    chips := observeMany i .deselected (shiftIn .selected (PerChip.const .deselected))
      (observeShift (PerChip.const .deselected) (shiftIn .selected (PerChip.const .deselected))
        (observeMany 4 .deselected s.sr s.chips)) } := by
  have hn : config.n = 4 := rfl
  rw [selOne, hn, if_pos hi, injectFlag_eq _ _ (by rw [selNone_eq]), selNone_eq]
  simp only [selectOneEvents, List.reverse_append, List.append_assoc]

/-- `SEL_ONE` out of range: the nine events of `SEL_NONE`, then the fault (R104, R181). -/
theorem selOne_raised (i : Nat) (hi : 4 ≤ i) (s : State) :
    selOne i s = .raised (raise .addressingError (indexInfo i) (selNone s)) := by
  have hn : config.n = 4 := rfl
  rw [selOne, hn, if_neg (by omega)]

/-- After `SEL_ONE` in range the record of a chip is what it was, with its frame in progress closed if it was selected. -/
theorem selOne_chips (i : Nat) (sr : PerChip ChainCell) (chips : PerChip Received) (h : ∀ k, (chips.get k).legal (sr.get k))
    (k : Fin 4) :
    (observeMany i .deselected (shiftIn .selected (PerChip.const .deselected))
      (observeShift (PerChip.const .deselected) (shiftIn .selected (PerChip.const .deselected))
        (observeMany 4 .deselected sr chips))).get k = (chips.get k).settled (sr.get k) := by
  have hrx : ∀ k, ((observeMany 4 .deselected sr chips).get k).rx = [] := by
    intro k
    rw [observeMany_deselect sr chips k h]
    have hk := h k
    revert hk
    cases sr.get k <;> simp [Received.settled, Received.legal]
  have hs : observeShift (PerChip.const .deselected) (shiftIn .selected (PerChip.const .deselected))
      (observeMany 4 .deselected sr chips) = observeMany 4 .deselected sr chips :=
    PerChip.ext_get fun k => by rw [observeShift_get]; exact Received.edge_of_empty _ (hrx k) _ _
  rw [hs, observeMany_noFrame _ _ _ _ hrx, observeMany_deselect sr chips k h]

/-- `WR_DATA` with valid planes (R142). -/
theorem wrData_done (s : State) (h : s.planesValid = true) : wrData s = .done (sendPlanes s.red s.green s) := by
  rw [wrData, if_pos h]

/-- `WR_DATA` before any `EXTRACT` (R142, R183). -/
theorem wrData_raised (s : State) (h : s.planesValid = false) : wrData s = .raised (raise .uninitialised 1 s) := by
  rw [wrData, h]
  rfl

/-- `BEGIN` with a valid intensity command (R160). -/
theorem beginInit_done (s : State) (h : s.icmdValid = true) :
    beginInit s = .done (broadcasts (initCommands s.icmd) s) := by
  rw [beginInit, if_pos h]

/-- `BEGIN` before any `SET_INTENSITY` (R160, R183). -/
theorem beginInit_raised (s : State) (h : s.icmdValid = false) : beginInit s = .raised (raise .uninitialised 0 s) := by
  rw [beginInit, h]
  rfl

theorem initCommands_eq (icmd : Command) : initCommands icmd = initWords icmd := rfl

/-- Broadcasts one after another: the last word stays in `CMDSR`, and the events are those of each in turn (R160). -/
theorem broadcasts_eq (cs : List Command) (c : Command) (s : State) : broadcasts (cs ++ [c]) s = { s with
    cmdsr := c
    lines := ⟨config.clkIdle, config.csDeselectLevel, c.getLsbD 0, true⟩
    traceRev := ((cs ++ [c]).flatMap broadcastEvents).reverse ++ s.traceRev
    sr := PerChip.const .deselected
    chips := (broadcasts (cs ++ [c]) s).chips } := by
  induction cs generalizing s with
  | nil => simp [broadcasts, broadcast_eq]
  | cons b bs ih =>
    rw [List.cons_append, broadcasts, ih, broadcast_eq]
    simp

/-- Broadcasts with no frame open: every chip records the words, in order (R160). -/
theorem broadcasts_chips (cs : List Command) (s : State) (h : NoFrameOpen s) (k : Fin 4) :
    (broadcasts cs s).chips.get k = ⟨[], (s.chips.get k).frames ++ cs.map commandFrame⟩ := by
  induction cs generalizing s with
  | nil => simp [broadcasts, ← h k]
  | cons c cs ih =>
    rw [broadcasts, ih (broadcast c s) (fun k => by rw [broadcast_chips c s h k])]
    simp [broadcast_chips c s h k]

/-- The part of `SHOW` for one chip: it cannot raise (R166, C8). -/
theorem showChip_done (c : Fin 4) (s : State) : showChip c s = .done (selNone (sendPlanes
    (extract (chipPos c).1 (chipPos c).2 (selOne c.val s).state).red
    (extract (chipPos c).1 (chipPos c).2 (selOne c.val s).state).green
    (extract (chipPos c).1 (chipPos c).2 (selOne c.val s).state))) := by
  rw [showChip, selOne_done c.val c.isLt]
  simp only [Run.andThen_done, Run.state_done]
  rw [wrData_done _ rfl]
  rfl

theorem chipPos_eq (c : Fin 4) : ((chipPos c).1.toNat, (chipPos c).2.toNat) = gridOf c := by
  revert c
  decide

/-- The part of `SHOW` for one chip, in closed form but for the observer (R166). -/
theorem showChip_eq (c : Fin 4) (s : State) : showChip c s = .done { s with
    lines := ⟨config.clkIdle, config.csDeselectLevel, (extract (chipPos c).1 (chipPos c).2 s).green.getLsbD 127, true⟩
    red := (extract (chipPos c).1 (chipPos c).2 s).red
    green := (extract (chipPos c).1 (chipPos c).2 s).green
    planesValid := true
    sr := PerChip.const .deselected
    traceRev := (showChipEvents s c).reverse ++ s.traceRev
    pxTraceRev := (rectangle (gridOf c).1 (gridOf c).2).reverse ++ s.pxTraceRev
    chips := (showChip c s).state.chips } := by
  have hg := chipPos_eq c
  have h1 : (chipPos c).1.toNat = (gridOf c).1 := congrArg Prod.fst hg
  have h2 : (chipPos c).2.toNat = (gridOf c).2 := congrArg Prod.snd hg
  have hp := extract_planes_congr (chipPos c).1 (chipPos c).2 (s := s) (t := (selOne c.val s).state) (by
    rw [selOne_done c.val c.isLt, Run.state_done])
  have hs : ∀ u : State, selNone (sendPlanes u.red u.green u) = { u with
      lines := ⟨config.clkIdle, config.csDeselectLevel, u.green.getLsbD 127, true⟩
      traceRev := (selectEvents config.csDeselectLevel).reverse ++
        ((bitEvents (dataFrame u.red.getLsbD u.green.getLsbD)).reverse ++ u.traceRev)
      sr := PerChip.const .deselected
      chips := (selNone (sendPlanes u.red u.green u)).chips } := fun u => by
    rw [selNone_eq, sendPlanes_eq]
  rw [showChip_done, Run.state_done]
  refine congrArg Run.done ?_
  rw [hs]
  generalize (selNone _).chips = after
  have hpx : (selOne c.val s).state.pixels = s.pixels := by rw [selOne_done c.val c.isLt, Run.state_done]
  have hpv : ∀ u, (extract (chipPos c).1 (chipPos c).2 u).planesValid = true := fun _ => rfl
  have hpt : ∀ u, (extract (chipPos c).1 (chipPos c).2 u).pxTraceRev = (rectangle (gridOf c).1 (gridOf c).2).reverse ++
      u.pxTraceRev := fun u => by rw [extract_frame, readCoords_eq, h1, h2]
  rw [dataFrame_extract, hp.1, hp.2, redCell_congr hpx, greenCell_congr hpx, h1, h2]
  simp only [extract_cmdsr, extract_icmd, extract_icmdValid, extract_fault, extract_faultCode,
    extract_faultInfo, extract_busy, extract_op, extract_arg, extract_upc, extract_traceRev, extract_pixels, extract_host,
    hpv, hpt, selOne_done c.val c.isLt, Run.state_done, showChipEvents, chipFrame, List.reverse_append, List.append_assoc]

/-- The observer's part of `SHOW` for one chip: that chip alone records the frame (R166). -/
theorem showChip_chips (c : Fin 4) (s : State) (h : NoFrameOpen s) (k : Fin 4) : (showChip c s).state.chips.get k =
    if k = c then ⟨[], (s.chips.get k).frames ++ [chipFrame s c]⟩ else s.chips.get k := by
  have hg := chipPos_eq c
  have h1 : (chipPos c).1.toNat = (gridOf c).1 := congrArg Prod.fst hg
  have h2 : (chipPos c).2.toNat = (gridOf c).2 := congrArg Prod.snd hg
  have hpx : (selOne c.val s).state.pixels = s.pixels := by rw [selOne_done c.val c.isLt, Run.state_done]
  have hsr : (selOne c.val s).state.sr = onlyChip c.val := by rw [selOne_done c.val c.isLt, Run.state_done]
  have hch : (selOne c.val s).state.chips = s.chips := by
    rw [selOne_done c.val c.isLt, Run.state_done]
    have h4 : observeMany 4 .deselected s.sr s.chips = s.chips := observeMany_noFrame _ _ _ _ h
    have h5 : observeShift (PerChip.const .deselected) (shiftIn .selected (PerChip.const .deselected)) s.chips = s.chips :=
      PerChip.ext_get fun k => by rw [observeShift_get]; exact (s.chips.get k).edge_of_empty (h k) _ _
    rw [h4, h5, observeMany_noFrame _ _ _ _ h]
  have hne : chipFrame s c ≠ [] := by simp [chipFrame, dataFrame, leading]
  rw [showChip_done, Run.state_done, selNone_eq, sendPlanes_eq, dataFrame_extract, redCell_congr hpx, greenCell_congr hpx,
    h1, h2]
  simp only [extract_sr, extract_chips, hsr, hch]
  rw [observeMany_deselect _ _ _ (fun k => by
    rw [takeBits_get, onlyChip_get]
    intro hk
    rw [if_neg hk]
    exact h k), takeBits_get, onlyChip_get]
  by_cases hk : k = c
  · subst hk
    simp only [if_true, Received.settled, Received.close, h k, List.nil_append]
    rw [if_neg (by simpa [chipFrame] using hne)]
    rfl
  · have hk' : k.val ≠ c.val := fun e => hk (Fin.ext e)
    simp [hk, hk', Received.settled]

/-- `CLEAR` in closed form (R164). -/
theorem clearChips_eq (s : State) : clearChips s = { s with
    lines := ⟨config.clkIdle, config.csDeselectLevel, false, true⟩
    traceRev := (selectEvents config.csSelectLevel ++ bitEvents clearFrame ++ selectEvents config.csDeselectLevel).reverse ++
      s.traceRev
    sr := PerChip.const .deselected
    chips := (clearChips s).chips } := by
  generalize hc : (clearChips s).chips = after
  rw [← hc, clearChips, selNone_eq, sendClearFrame_eq, selAll_eq]
  simp only [List.reverse_append, List.append_assoc]

/-- The observer's part of `CLEAR` (R164). -/
theorem clearChips_chips (s : State) (h : NoFrameOpen s) (k : Fin 4) :
    (clearChips s).chips.get k = ⟨[], (s.chips.get k).frames ++ [clearFrame]⟩ := by
  have hk := h k
  rw [clearChips, selNone_eq, sendClearFrame_eq, selAll_eq]
  simp only [observeMany_close, takeBits_get, PerChip.get_const, if_true, observeMany_noFrame _ _ _ _ h]
  have hne : clearFrame ≠ [] := List.cons_ne_nil _ _
  simp [Received.close, hk, hne]

theorem chipFrame_congr {s t : State} (h : t.pixels = s.pixels) (c : Fin 4) : chipFrame t c = chipFrame s c := by
  rw [chipFrame, chipFrame, redCell_congr h, greenCell_congr h]

theorem showChipEvents_congr {s t : State} (h : t.pixels = s.pixels) (c : Fin 4) :
    showChipEvents t c = showChipEvents s c := by
  rw [showChipEvents, showChipEvents, chipFrame_congr h]

theorem showChip_pixels (c : Fin 4) (s : State) : (showChip c s).state.pixels = s.pixels := by
  rw [showChip_eq, Run.state_done]

/-- `SHOW` is `SYS_EN` to all and its four parts, each run to its end (R166, C8). -/
theorem showAll_done (s : State) : showAll s =
    .done (showChip 3 (showChip 2 (showChip 1 (showChip 0 (broadcast config.sysEn s)).state).state).state).state := by
  have h : ∀ c u, showChip c u = .done (showChip c u).state := fun c u => by rw [showChip_eq, Run.state_done]
  rw [showAll, h 0, Run.andThen_done, h 1, Run.andThen_done, h 2, Run.andThen_done, h 3,
    Run.state_done]

/-- `SHOW` in closed form but for the observer: what is left is the last chip's (R166). -/
theorem showAll_eq (s : State) : (showAll s).state = { s with
    lines := ⟨config.clkIdle, config.csDeselectLevel, (extract 1 1 s).green.getLsbD 127, true⟩
    cmdsr := 0x802
    red := (extract 1 1 s).red
    green := (extract 1 1 s).green
    planesValid := true
    sr := PerChip.const .deselected
    traceRev := (showEvents s).reverse ++ s.traceRev
    pxTraceRev := (rectangle 0 0 ++ rectangle 0 1 ++ rectangle 1 0 ++ rectangle 1 1).reverse ++ s.pxTraceRev
    chips := (showAll s).state.chips } := by
  have e0 := broadcast_eq config.sysEn s
  have step : ∀ (c : Fin 4) (u t : State), t.pixels = s.pixels → u = (showChip c t).state →
      u = { t with
        lines := ⟨config.clkIdle, config.csDeselectLevel, (extract (chipPos c).1 (chipPos c).2 s).green.getLsbD 127, true⟩
        red := (extract (chipPos c).1 (chipPos c).2 s).red
        green := (extract (chipPos c).1 (chipPos c).2 s).green
        planesValid := true
        sr := PerChip.const .deselected
        traceRev := (showChipEvents s c).reverse ++ t.traceRev
        pxTraceRev := (rectangle (gridOf c).1 (gridOf c).2).reverse ++ t.pxTraceRev
        chips := u.chips } ∧ u.pixels = s.pixels := by
    intro c u t hp hu
    have hx := extract_planes_congr (chipPos c).1 (chipPos c).2 hp
    have h := congrArg Run.state (showChip_eq c t)
    rw [hx.1, hx.2, showChipEvents_congr hp, Run.state_done, ← hu] at h
    exact ⟨h, by rw [h]; exact hp⟩
  rw [showAll_done, Run.state_done]
  generalize hs0 : broadcast config.sysEn s = s0 at e0 ⊢
  obtain ⟨e1, p1⟩ := step 0 _ s0 (by rw [e0]) rfl
  generalize (showChip 0 s0).state = s1 at e1 p1 ⊢
  obtain ⟨e2, p2⟩ := step 1 _ s1 p1 rfl
  generalize (showChip 1 s1).state = s2 at e2 p2 ⊢
  obtain ⟨e3, p3⟩ := step 2 _ s2 p2 rfl
  generalize (showChip 2 s2).state = s3 at e3 p3 ⊢
  obtain ⟨e4, -⟩ := step 3 _ s3 p3 rfl
  generalize (showChip 3 s3).state = s4 at e4 ⊢
  generalize s4.chips = after at *
  rw [e4, e3, e2, e1, e0]
  simp only [showEvents, List.reverse_append, List.append_assoc]
  rfl

/-- The observer's part of `SHOW` (R166). -/
theorem showAll_chips (s : State) (h : NoFrameOpen s) (k : Fin 4) :
    (showAll s).state.chips.get k = ⟨[], (s.chips.get k).frames ++ [commandFrame 0x802, chipFrame s k]⟩ := by
  have hb : (broadcast config.sysEn s).pixels = s.pixels := by rw [broadcast_eq]
  have hp : ∀ c u, (showChip c u).state.pixels = u.pixels := showChip_pixels
  have hn : ∀ c u, NoFrameOpen u → NoFrameOpen (showChip c u).state := fun c u hu k => by
    rw [showChip_chips c u hu k]
    split
    · rfl
    · exact hu k
  have n0 : NoFrameOpen (broadcast config.sysEn s) := fun k => by rw [broadcast_chips _ s h k]
  rw [showAll_done, Run.state_done, showChip_chips 3 _ (hn _ _ (hn _ _ (hn _ _ n0))),
    showChip_chips 2 _ (hn _ _ (hn _ _ n0)), showChip_chips 1 _ (hn _ _ n0), showChip_chips 0 _ n0,
    broadcast_chips _ s h k]
  simp only [chipFrame_congr (hp _ _), chipFrame_congr hb]
  fin_cases k <;> simp [config]

/-! ## The composites, each in one lemma: what to cite -/

/-- Broadcasts one after another (R160). -/
theorem broadcasts_spec (cs : List Command) (c : Command) (s : State) : ∃ chips, broadcasts (cs ++ [c]) s = { s with
    cmdsr := c
    lines := ⟨config.clkIdle, config.csDeselectLevel, c.getLsbD 0, true⟩
    traceRev := ((cs ++ [c]).flatMap broadcastEvents).reverse ++ s.traceRev
    sr := PerChip.const .deselected
    chips := chips } ∧
    (NoFrameOpen s → ∀ k, chips.get k = ⟨[], (s.chips.get k).frames ++ (cs ++ [c]).map commandFrame⟩) :=
  ⟨_, broadcasts_eq cs c s, fun h k => broadcasts_chips (cs ++ [c]) s h k⟩

/-- `CLEAR` (R164). -/
theorem clearChips_spec (s : State) : ∃ chips, clearChips s = { s with
    lines := ⟨config.clkIdle, config.csDeselectLevel, false, true⟩
    traceRev := (selectEvents config.csSelectLevel ++ bitEvents clearFrame ++ selectEvents config.csDeselectLevel).reverse ++
      s.traceRev
    sr := PerChip.const .deselected
    chips := chips } ∧
    (NoFrameOpen s → ∀ k, chips.get k = ⟨[], (s.chips.get k).frames ++ [clearFrame]⟩) :=
  ⟨_, clearChips_eq s, clearChips_chips s⟩

/-- `SHOW` (R166). -/
theorem showAll_spec (s : State) : ∃ red green chips, (showAll s).state = { s with
    lines := ⟨config.clkIdle, config.csDeselectLevel, green.getLsbD 127, true⟩
    cmdsr := 0x802
    red := red
    green := green
    planesValid := true
    sr := PerChip.const .deselected
    traceRev := (showEvents s).reverse ++ s.traceRev
    pxTraceRev := (rectangle 0 0 ++ rectangle 0 1 ++ rectangle 1 0 ++ rectangle 1 1).reverse ++ s.pxTraceRev
    chips := chips } ∧
    (∀ k, k < 128 → red.getLsbD k = redCell s 1 1 k ∧ green.getLsbD k = greenCell s 1 1 k) ∧
    (NoFrameOpen s → ∀ k, chips.get k = ⟨[], (s.chips.get k).frames ++ [commandFrame 0x802, chipFrame s k]⟩) :=
  ⟨_, _, _, showAll_eq s, fun k hk => ⟨extract_red 1 1 s k hk, extract_green 1 1 s k hk⟩, showAll_chips s⟩

end Sys2Proof.Machine
end

