-- ==== Sys2Proof/Laws/Micro.lean ====
section
/-! SUPPORT. What the lists of micro-operations do, piece by piece: each piece performs the operation it expands (R30). -/

namespace Sys2Proof.Machine

open Sys2Proof.Safety

theorem performAll_append (a b : List MicroOp) (s : State) :
    performAll (a ++ b) s = (performAll a s).andThen (performAll b) := by
  induction a generalizing s with
  | nil => rfl
  | cons m ms ih =>
    rw [List.cons_append, performAll, performAll]
    cases perform m s with
    | done s => exact ih s
    | raised s => rfl

theorem performAll_pulseOps (m : Nat) (s : State) : performAll (pulseOps m) s = .done (pulses m s) := by
  induction m generalizing s with
  | zero => rfl
  | succ m ih =>
    have h : pulseOps (m + 1) =
        [.drive .clk (.const config.clkFirst), .drive .clk (.const config.clkIdle)] ++ pulseOps m := by
      simp [pulseOps, List.range_succ_eq_map, List.flatMap_map]
    rw [h, performAll_append]
    exact ih (pulseClk s)

theorem performAll_selectOps (level : Level) (s : State) :
    performAll (selectOps level) s = .done (selectAtLevel level s) :=
  performAll_pulseOps config.n (drive .cs level s)

theorem performAll_bitOps (v : Source) (s : State) (h : v.level (drive .wr false s) = v.level s) :
    performAll (bitOps v) s = .done (wrBit (v.level s) s) := by
  simp only [bitOps, performAll, perform, Run.andThen_done, wrBit]
  simp only [Source.level] at h ⊢
  rw [h]

/-- Bit cells whose levels come from sources that bit cells do not change. -/
theorem performAll_cells {α : Type} (f : α → Source) (as : List α) (s : State)
    (h : ∀ a ∈ as, ∀ b s, (f a).level (wrBit b s) = (f a).level s)
    (h0 : ∀ a ∈ as, ∀ s, (f a).level (drive .wr false s) = (f a).level s) :
    performAll (as.flatMap fun a => bitOps (f a)) s = .done (wrBits (as.map fun a => (f a).level s) s) := by
  induction as generalizing s with
  | nil => rfl
  | cons a as ih =>
    rw [List.flatMap_cons, performAll_append, performAll_bitOps _ _ (h0 a List.mem_cons_self s), Run.andThen_done,
      ih _ (fun x hx => h x (List.mem_cons_of_mem _ hx)) (fun x hx => h0 x (List.mem_cons_of_mem _ hx))]
    rw [List.map_cons, wrBits]
    congr 2
    exact List.map_congr_left fun x hx => h x (List.mem_cons_of_mem _ hx) _ _

theorem drive_wr_false (s : State) : drive .wr false s = setLine .wr false s := by simp [drive]

theorem performAll_constOps (bits : List Level) (s : State) : performAll (constOps bits) s = .done (wrBits bits s) := by
  rw [constOps, performAll_cells _ _ _ (by intros; rfl) (by intros; rfl)]
  simp [Source.level]

theorem performAll_commandCells (s : State) :
    performAll ((List.range 12).reverse.flatMap fun b => bitOps (.cmdsr b)) s =
      .done (wrBits (commandBits s.cmdsr) s) := by
  rw [performAll_cells _ _ _ (by intros; rw [wrBit_eq]; rfl) (by intros; rw [drive_wr_false]; rfl), commandBits_eq]
  rfl

/-- The expansion of `WR_CMD`, for any load that puts `c` into `CMDSR`. -/
theorem performAll_commandOps (load : MicroOp) (c : Command) (s : State)
    (h : perform load s = .done { s with cmdsr := c }) : performAll (commandOps load) s = .done (sendCommand c s) := by
  rw [commandOps, performAll, h, Run.andThen_done, performAll_commandCells]
  rfl

theorem performAll_redCells (s : State) :
    performAll ((List.range config.planeBits).flatMap fun k => bitOps (.red k)) s = .done (wrBits (planeBits s.red) s) := by
  rw [performAll_cells _ _ _ (by intros; rw [wrBit_eq]; rfl) (by intros; rw [drive_wr_false]; rfl), planeBits_eq]
  rfl

theorem performAll_greenCells (s : State) :
    performAll ((List.range config.planeBits).flatMap fun k => bitOps (.green k)) s =
      .done (wrBits (planeBits s.green) s) := by
  rw [performAll_cells _ _ _ (by intros; rw [wrBit_eq]; rfl) (by intros; rw [drive_wr_false]; rfl), planeBits_eq]
  rfl

/-- The reads of `EXTRACT` at the positions listed; `PLANES_VALID` is set by the last cell (R30, R25). -/
theorem performAll_reads (r q : BitVec 1) (ps : List (Nat × Nat)) (s : State) :
    performAll (ps.map fun p => .read (pixelX q p.1) (pixelY r p.2) (cellIndex p.1 p.2)
      (cellIndex p.1 p.2 + 1 == config.planeBits)) s =
      .done { readCells r q ps s with
        planesValid := (ps.any fun p => cellIndex p.1 p.2 + 1 == config.planeBits) || s.planesValid } := by
  induction ps generalizing s with
  | nil => simp [performAll, readCells]
  | cons p ps ih =>
    rw [List.map_cons, performAll, perform, Run.andThen_done, ih]
    simp only [readCells_eq, readCells, readCell, recordRead, readAt, pixelAt, List.any_cons, Run.done.injEq,
      State.mk.injEq, and_self, true_and, and_true]
    cases (cellIndex p.1 p.2 + 1 == config.planeBits) <;> simp

theorem performAll_extractOps (r q : BitVec 1) (s : State) : performAll (extractOps r q) s = .done (extract r q s) := by
  have hl : (scanOrder.any fun p => cellIndex p.1 p.2 + 1 == config.planeBits) = true := by decide
  rw [extractOps, performAll_reads, hl]
  rfl

theorem wrBits_append (a b : List Level) (s : State) : wrBits (a ++ b) s = wrBits b (wrBits a s) := by
  induction a generalizing s with
  | nil => rfl
  | cons x a ih => exact ih (wrBit x s)

theorem performAll_wrDataOps (s : State) : performAll wrDataOps s = wrData s := by
  rw [wrDataOps, performAll]
  by_cases h : s.planesValid = true
  · have hp : perform .checkPlanes s = .done s := by simp [perform, h]
    rw [hp, Run.andThen_done, performAll_append, performAll_append, performAll_constOps, Run.andThen_done,
      performAll_redCells, Run.andThen_done, performAll_greenCells, wrData_done s h, sendPlanes, wrBits_append,
      wrBits_append]
    simp only [wrBits_eq]
  · have hf : s.planesValid = false := by simpa using h
    have hp : perform .checkPlanes s = .raised (raise .uninitialised 1 s) := by simp [perform, hf]
    rw [hp, Run.andThen_raised, wrData_raised s hf]

end Sys2Proof.Machine
end

