-- ==== Sys2Proof/Laws/PerInstr.lean ====
section
/-! SUPPORT. Per instruction: the encoding lies in the instruction's row of spec/opcode_table.json (its format, width, match
and mask; for the two long frames, which the table gives no mask, the leading ten bits and the width). -/

namespace Sys2Proof.Laws.RowPattern

/-- A row of the table: its width in bits, its mask and its match, bit 0 the least significant. -/
structure Row where
  width : Nat
  mask : Nat
  pattern : Nat
  deriving DecidableEq, Repr

/-- The row of an instruction, as spec/opcode_table.json has it. -/
def rowOf (i : Instr) : Row :=
  match i with
  | .selNone => ⟨16, 0xFFFF, 0x0000⟩
  | .selAll => ⟨16, 0xFFFF, 0x1000⟩
  | .selOne _ => ⟨16, 0xF000, 0x2000⟩
  | .wrCmd _ => ⟨16, 0xF000, 0x3000⟩
  | .extract _ _ => ⟨16, 0xFFFC, 0x4000⟩
  | .wrData => ⟨16, 0xFFFF, 0x5000⟩
  | .bcastCmd _ => ⟨16, 0xF000, 0x6000⟩
  | .beginInit => ⟨16, 0xFFFF, 0x7000⟩
  | .setIntensity _ => ⟨16, 0xF000, 0x8000⟩
  | .clear => ⟨16, 0xFFFF, 0x9000⟩
  | .showFrame => ⟨16, 0xFFFF, 0xA000⟩
  | .sysDis => ⟨12, 0xFFF, 0x800⟩
  | .sysEn => ⟨12, 0xFFF, 0x802⟩
  | .ledOff => ⟨12, 0xFFF, 0x804⟩
  | .ledOn => ⟨12, 0xFFF, 0x806⟩
  | .blinkOff => ⟨12, 0xFFF, 0x810⟩
  | .blinkOn => ⟨12, 0xFFF, 0x812⟩
  | .slaveMode => ⟨12, 0xFFF, 0x820⟩
  | .rcMasterMode => ⟨12, 0xFFF, 0x830⟩
  | .extClkMasterMode => ⟨12, 0xFFF, 0x838⟩
  | .comNmos8 => ⟨12, 0xFFF, 0x840⟩
  | .comNmos16 => ⟨12, 0xFFF, 0x848⟩
  | .comPmos8 => ⟨12, 0xFFF, 0x850⟩
  | .comPmos16 => ⟨12, 0xFFF, 0x858⟩
  | .pwmDuty _ => ⟨12, 0xFE1, 0x940⟩
  | .dataFrame _ _ => ⟨266, 0x3FF, 0x5⟩
  | .clearFrame => ⟨394, 0x3FF, 0x5⟩

/-- What is presented lies in a row: it has the row's width and, under the mask, the row's match. -/
def InRow (p : Presented) (row : Row) : Prop :=
  match p with
  | .request w => row.width = 16 ∧ w &&& BitVec.ofNat 16 row.mask = BitVec.ofNat 16 row.pattern
  | .command c => row.width = 12 ∧ c &&& BitVec.ofNat 12 row.mask = BitVec.ofNat 12 row.pattern
  | .longFrame n w => row.width = n ∧ w % (row.mask + 1) = row.pattern

/-- The encoding of `i` lies in the row of `i`. -/
def Statement (i : Instr) : Prop := InRow (encode i) (rowOf i)

/-- A request word lies in the row of its operation code, whose mask covers the code alone. -/
theorem requestWord_mask (op : BitVec 4) (arg : BitVec 12) : requestWord op arg &&& 0xF000 = requestWord op 0 := by
  apply BitVec.eq_of_getLsbD_eq
  intro i hi
  have hm : (0xF000 : BitVec 16).getLsbD i = decide (12 ≤ i) := by
    revert hi
    revert i
    decide
  rw [requestWord, requestWord, BitVec.getLsbD_and, BitVec.getLsbD_append, BitVec.getLsbD_append, hm]
  by_cases h : i < 12
  · have h' : ¬ 12 ≤ i := by omega
    simp [h, h']
  · have h' : 12 ≤ i := by omega
    simp [h, h']

theorem selNone : Statement .selNone := ⟨rfl, rfl⟩

theorem selAll : Statement .selAll := ⟨rfl, rfl⟩

theorem selOne (i : Nat) : Statement (.selOne i) :=
  ⟨rfl, (requestWord_mask 0x2 _).trans (by decide : requestWord 0x2 0 = 0x2000)⟩

theorem wrCmd (c : Nat) : Statement (.wrCmd c) :=
  ⟨rfl, (requestWord_mask 0x3 _).trans (by decide : requestWord 0x3 0 = 0x3000)⟩

theorem extract (r q : BitVec 1) : Statement (.extract r q) :=
  ⟨rfl, (by decide : ∀ r q : BitVec 1, requestWord 0x4 ((0 : BitVec 10) ++ (r ++ q)) &&& 0xFFFC = 0x4000) r q⟩

theorem wrData : Statement .wrData := ⟨rfl, rfl⟩

theorem bcastCmd (c : Nat) : Statement (.bcastCmd c) :=
  ⟨rfl, (requestWord_mask 0x6 _).trans (by decide : requestWord 0x6 0 = 0x6000)⟩

theorem beginInit : Statement .beginInit := ⟨rfl, rfl⟩

theorem setIntensity (l : Int) : Statement (.setIntensity l) :=
  ⟨rfl, (requestWord_mask 0x8 _).trans (by decide : requestWord 0x8 0 = 0x8000)⟩

theorem clear : Statement .clear := ⟨rfl, rfl⟩

theorem showFrame : Statement .showFrame := ⟨rfl, rfl⟩

theorem sysDis : Statement .sysDis := ⟨rfl, rfl⟩

theorem sysEn : Statement .sysEn := ⟨rfl, rfl⟩

theorem ledOff : Statement .ledOff := ⟨rfl, rfl⟩

theorem ledOn : Statement .ledOn := ⟨rfl, rfl⟩

theorem blinkOff : Statement .blinkOff := ⟨rfl, rfl⟩

theorem blinkOn : Statement .blinkOn := ⟨rfl, rfl⟩

theorem slaveMode : Statement .slaveMode := ⟨rfl, rfl⟩

theorem rcMasterMode : Statement .rcMasterMode := ⟨rfl, rfl⟩

theorem extClkMasterMode : Statement .extClkMasterMode := ⟨rfl, rfl⟩

theorem comNmos8 : Statement .comNmos8 := ⟨rfl, rfl⟩

theorem comNmos16 : Statement .comNmos16 := ⟨rfl, rfl⟩

theorem comPmos8 : Statement .comPmos8 := ⟨rfl, rfl⟩

theorem comPmos16 : Statement .comPmos16 := ⟨rfl, rfl⟩

theorem pwmDuty (level : BitVec 4) : Statement (.pwmDuty level) :=
  ⟨rfl, (by decide : ∀ level : BitVec 4, pwmWord level &&& 0xFE1 = 0x940) level⟩

theorem dataFrame (red green : Plane) : Statement (.dataFrame red green) :=
  ⟨rfl, by simp only [rowOf, dataFrameWord, frameHead]; omega⟩

theorem clearFrame : Statement .clearFrame := ⟨rfl, by decide⟩

end Sys2Proof.Laws.RowPattern
end

