-- ==== Sys2Proof/Laws/Rows.lean ====
section
/-! SUPPORT. The frames the engine sends are rows of the table, and what each does to the view of a chip's RAM (R57, R78 to
R80). -/

namespace Sys2Proof

theorem natOfBits_append (a b : List Level) : natOfBits (a ++ b) = natOfBits a + 2 ^ a.length * natOfBits b := by
  induction a with
  | nil => simp [natOfBits]
  | cons x a ih =>
    rw [List.cons_append, natOfBits, natOfBits, ih, List.length_cons, Nat.pow_succ]
    ring

theorem natOfBits_lt (a : List Level) : natOfBits a < 2 ^ a.length := by
  induction a with
  | nil => simp [natOfBits]
  | cons x a ih =>
    rw [natOfBits, List.length_cons, Nat.pow_succ]
    cases x <;> simp only [Bool.toNat_false, Bool.toNat_true] <;> omega

end Sys2Proof

namespace Sys2Proof.Machine

open Sys2Proof.Safety

/-- The twelve bits of a command word, read back (R77). -/
theorem commandOfBits_commandFrame (c : Command) : commandOfBits (commandFrame c) = c := by
  revert c
  decide +kernel

/-- A command frame is a row exactly if its word is in the table (R80). -/
theorem isRow_commandFrame (c : Command) : isRow (commandFrame c) = (decodeCommand c).isSome := by
  have h : (commandFrame c).length = 12 := by simp [commandFrame]
  rw [isRow, frameOfBits, if_pos h, commandOfBits_commandFrame, decode]

theorem dataFrame_length (red green : Nat → Level) : (dataFrame red green).length = 266 := by
  simp [dataFrame, leading]

/-- Every data frame is a row (R78). -/
theorem isRow_dataFrame (red green : Nat → Level) : isRow (dataFrame red green) = true := by
  have hl := dataFrame_length red green
  have hr := natOfBits_lt ((List.range 128).map red)
  have hg := natOfBits_lt ((List.range 128).map green)
  have hw : natOfBits (dataFrame red green) =
      5 + 2 ^ 10 * (natOfBits ((List.range 128).map red) + 2 ^ 128 * natOfBits ((List.range 128).map green)) := by
    rw [dataFrame, List.append_assoc, natOfBits_append, natOfBits_append, List.length_map, List.length_range]
    rfl
  rw [List.length_map, List.length_range] at hr hg
  rw [isRow, frameOfBits, if_neg (by omega), hl, decode, decodeLongFrame, if_pos rfl, hw, if_pos (by
    rw [frameHead]
    omega)]
  rfl

theorem isRow_clearFrame : isRow clearFrame = true := by decide +kernel

/-- The payload of a data frame. -/
theorem payload_dataFrame (red green : Nat → Level) :
    payload (dataFrame red green) = some ((List.range 128).map red ++ (List.range 128).map green) := by
  rw [payload, if_pos ⟨.inl (dataFrame_length red green), rfl⟩]
  rfl

theorem payload_clearFrame : payload clearFrame = some (List.replicate 384 false) := by
  rw [payload, if_pos ⟨.inr (by rw [clearFrame, List.length_append, List.length_replicate]; rfl), rfl⟩]
  rfl

/-- A frame with a payload decides the bits it reaches, whatever came before (R57). -/
theorem ramBit_payload (fs : List (List Level)) (f bits : List Level) (j : Nat) (h : payload f = some bits)
    (hj : j < bits.length) : ramBit (fs ++ [f]) j = some bits[j] := by
  simp [ramBit, ramAfter, h, hj]

/-- A command of the table leaves the RAM as it was (R57). -/
theorem ramBit_command (fs : List (List Level)) (c : Command) (j : Nat) (h : (decodeCommand c).isSome = true) :
    ramBit (fs ++ [commandFrame c]) j = ramBit fs j := by
  have hl : (commandFrame c).length = 12 := by simp [commandFrame]
  have hp : payload (commandFrame c) = none := by rw [payload, if_neg (by rw [hl]; omega)]
  have hc : isCommandFrame (commandFrame c) = true := by rw [isCommandFrame, hl, commandOfBits_commandFrame, h]; rfl
  simp [ramBit, ramAfter, hp, hc]

end Sys2Proof.Machine
end

