-- ==== Sys2Proof/Laws/Step.lean ====
section
/-! SUPPORT. What a step from an idle state can do, once (R31, R205, R213). -/

namespace Sys2Proof.Machine

/-- Every way an idle machine can come to a next state. -/
theorem step_idle_cases {s t : State} (hb : s.busy = false) (h : step s = .next t) :
    (s.host = [] ∧ t = s) ∨
    (∃ rest, s.host = .reset :: rest ∧ t = resetEngine { s with host := rest }) ∨
    (∃ x y v rest, s.host = .pixel x y v :: rest ∧ t = writePixel x y v { s with host := rest }) ∨
    (∃ w rest, s.host = .present (.request w) :: rest ∧ decodeRequest w = none ∧
      t = illegalRequest w { s with host := rest }) ∨
    (∃ w rest i u, s.host = .present (.request w) :: rest ∧ decodeRequest w = some i ∧
      exec i (accept w { s with host := rest }) = .next u ∧ t = retire (lastMicro i { s with host := rest }) u) ∨
    (∃ p rest i, s.host = .present p :: rest ∧ (∀ w, p ≠ .request w) ∧ decode p = some i ∧
      exec i { s with host := rest } = .next t) := by
  have frame : ∀ (row : Option Instr) (u : State),
      runAction (takeFrame row u) s = .next t → ∃ i, row = some i ∧ exec i u = .next t := by
    intro row u hu
    cases row with
    | none => simp [takeFrame, runAction] at hu
    | some i => exact ⟨i, rfl, hu⟩
  have hb' : ¬ s.busy = true := by simp [hb]
  rw [step, nextAction] at h
  cases hh : s.host with
  | nil =>
    simp only [hh, hb, Bool.false_eq_true, if_false, runAction, Host.Outcome.next.injEq] at h
    exact .inl ⟨rfl, h.symm⟩
  | cons move rest =>
    rw [hh] at h
    simp only [if_neg hb'] at h
    cases move with
    | reset =>
      simp only [takeMove, runAction, Host.Outcome.next.injEq] at h
      exact .inr (.inl ⟨rest, rfl, h.symm⟩)
    | pixel x y v =>
      simp only [takeMove, runAction, Host.Outcome.next.injEq] at h
      exact .inr (.inr (.inl ⟨x, y, v, rest, rfl, h.symm⟩))
    | present p =>
      cases p with
      | request w =>
        simp only [takeMove] at h
        cases hd : decodeRequest w with
        | none =>
          simp only [hd, runAction, Host.Outcome.next.injEq] at h
          exact .inr (.inr (.inr (.inl ⟨w, rest, rfl, hd, h.symm⟩)))
        | some i =>
          simp only [hd, runAction] at h
          obtain ⟨u, hu⟩ := exec_isNext i (accept w { s with host := rest })
          simp only [hu, retireOutcome, Host.Outcome.next.injEq] at h
          exact .inr (.inr (.inr (.inr (.inl ⟨w, rest, i, u, rfl, hd, hu, h.symm⟩))))
      | command c =>
        obtain ⟨i, hi, he⟩ := frame (decodeCommand c) _ h
        exact .inr (.inr (.inr (.inr (.inr ⟨.command c, rest, i, rfl, by simp, hi, he⟩))))
      | longFrame n w =>
        obtain ⟨i, hi, he⟩ := frame (decodeLongFrame n w) _ h
        exact .inr (.inr (.inr (.inr (.inr ⟨.longFrame n w, rest, i, rfl, by simp, hi, he⟩))))

end Sys2Proof.Machine
end

