-- ==== Sys2Proof/Tests/Slice0.lean ====
section
/-! SUPPORT. The model's own tests: ill-formed terms, decoding of words written out from the spec, one-step checks against the
vectors of 95_test_vectors.md, and a witness for every statement that has hypotheses. -/

open Sys2Proof Sys2Proof.Machine Sys2Proof.Safety Sys2Proof.Claims

namespace Sys2Proof.Tests

/-! ## WellFormed refuses (R72, R73) -/

theorem test_selOne_13_bits_refused : WellFormed (.selOne 4096) = false := by decide
theorem test_wrCmd_13_bits_refused : WellFormed (.wrCmd 4096) = false := by decide
theorem test_bcastCmd_13_bits_refused : WellFormed (.bcastCmd 4096) = false := by decide
theorem test_setIntensity_above_refused : WellFormed (.setIntensity 2048) = false := by decide
theorem test_setIntensity_below_refused : WellFormed (.setIntensity (-2049)) = false := by decide
theorem test_edges_accepted : WellFormed (.selOne 4095) && WellFormed (.wrCmd 4095) && WellFormed (.bcastCmd 4095) &&
    WellFormed (.setIntensity 2047) && WellFormed (.setIntensity (-2048)) = true := by decide

/-- The configuration meets the constraints of R6. -/
theorem test_config_wf : config.wf = true := by decide

/-! ## Decoding, bit by bit from R72, R80, R78, R79 -/

theorem test_decode_selNone : decodeTableWord 16 0b0000000000000000 = some .selNone := by decide
theorem test_decode_selAll : decodeTableWord 16 0b0001000000000000 = some .selAll := by decide
/-- V5.10. -/
theorem test_decode_selOne : decodeTableWord 16 0b0010111111111111 = some (.selOne 4095) := by decide
theorem test_decode_wrCmd : decodeTableWord 16 0b0011101010111100 = some (.wrCmd 0xABC) := by decide
/-- V3.6: `0x4002` is `EXTRACT 1, 0`. -/
theorem test_decode_extract : decodeTableWord 16 0b0100000000000010 = some (.extract 1 0) := by decide
theorem test_decode_wrData : decodeTableWord 16 0b0101000000000000 = some .wrData := by decide
theorem test_decode_bcastCmd : decodeTableWord 16 0b0110100000000110 = some (.bcastCmd 0x806) := by decide
theorem test_decode_begin : decodeTableWord 16 0b0111000000000000 = some .beginInit := by decide
/-- V5.9. -/
theorem test_decode_setIntensity : decodeTableWord 16 0b1000111111111011 = some (.setIntensity (-5)) := by decide
theorem test_decode_clear : decodeTableWord 16 0b1001000000000000 = some .clear := by decide
theorem test_decode_show : decodeTableWord 16 0b1010000000000000 = some .showFrame := by decide
theorem test_decode_sysDis : decodeTableWord 12 0b100000000000 = some .sysDis := by decide
theorem test_decode_sysEn : decodeTableWord 12 0b100000000010 = some .sysEn := by decide
theorem test_decode_ledOff : decodeTableWord 12 0b100000000100 = some .ledOff := by decide
theorem test_decode_ledOn : decodeTableWord 12 0b100000000110 = some .ledOn := by decide
theorem test_decode_blinkOff : decodeTableWord 12 0b100000010000 = some .blinkOff := by decide
theorem test_decode_blinkOn : decodeTableWord 12 0b100000010010 = some .blinkOn := by decide
theorem test_decode_slaveMode : decodeTableWord 12 0b100000100000 = some .slaveMode := by decide
theorem test_decode_rcMasterMode : decodeTableWord 12 0b100000110000 = some .rcMasterMode := by decide
theorem test_decode_extClkMasterMode : decodeTableWord 12 0b100000111000 = some .extClkMasterMode := by decide
theorem test_decode_comNmos8 : decodeTableWord 12 0b100001000000 = some .comNmos8 := by decide
theorem test_decode_comNmos16 : decodeTableWord 12 0b100001001000 = some .comNmos16 := by decide
theorem test_decode_comPmos8 : decodeTableWord 12 0b100001010000 = some .comPmos8 := by decide
theorem test_decode_comPmos16 : decodeTableWord 12 0b100001011000 = some .comPmos16 := by decide
/-- `PWM_DUTY 5`: `1001010LLLL0`. -/
theorem test_decode_pwmDuty : decodeTableWord 12 0b100101001010 = some (.pwmDuty 5) := by decide
/-- A data frame with `RED[0]` and `GREEN[127]` set: ones at 0, 2, 10 and 265. -/
theorem test_decode_dataFrame : decodeLongFrame 266 (1 + 2 ^ 2 + 2 ^ 10 + 2 ^ 265) = some (.dataFrame 1 (1 <<< 127)) := by
  decide +kernel
theorem test_decode_clearFrame : decodeTableWord 400 (1 + 2 ^ 2) = some .clearFrame := by decide
/-- The `encoding` text of the table's clear frame, `101` and 391 zeros, read as a numeral. -/
theorem test_decode_clearFrame_text : decodeTableWord 400 (5 * 2 ^ 391) = some .clearFrame := by decide +kernel

/-- V5.1 to V5.4: words that match no operation (R82). -/
theorem test_illegal_words : ([0xB000, 0x0001, 0x4004, 0xFFFF].all fun w => (decodeRequest w).isNone) = true := by decide
/-- A word of no command row, and a data frame with a wrong preamble or a bit too many, are rejected. -/
theorem test_illegal_frames : decodeCommand 0x801 = none ∧ decodeCommand 0x960 = none ∧ decodeLongFrame 266 4 = none ∧
    decodeLongFrame 267 5 = none ∧ decodeLongFrame 394 1029 = none := by decide

/-! ## One instruction, against the vectors -/

/-- The state an instruction leaves. -/
def after (i : Instr) (s : State) : State :=
  match exec i s with
  | .next t => t
  | .fault _ => s
  | .refused _ => s

/-- The state a presented request word leaves. -/
def request (w : RequestWord) (s : State) : State :=
  match step { s with host := [.present (.request w)] } with
  | .next t => t
  | .fault _ => s
  | .refused _ => s

/-- Every chip selected, `CS` at the select level. -/
def allSelected : State := { State.reset with sr := PerChip.const .selected, lines := ⟨false, false, false, true⟩ }

/-- From reset, with these pixels: `(address, value)`. -/
def withPixels (m : Memory) : State := { State.reset with pixels := m }

/-- V1.1. -/
theorem test_selNone : (after .selNone State.reset).sr = PerChip.const .deselected ∧
    (after .selNone State.reset).trace = [(.cs, true), (.clk, true), (.clk, false), (.clk, true), (.clk, false),
      (.clk, true), (.clk, false), (.clk, true), (.clk, false)] := by decide
/-- V1.2. -/
theorem test_selAll : sel (after .selAll State.reset).sr = .all ∧
    (after .selAll State.reset).lines = ⟨false, false, false, true⟩ := by decide
/-- V1.5, the full list of R104. -/
theorem test_selOne : sel (after (.selOne 2) State.reset).sr = .one 2 ∧
    (after (.selOne 2) State.reset).trace = [(.cs, true), (.clk, true), (.clk, false), (.clk, true), (.clk, false),
      (.clk, true), (.clk, false), (.clk, true), (.clk, false), (.cs, false), (.clk, true), (.clk, false), (.cs, true),
      (.clk, true), (.clk, false), (.clk, true), (.clk, false)] := by decide
/-- V1.8 and V5.5: the info is `i[11:0]`, and the first fault is kept. -/
theorem test_selOne_out_of_range : (request 0x2FFF State.reset).faultInfo = 0xFFF ∧
    (request 0x2FFF State.reset).traceRev.length = 9 ∧
    (request 0x2007 { State.reset with fault := true, faultCode := 3 }).faultCode = 3 := by decide
/-- V1.12: `X` is moved, never made. -/
theorem test_unknown_is_moved : (pulses 2 (drive .cs false State.reset)).sr = ⟨.selected, .selected, .unknown, .unknown⟩ := by
  decide
/-- V2.1. -/
theorem test_wrCmd : (after (.wrCmd 0x802) allSelected).chips = PerChip.const
    ⟨[true, false, false, false, false, false, false, false, false, false, true, false], []⟩ := by decide
/-- V2.5 and V2.4: the mask to 12 bits; with the chain unknown no chip takes a bit. -/
theorem test_wrCmd_mask : (after (.wrCmd 0x1802) State.reset).cmdsr = 0x802 ∧
    (after (.wrCmd 0xFFF) State.reset).chips = State.reset.chips ∧
    (after (.wrCmd 0xFFF) State.reset).lines.data = true := by decide
/-- V2.7. -/
theorem test_bcastCmd : (after (.bcastCmd 0x806) State.reset).chips = PerChip.const
    ⟨[], [[true, false, false, false, false, false, false, false, false, true, true, false]]⟩ := by decide +kernel
/-- V3.2: pixel `(17, 9)` is cell 9 of chip 3. -/
theorem test_extract : (after (.extract 1 1) (withPixels [(9 * 32 + 17, 3)])).red = 1 <<< 9 ∧
    (after (.extract 1 1) (withPixels [(9 * 32 + 17, 3)])).green = 1 <<< 9 := by decide +kernel
/-- V3.6: pixel `(15, 7)` of value 1 is `GREEN[127]` of chip 0; `(0, 15)` does not matter to it. -/
theorem test_extract_corner : (after (.extract 0 0) (withPixels [(7 * 32 + 15, 1), (15 * 32, 3)])).green = 1 <<< 127 ∧
    (after (.extract 0 0) (withPixels [(7 * 32 + 15, 1), (15 * 32, 3)])).red = 0 := by decide +kernel
/-- V3.12: the last bit sent is `GREEN[127]`. -/
theorem test_wrData : (after .wrData { State.reset with planesValid := true, green := 1 <<< 127 }).lines.data = true := by
  decide +kernel
/-- V3.8. -/
theorem test_wrData_unwritten : (request 0x5000 State.reset).fault = true ∧ (request 0x5000 State.reset).faultCode = 3 ∧
    (request 0x5000 State.reset).faultInfo = 1 ∧ (request 0x5000 State.reset).trace = [] := by decide
/-- V4.2: the words of `BEGIN`, in order. -/
theorem test_begin : initCommands 0x954 = [0x800, 0x840, 0x830, 0x802, 0x954, 0x810, 0x806] := by decide
/-- V4.9. -/
theorem test_begin_unwritten : (request 0x7000 State.reset).faultCode = 3 ∧ (request 0x7000 State.reset).faultInfo = 0 ∧
    (request 0x7000 State.reset).sr = State.reset.sr := by decide
/-- V4.1, V4.3 to V4.8: the intensity words of levels in and out of range. -/
theorem test_setIntensity : ([10, -5, 0, 15, 20, 2047, -2048].map intensityCommand) =
    [0x954, 0x940, 0x940, 0x95E, 0x95E, 0x95E, 0x940] := by decide
/-- V4.10: the number of events. -/
theorem test_clear : (after .clear State.reset).traceRev.length = 1200 := by decide +kernel
/-- R52 and V4.12: which rectangle a chip gets from `SHOW`. -/
theorem test_show : ((List.finRange 4).map chipPos) = [(0, 0), (0, 1), (1, 0), (1, 1)] := by decide
/-- R80, R77: the command rows send their own words. -/
theorem test_command_rows : ([.sysDis, .sysEn, .ledOff, .ledOn, .blinkOff, .blinkOn, .slaveMode, .rcMasterMode,
      .extClkMasterMode, .comNmos8, .comNmos16, .comPmos8, .comPmos16, .pwmDuty 15].map fun i => (after i State.reset).cmdsr) =
    [0x800, 0x802, 0x804, 0x806, 0x810, 0x812, 0x820, 0x830, 0x838, 0x840, 0x848, 0x850, 0x858, 0x95E] := by decide
/-- R78: a data frame row ends with `GREEN[127]`, whatever the plane registers hold. -/
theorem test_dataFrame : (after (.dataFrame 1 (1 <<< 127)) State.reset).lines.data = true ∧
    (after (.dataFrame 1 (1 <<< 127)) State.reset).green = 0 := by decide +kernel
/-- R79: the number of events. -/
theorem test_clearFrame : (after .clearFrame State.reset).traceRev.length = 1182 := by decide +kernel
/-- V5.1: an illegal request makes no event. -/
theorem test_illegal_request : (request 0xB000 State.reset).faultCode = 2 ∧ (request 0xB000 State.reset).busy = false ∧
    (request 0xFFFF State.reset).faultInfo = 0xFFF ∧ (request 0xB000 State.reset).trace = [] := by decide

/-- R31: a SEL_ALL accepted, then its first micro-operation, which drives `CS` to the select level. -/
theorem test_micro : (match microRun 2 { State.reset with host := [.present (.request 0x1000)] } with
    | .next t => decide (t.trace = [(.cs, false)]) && t.busy && t.upc == 1
    | .fault _ => false
    | .refused _ => false) = true := by decide

/-! ## Witnesses: every statement with hypotheses has an input that meets them all -/

/-- Registers written and valid, chips 0 and 2 selected with frames open: no run's selection, but a state. -/
def loaded : State := { State.reset with
  planesValid := true
  icmd := 0x954
  icmdValid := true
  sr := ⟨.selected, .deselected, .selected, .deselected⟩
  chips := ⟨⟨[true], [[false]]⟩, ⟨[], []⟩, ⟨[false, true], []⟩, ⟨[], [[true, true]]⟩⟩ }

/-- An operation in progress: a SHOW accepted, and a request waiting. -/
def inShow : State := { State.reset with busy := true, op := 0xA, host := [.present (.request 0x1000)] }

theorem witness_invariant : Quiet State.reset ∧ step State.reset = .next State.reset :=
  ⟨⟨rfl, ⟨rfl, rfl, by decide, by decide⟩, ⟨by decide, by decide, by decide⟩, by decide, rfl⟩, rfl⟩

theorem witness_request_codes : (0xB#4 ≤ 0xB#4) ∧ (0xB#4 ≤ 0xF#4) := by decide

theorem witness_wellFormed : WellFormed (.setIntensity (-2048)) = true := by decide

theorem witness_decode : decode (.request 0x2FFF) = some (.selOne 4095) := by decide

/-- Idle, with one thing presented. -/
def presenting (p : Presented) : State := { State.reset with host := [.present p] }

theorem witness_presentedRequest : (presenting (.request 0x1000)).busy = false ∧
    (presenting (.request 0x1000)).host = .present (.request 0x1000) :: [] ∧ decodeRequest 0x1000 = some .selAll ∧
    ∃ t, exec .selAll { presenting (.request 0x1000) with
      host := [], op := (0x1000#16).extractLsb' 12 4, arg := (0x1000#16).extractLsb' 0 12, upc := 0, busy := true } = .next t :=
  ⟨rfl, rfl, by decide, _, rfl⟩

theorem witness_presentedFrame : (presenting (.command 0x802)).busy = false ∧
    (presenting (.command 0x802)).host = .present (.command 0x802) :: [] ∧
    (∀ w, Presented.command 0x802 ≠ .request w) ∧ decode (.command 0x802) = some .sysEn :=
  ⟨rfl, rfl, by intro w; exact Presented.noConfusion, by decide⟩

theorem witness_idle : State.reset.busy = false ∧ State.reset.host = [] := by decide

/-- The clauses of R82 at their boundaries, and a legal word beside each. -/
theorem witness_illegal : (presenting (.request 0xB000)).busy = false ∧
    (presenting (.request 0xB000)).host = .present (.request 0xB000) :: [] ∧
    decodeRequest 0xB000 = none ∧ decodeRequest 0xFFFF = none ∧ decodeRequest 0xA001 = none ∧
    decodeRequest 0x0FFF = none ∧ decodeRequest 0x4004 = none ∧ decodeRequest 0x4FFF = none ∧
    decodeRequest 0xA000 = some .showFrame ∧ decodeRequest 0x4003 = some (.extract 1 1) := by decide

theorem witness_busy : inShow.busy = true ∧ (∀ rest, inShow.host ≠ .reset :: rest) ∧ ∃ t, step inShow = .next t :=
  ⟨rfl, by simp [inShow], _, rfl⟩

theorem witness_resetMove : { inShow with host := [.reset] }.host = .reset :: [] := rfl

theorem witness_pixelWrite : { State.reset with host := [.pixel 31 15 3] }.busy = false ∧
    Memory.wf { State.reset with host := [.pixel 31 15 3] }.pixels = true ∧
    { State.reset with host := [.pixel 31 15 3] }.host = .pixel 31 15 3 :: [] := by decide

/-- The clauses of R101 where they meet: two pulses, cells 1 and 2. -/
theorem witness_pulses : ((1 : Fin 4).val < min 2 4) ∧ (2 ≤ (2 : Fin 4).val ∧ (0 : Fin 4).val = (2 : Fin 4).val - 2) ∧
    ((3 : Fin 4).val < min 4 4) := by decide

theorem witness_outOfRange : 4 ≤ 4 ∧ (3 : Nat) < 4 := by decide

theorem witness_selection : ∀ i : Instr, i ∈ [.selNone, .selAll, .selOne 3, .selOne 4] →
    i = .selNone ∨ i = .selAll ∨ ∃ n, i = .selOne n := by
  intro i hi
  simp only [List.mem_cons, List.not_mem_nil, or_false] at hi
  rcases hi with rfl | rfl | rfl | rfl <;> simp

theorem witness_observer : ObserverLegal loaded := by decide

theorem witness_command : (4095 : Nat) < 4096 := by decide

theorem witness_noFrameOpen : NoFrameOpen State.reset := by decide

/-- Pixels outside the rectangle of chip 0 may differ: `(16, 0)` does. -/
theorem witness_extract : ∀ x y : Nat, 16 * (0 : BitVec 1).toNat ≤ x → x < 16 * (0 : BitVec 1).toNat + 16 →
    8 * (0 : BitVec 1).toNat ≤ y → y < 8 * (0 : BitVec 1).toNat + 8 →
    pixelAt (withPixels [(16, 3)]) x y = pixelAt State.reset x y := by
  intro x y _ hx _ hy
  have h : pixelAddress x y ≠ 16 := by
    simp only [pixelAddress, config]
    simp at hx hy
    omega
  simp [pixelAt, withPixels, State.reset, Memory.read, h]

theorem witness_cells : (31 : Nat) < 32 ∧ (15 : Nat) < 16 ∧ (127 : Nat) < 128 := by decide

theorem witness_planes : loaded.planesValid = true ∧ State.reset.planesValid = false := by decide

theorem witness_icmd : loaded.icmdValid = true ∧ State.reset.icmdValid = false := by decide

theorem witness_intensity : (15, 0x95E#12) ∈ [(0, 0x940#12), (15, 0x95E#12)] ∧ (-1 : Int) < 0 ∧ (15 : Int) < 16 := by decide

theorem witness_black : ∀ x y : Nat, x < 32 → y < 16 → pixelAt State.reset x y = 0 := fun _ _ _ _ => rfl

theorem witness_corner : pixelAt (withPixels [(0, 2)]) 0 0 = 2 ∧
    ∀ x y : Nat, x < 32 → y < 16 → ¬ (x = 0 ∧ y = 0) → pixelAt (withPixels [(0, 2)]) x y = 0 := by
  refine ⟨by decide, fun x y _ _ hn => ?_⟩
  have h : pixelAddress x y ≠ 0 := by
    simp only [pixelAddress, config]
    omega
  simp [pixelAt, withPixels, Memory.read, h, Memory.default]

/-- Construction by the request `SET_INTENSITY 10`, and by a level that no request word carries. -/
theorem witness_construction : (∃ s, Constructed 10 s) ∧ ∃ s, Constructed 5000 s :=
  ⟨⟨_, presenting (.request 0x800A), rfl, .inl ⟨0x800A, [], rfl, by decide, rfl⟩⟩,
    ⟨_, State.reset, rfl, .inr ⟨by decide, rfl⟩⟩⟩

/-- The conditions of the observer's clauses of SEL_ALL: no chip selected, no frame open, every chip selected. -/
theorem witness_selAll_observer : sel (after .selNone State.reset).sr = .none ∧ NoFrameOpen State.reset ∧
    sel allSelected.sr = .all := by decide

/-- Chip 1 selected, its own rectangle extracted before: WR_DATA is the selection's transfer. -/
theorem witness_discipline : Tracks HostUse.start State.reset ∧
    Tracks ⟨.one 1, false, some (0, 1)⟩
      { State.reset with sr := ⟨.deselected, .selected, .deselected, .deselected⟩, planesValid := true } ∧
    HostUse.allows ⟨.one 1, false, some (0, 1)⟩ .wrData = true := by decide

/-- R208: planes of another rectangle (d), a word of no table row (e), a second transfer (b), no chip selected after an index
out of range (a), and a chip left selected (c) are not allowed; a whole transfer is. -/
theorem test_discipline :
    oneTransferPerSelection .start [.selOne 1, .extract 0 0, .wrData, .selNone] = false ∧
    oneTransferPerSelection .start [.selAll, .wrCmd 0xA00, .selNone] = false ∧
    oneTransferPerSelection .start [.selAll, .wrCmd 0x802, .wrCmd 0x806, .selNone] = false ∧
    oneTransferPerSelection .start [.selOne 4, .wrCmd 0x802, .selNone] = false ∧
    oneTransferPerSelection .start [.selAll, .wrCmd 0x802] = false ∧
    oneTransferPerSelection .start [.extract 0 1, .selOne 1, .wrData, .selNone] = true := by decide

/-- The RAM view: a clear frame writes, a command of the table leaves, and 0xA00 leaves nothing known (R57, U10). -/
theorem test_ramView : ramBit [clearFrame] 383 = some false ∧ ramBit [clearFrame, commandFrame 0x802] 0 = some false ∧
    ramBit [clearFrame, commandFrame 0xA00] 0 = none ∧ ramBit [commandFrame 0xA00] 0 = none := by decide +kernel

/-- A fault already recorded, and an instruction run after it. -/
theorem witness_firstFault : ∃ t, exec (.selOne 7) { State.reset with fault := true, faultCode := 3 } = .next t := ⟨_, rfl⟩

/-- Each of the three faults arises from a state without one. -/
theorem witness_faults : State.reset.fault = false ∧ (after (.selOne 4) State.reset).fault = true ∧
    (after .beginInit State.reset).fault = true ∧ (after .wrData State.reset).fault = true := by decide

theorem witness_writers : ∃ t, exec .selAll State.reset = .next t ∧ (∀ l, Instr.selAll ≠ .setIntensity l) ∧
    (∀ r q, Instr.selAll ≠ .extract r q) ∧ Instr.selAll ≠ .showFrame := ⟨_, rfl, by simp, by simp, by simp⟩

theorem witness_known : (∀ k, loaded.sr.get k ≠ .unknown) ∧ ∃ t, exec .selNone loaded = .next t := ⟨by decide, _, rfl⟩

theorem witness_micro : (presenting (.request 0xA000)).busy = false ∧
    (presenting (.request 0xA000)).host = .present (.request 0xA000) :: [] ∧ decodeRequest 0xA000 = some .showFrame := by decide

end Sys2Proof.Tests
end

/-! SUPPORT. The family of 10_state.md: what one drive and one micro-operation can do, every instruction as its expansion
performed in order (R30, R31), and from these the writers of the registers, the composition of micro-steps and the invariant of
R38. -/

namespace Sys2Proof.Machine

open Sys2Proof.Safety Sys2Proof.Claims

/-! ## One drive -/

/-- A drive writes its latch and `TRACE`, and otherwise `SR` and the observer at most (R21). -/
theorem drive_frame (l : Line) (v : Level) (s : State) :
    drive l v s = { setLine l v s with sr := (drive l v s).sr, chips := (drive l v s).chips } := by
  cases l with
  | clk => rw [drive]; split <;> rfl
  | cs => rfl
  | data => rfl
  | wr => rw [drive]; split <;> rfl

section
variable (l : Line) (v : Level) (s : State)

@[simp] theorem drive_lines : (drive l v s).lines = s.lines.set l v := by rw [drive_frame]; rfl
@[simp] theorem drive_cmdsr : (drive l v s).cmdsr = s.cmdsr := by rw [drive_frame]; rfl
@[simp] theorem drive_red : (drive l v s).red = s.red := by rw [drive_frame]; rfl
@[simp] theorem drive_green : (drive l v s).green = s.green := by rw [drive_frame]; rfl
@[simp] theorem drive_planesValid : (drive l v s).planesValid = s.planesValid := by rw [drive_frame]; rfl
@[simp] theorem drive_icmd : (drive l v s).icmd = s.icmd := by rw [drive_frame]; rfl
@[simp] theorem drive_icmdValid : (drive l v s).icmdValid = s.icmdValid := by rw [drive_frame]; rfl
@[simp] theorem drive_fault : (drive l v s).fault = s.fault := by rw [drive_frame]; rfl
@[simp] theorem drive_faultCode : (drive l v s).faultCode = s.faultCode := by rw [drive_frame]; rfl
@[simp] theorem drive_faultInfo : (drive l v s).faultInfo = s.faultInfo := by rw [drive_frame]; rfl
@[simp] theorem drive_busy : (drive l v s).busy = s.busy := by rw [drive_frame]; rfl
@[simp] theorem drive_op : (drive l v s).op = s.op := by rw [drive_frame]; rfl
@[simp] theorem drive_arg : (drive l v s).arg = s.arg := by rw [drive_frame]; rfl
@[simp] theorem drive_upc : (drive l v s).upc = s.upc := by rw [drive_frame]; rfl
@[simp] theorem drive_traceRev : (drive l v s).traceRev = (l, v) :: s.traceRev := by rw [drive_frame]; rfl
@[simp] theorem drive_pxTraceRev : (drive l v s).pxTraceRev = s.pxTraceRev := by rw [drive_frame]; rfl
@[simp] theorem drive_pixels : (drive l v s).pixels = s.pixels := by rw [drive_frame]; rfl
@[simp] theorem drive_host : (drive l v s).host = s.host := by rw [drive_frame]; rfl

end

/-- The chain after a drive: unchanged, or shifted once by the second drive of a clock pulse (R21, R26). -/
theorem drive_chain (l : Line) (v : Level) (s : State) :
    ((drive l v s).sr = s.sr ∧ ((drive l v s).chips = s.chips ∨
      ∃ b, (drive l v s).chips = PerChip.zipWith (Received.sample b) s.sr s.chips)) ∨
    (l = .clk ∧ ∃ f, f ≠ .unknown ∧ (drive l v s).sr = shiftIn f s.sr ∧
      (drive l v s).chips = observeShift s.sr (shiftIn f s.sr) s.chips) := by
  have hf : ∀ cs, csFlag cs ≠ .unknown := by decide
  cases l with
  | clk =>
    rw [drive]
    split
    · exact .inr ⟨rfl, csFlag s.lines.cs, hf _, rfl, rfl⟩
    · exact .inl ⟨rfl, .inl rfl⟩
  | cs => exact .inl ⟨rfl, .inl rfl⟩
  | data => exact .inl ⟨rfl, .inl rfl⟩
  | wr =>
    rw [drive]
    split
    · exact .inl ⟨rfl, .inr ⟨_, rfl⟩⟩
    · exact .inl ⟨rfl, .inl rfl⟩

theorem Lines.get_set_of_ne {l l' : Line} (h : l ≠ l') (v : Level) (ls : Lines) :
    (ls.set l v).get l' = ls.get l' := by
  cases l <;> cases l' <;> simp_all [Lines.get]

/-! ## One micro-operation -/

/-- How a micro-operation can end (R31): a drive, a read, a load of `CMDSR`, the store of `ICMD`, a check that passes, or a
check that raises. -/
inductive Performs : MicroOp → State → Run → Prop
  | drive (l : Line) (src : Source) (v : Level) (s : State) : Performs (.drive l src) s (.done (drive l v s))
  | read (x y k : Nat) (last valid : Bool) (s : State) :
    Performs (.read x y k last) s (.done { readCell x y k s with planesValid := valid })
  | load (c : Command) (s : State) : Performs (.load c) s (.done { s with cmdsr := c })
  | loadIcmd (s : State) : Performs .loadIcmd s (.done { s with cmdsr := s.icmd })
  | storeIcmd (l : Int) (s : State) :
    Performs (.storeIcmd l) s (.done { s with icmd := intensityCommand l, icmdValid := true })
  | pass (m : MicroOp) (s : State) : Performs m s (.done s)
  | raises (m : MicroOp) (f : EngineFault) (info : BitVec 12) (s : State) : Performs m s (.raised (raise f info s))

theorem perform_performs (m : MicroOp) (s : State) : Performs m s (perform m s) := by
  have check : ∀ (passed : Prop) [Decidable passed] (f : EngineFault) (info : BitVec 12),
      Performs m s (if passed then .done s else .raised (raise f info s)) := by
    intro passed _ f info
    split
    · exact .pass m s
    · exact .raises m f info s
  cases m with
  | drive l src => exact .drive l src _ s
  | read x y k last => exact .read x y k last _ s
  | load c => exact .load c s
  | loadIcmd => exact .loadIcmd s
  | storeIcmd l => exact .storeIcmd l s
  | checkIndex | checkIcmd | checkPlanes => exact check _ _ _

section
variable (m : MicroOp) (s : State)

/-- No micro-operation writes the request registers, `UPC`, the pixel space or the host's moves (R31, R33). -/
theorem perform_request : ((perform m s).state.op, (perform m s).state.arg, (perform m s).state.upc,
    (perform m s).state.host, (perform m s).state.pixels) = (s.op, s.arg, s.upc, s.host, s.pixels) := by
  have hp := perform_performs m s
  generalize perform m s = r at hp ⊢
  cases hp <;> simp [readCell]

/-- `ICMD` is written by its store only (R28). -/
theorem perform_icmd (h : ∀ l, m ≠ .storeIcmd l) :
    ((perform m s).state.icmd, (perform m s).state.icmdValid) = (s.icmd, s.icmdValid) := by
  have hp := perform_performs m s
  generalize perform m s = r at hp ⊢
  cases hp with
  | storeIcmd l => exact absurd rfl (h l)
  | drive | read | load | loadIcmd | pass | raises => simp [readCell]

/-- The planes and `PXTRACE` are written by a read only (R24, R50). -/
theorem perform_planes (h : ∀ x y k last, m ≠ .read x y k last) :
    ((perform m s).state.red, (perform m s).state.green, (perform m s).state.planesValid, (perform m s).state.pxTraceRev) =
      (s.red, s.green, s.planesValid, s.pxTraceRev) := by
  have hp := perform_performs m s
  generalize perform m s = r at hp ⊢
  cases hp with
  | read x y k last => exact absurd rfl (h x y k last)
  | drive | load | loadIcmd | storeIcmd | pass | raises => simp

/-- `CMDSR` is written by a load only (R23). -/
theorem perform_cmdsr (h : ∀ c, m ≠ .load c) (h' : m ≠ .loadIcmd) : (perform m s).state.cmdsr = s.cmdsr := by
  have hp := perform_performs m s
  generalize perform m s = r at hp ⊢
  cases hp with
  | load c => exact absurd rfl (h c)
  | loadIcmd => exact absurd rfl h'
  | drive | read | storeIcmd | pass | raises => simp [readCell]

/-- A latch is written by a drive of its line only (R21). -/
theorem perform_line (l : Line) (h : ∀ src, m ≠ .drive l src) : (perform m s).state.lines.get l = s.lines.get l := by
  have hp := perform_performs m s
  generalize perform m s = r at hp ⊢
  cases hp with
  | drive l' src =>
    have hl : l' ≠ l := fun hl => h src (by rw [hl])
    simp [Lines.get_set_of_ne hl]
  | read | load | loadIcmd | storeIcmd | pass | raises => simp [readCell]

/-- `SR` is written by a drive of `CLK` only (R26). -/
theorem perform_sr (h : ∀ src, m ≠ .drive .clk src) : (perform m s).state.sr = s.sr := by
  have hp := perform_performs m s
  generalize perform m s = r at hp ⊢
  cases hp with
  | drive l src v =>
    rcases drive_chain l v s with ⟨hsr, -⟩ | ⟨rfl, -⟩
    · exact hsr
    · exact absurd rfl (h src)
  | read | load | loadIcmd | storeIcmd | pass | raises => simp [readCell]

/-- `TRACE` and the observer are written by a drive only (R21, R60). -/
theorem perform_trace (h : ∀ l src, m ≠ .drive l src) :
    ((perform m s).state.traceRev, (perform m s).state.chips) = (s.traceRev, s.chips) := by
  have hp := perform_performs m s
  generalize perform m s = r at hp ⊢
  cases hp with
  | drive l src => exact absurd rfl (h l src)
  | read | load | loadIcmd | storeIcmd | pass | raises => simp [readCell]

/-- The fault registers and `BUSY` are written by a raise only (R184). -/
theorem perform_fault {t : State} (h : perform m s = .done t) : t.fault = s.fault ∧ t.faultCode = s.faultCode ∧
    t.faultInfo = s.faultInfo ∧ t.busy = s.busy := by
  have hp := perform_performs m s
  rw [h] at hp
  cases hp <;> simp [readCell]

/-- No micro-operation sets `BUSY` (R30, R184). -/
theorem perform_idle (h : s.busy = false) : (perform m s).state.busy = false := by
  have hp := perform_performs m s
  generalize perform m s = r at hp ⊢
  cases hp <;> simp [readCell, h]

theorem perform_pixels : (perform m s).state.pixels = s.pixels := by
  have h := perform_request m s
  simp only [Prod.mk.injEq] at h
  obtain ⟨-, -, -, -, hpixels⟩ := h
  exact hpixels

/-- A micro-operation makes at most one event, and then it is the drive of that line (R21). -/
theorem perform_event : (perform m s).state.traceRev = s.traceRev ∨
    ∃ l src v, m = .drive l src ∧ (perform m s).state.traceRev = (l, v) :: s.traceRev := by
  by_cases h : ∃ l src, m = .drive l src
  · obtain ⟨l, src, rfl⟩ := h
    exact .inr ⟨l, src, src.level s, rfl, drive_traceRev l _ s⟩
  · exact .inl (congrArg Prod.fst (perform_trace m s fun l src hm => h ⟨l, src, hm⟩))

end

/-! ## Micro-operations in order -/

/-- What every micro-operation of a list keeps, the list keeps. -/
theorem performAll_keeps {P : State → Prop} (ms : List MicroOp) (h : ∀ m ∈ ms, ∀ u, P u → P (perform m u).state)
    (s : State) (hs : P s) : P (performAll ms s).state := by
  induction ms generalizing s with
  | nil => exact hs
  | cons m ms ih =>
    have hm := h m List.mem_cons_self s hs
    rw [performAll]
    cases hp : perform m s with
    | done t => exact ih (fun m' hm' => h m' (List.mem_cons_of_mem _ hm')) t (by simpa [hp] using hm)
    | raised t => simpa [hp] using hm

/-- A value that no micro-operation of a list changes is what it was. -/
theorem performAll_eq {α : Type} (f : State → α) (ms : List MicroOp) (h : ∀ m ∈ ms, ∀ u, f (perform m u).state = f u)
    (s : State) : f (performAll ms s).state = f s :=
  performAll_keeps (P := fun u => f u = f s) ms (fun m hm u hu => (h m hm u).trans hu) s rfl

/-- A run that does not raise leaves the fault registers and `BUSY` (R184). -/
theorem performAll_fault (ms : List MicroOp) {s t : State} (h : performAll ms s = .done t) : t.fault = s.fault ∧
    t.faultCode = s.faultCode ∧ t.faultInfo = s.faultInfo ∧ t.busy = s.busy := by
  induction ms generalizing s with
  | nil =>
    cases h
    exact ⟨rfl, rfl, rfl, rfl⟩
  | cons m ms ih =>
    rw [performAll] at h
    cases hp : perform m s with
    | done u =>
      obtain ⟨h1, h2, h3, h4⟩ := perform_fault m s hp
      obtain ⟨g1, g2, g3, g4⟩ := ih (by simpa [hp] using h)
      exact ⟨g1.trans h1, g2.trans h2, g3.trans h3, g4.trans h4⟩
    | raised u => simp [hp] at h

/-! ## What an expansion holds -/

section
variable {P : MicroOp → Prop}

theorem forall_pulseOps (n : Nat) (hclk : ∀ v, P (.drive .clk v)) : ∀ m ∈ pulseOps n, P m :=
  List.forall_mem_flatMap.2 fun _ _ => List.forall_mem_cons.2 ⟨hclk _, List.forall_mem_singleton.2 (hclk _)⟩

theorem forall_selectOps (level : Level) (hcs : ∀ v, P (.drive .cs v)) (hclk : ∀ v, P (.drive .clk v)) :
    ∀ m ∈ selectOps level, P m :=
  List.forall_mem_cons.2 ⟨hcs _, forall_pulseOps _ hclk⟩

theorem forall_selOneOps (i : Nat) (hcs : ∀ v, P (.drive .cs v)) (hclk : ∀ v, P (.drive .clk v))
    (hcheck : P (.checkIndex i)) : ∀ m ∈ selOneOps i, P m := by
  have hsel := forall_selectOps config.csDeselectLevel hcs hclk
  have hpulse := fun n => forall_pulseOps n hclk
  rw [selOneOps]
  split <;> simp only [List.forall_mem_append, List.forall_mem_singleton, List.not_mem_nil, false_implies, implies_true,
    and_true]
  · exact ⟨⟨hsel, hcheck⟩, ⟨⟨hcs _, hpulse 1⟩, hcs _⟩, hpulse i⟩
  · exact ⟨hsel, hcheck⟩

theorem forall_cells {α : Type} (f : α → Source) (as : List α) (hwr : ∀ v, P (.drive .wr v)) (hdata : ∀ v, P (.drive .data v)) :
    ∀ m ∈ as.flatMap fun a => bitOps (f a), P m :=
  List.forall_mem_flatMap.2 fun _ _ =>
    List.forall_mem_cons.2 ⟨hwr _, List.forall_mem_cons.2 ⟨hdata _, List.forall_mem_singleton.2 (hwr _)⟩⟩

theorem forall_commandOps (load : MicroOp) (hload : P load) (hwr : ∀ v, P (.drive .wr v)) (hdata : ∀ v, P (.drive .data v)) :
    ∀ m ∈ commandOps load, P m :=
  List.forall_mem_cons.2 ⟨hload, forall_cells _ _ hwr hdata⟩

theorem forall_broadcastOps (load : MicroOp) (hload : P load) (hdrive : ∀ l v, P (.drive l v)) :
    ∀ m ∈ broadcastOps load, P m := by
  simp only [broadcastOps, List.forall_mem_append]
  exact ⟨⟨forall_selectOps _ (hdrive _) (hdrive _), forall_commandOps _ hload (hdrive _) (hdrive _)⟩,
    forall_selectOps _ (hdrive _) (hdrive _)⟩

theorem forall_extractOps (r q : BitVec 1) (hread : ∀ x y k last, P (.read x y k last)) : ∀ m ∈ extractOps r q, P m :=
  List.forall_mem_map.2 fun _ _ => hread _ _ _ _

theorem forall_wrDataOps (hcheck : P .checkPlanes) (hwr : ∀ v, P (.drive .wr v)) (hdata : ∀ v, P (.drive .data v)) :
    ∀ m ∈ wrDataOps, P m := by
  simp only [wrDataOps, List.forall_mem_cons, List.forall_mem_append]
  exact ⟨hcheck, ⟨forall_cells _ _ hwr hdata, forall_cells _ _ hwr hdata⟩, forall_cells _ _ hwr hdata⟩

theorem forall_beginOps (hcheck : P .checkIcmd) (hload : ∀ c, P (.load c)) (hicmd : P .loadIcmd)
    (hdrive : ∀ l v, P (.drive l v)) : ∀ m ∈ beginOps, P m := by
  simp only [beginOps, List.forall_mem_cons, List.forall_mem_flatMap, List.not_mem_nil, false_implies, implies_true, and_true]
  have hc := fun c => forall_broadcastOps (.load c) (hload c) hdrive
  exact ⟨hcheck, hc _, hc _, hc _, hc _, forall_broadcastOps _ hicmd hdrive, hc _, hc _⟩

theorem forall_showChipOps (c : Fin 4) (hdrive : ∀ l v, P (.drive l v)) (hread : ∀ x y k last, P (.read x y k last))
    (hindex : ∀ i, P (.checkIndex i)) (hplanes : P .checkPlanes) : ∀ m ∈ showChipOps c, P m := by
  simp only [showChipOps, List.forall_mem_append]
  exact ⟨⟨⟨forall_selOneOps _ (hdrive _) (hdrive _) (hindex _), forall_extractOps _ _ hread⟩,
    forall_wrDataOps hplanes (hdrive _) (hdrive _)⟩, forall_selectOps _ (hdrive _) (hdrive _)⟩

end

/-- The micro-operations that an expansion of `i` may hold: drives of its lines (R22), reads if it extracts, loads if it sends
a command, the store of `ICMD` if it is SET_INTENSITY; any check. -/
def MayHold (i : Instr) (m : MicroOp) : Prop :=
  match m with
  | .drive l _ => mayDrive i l = true
  | .read _ _ _ _ => (∃ r q, i = .extract r q) ∨ i = .showFrame
  | .load _ => loadsCmdsr i = true
  | .loadIcmd => loadsCmdsr i = true
  | .storeIcmd _ => ∃ l, i = .setIntensity l
  | .checkIndex _ => True
  | .checkIcmd => True
  | .checkPlanes => True

theorem expansion_mayHold (i : Instr) : ∀ m ∈ expansion i, MayHold i m := by
  cases i with
  | selNone | selAll => exact forall_selectOps _ (fun _ => rfl) (fun _ => rfl)
  | selOne n => exact forall_selOneOps n (fun _ => rfl) (fun _ => rfl) trivial
  | extract r q => exact forall_extractOps r q fun _ _ _ _ => .inl ⟨r, q, rfl⟩
  | wrData => exact forall_wrDataOps trivial (fun _ => rfl) (fun _ => rfl)
  | bcastCmd c => exact forall_broadcastOps _ rfl (fun _ _ => rfl)
  | beginInit => exact forall_beginOps trivial (fun _ => rfl) rfl (fun _ _ => rfl)
  | setIntensity l =>
    exact List.forall_mem_cons.2 ⟨⟨l, rfl⟩, forall_beginOps trivial (fun _ => rfl) rfl (fun _ _ => rfl)⟩
  | clear =>
    simp only [expansion, List.forall_mem_append]
    exact ⟨⟨forall_selectOps _ (fun _ => rfl) (fun _ => rfl), forall_cells _ _ (fun _ => rfl) (fun _ => rfl)⟩,
      forall_selectOps _ (fun _ => rfl) (fun _ => rfl)⟩
  | showFrame =>
    have hchip := fun c => forall_showChipOps (P := MayHold .showFrame) c (fun _ _ => rfl) (fun _ _ _ _ => .inr rfl)
      (fun _ => trivial) trivial
    simp only [expansion, List.forall_mem_append]
    exact ⟨⟨⟨⟨forall_broadcastOps _ rfl (fun _ _ => rfl), hchip 0⟩, hchip 1⟩, hchip 2⟩, hchip 3⟩
  | dataFrame | clearFrame => exact forall_cells _ _ (fun _ => rfl) (fun _ => rfl)
  | wrCmd | sysDis | sysEn | ledOff | ledOn | blinkOff | blinkOn | slaveMode | rcMasterMode | extClkMasterMode | comNmos8
  | comNmos16 | comPmos8 | comPmos16 | pwmDuty =>
    exact forall_commandOps _ rfl (fun _ => rfl) (fun _ => rfl)

/-! ## An instruction is its expansion (R30) -/

theorem Run.andThen_assoc (r : Run) (f g : State → Run) :
    (r.andThen f).andThen g = r.andThen fun s => (f s).andThen g := by
  cases r <;> rfl

/-- The selection operations as runs of `SEL_NONE` and `SEL_ALL` (R102, R103). -/
theorem performAll_selNoneOps : performAll (selectOps config.csDeselectLevel) = fun s => .done (selNone s) :=
  funext fun s => performAll_selectOps config.csDeselectLevel s

theorem performAll_selAllOps : performAll (selectOps config.csSelectLevel) = fun s => .done (selAll s) :=
  funext fun s => performAll_selectOps config.csSelectLevel s

theorem performAll_selOneOps (i : Nat) (s : State) : performAll (selOneOps i) s = selOne i s := by
  rw [selOneOps, performAll_append, performAll_append, performAll_selectOps, Run.andThen_done, performAll, selOne]
  by_cases h : i < config.n
  · simp only [perform, if_pos h, Run.andThen_done, performAll, performAll_append, performAll_pulseOps]
    rfl
  · simp only [perform, if_neg h, Run.andThen_raised]
    rfl

theorem performAll_broadcastOps (load : MicroOp) (c : Command) (s : State)
    (h : ∀ u, u.icmd = s.icmd → perform load u = .done { u with cmdsr := c }) :
    performAll (broadcastOps load) s = .done (broadcast c s) := by
  rw [broadcastOps, performAll_append, performAll_append, performAll_selAllOps, Run.andThen_done,
    performAll_commandOps load c _ (h _ (by rw [selAll_eq])), Run.andThen_done, performAll_selNoneOps, broadcast]

/-- The word a load puts into `CMDSR` when `ICMD` holds `icmd`. -/
def loadedWord (icmd : Command) (load : MicroOp) : Command :=
  match load with
  | .load c => c
  | _ => icmd

theorem performAll_broadcastsOps (loads : List MicroOp) (s : State) (h : ∀ m ∈ loads, (∃ c, m = .load c) ∨ m = .loadIcmd) :
    performAll (loads.flatMap broadcastOps) s = .done (broadcasts (loads.map (loadedWord s.icmd)) s) := by
  induction loads generalizing s with
  | nil => rfl
  | cons m ms ih =>
    have hm : ∀ u, u.icmd = s.icmd → perform m u = .done { u with cmdsr := loadedWord s.icmd m } := by
      intro u hu
      rcases h m List.mem_cons_self with ⟨c, rfl⟩ | rfl
      · rfl
      · simp [perform, loadedWord, hu]
    have hi : (broadcast (loadedWord s.icmd m) s).icmd = s.icmd := by rw [broadcast_eq]
    rw [List.flatMap_cons, performAll_append, performAll_broadcastOps m _ s hm, Run.andThen_done,
      ih _ fun m' hm' => h m' (List.mem_cons_of_mem _ hm'), hi, List.map_cons, broadcasts]

theorem performAll_beginOps (s : State) : performAll beginOps s = beginInit s := by
  rw [beginOps, performAll, beginInit, perform]
  split
  · rw [Run.andThen_done, performAll_broadcastsOps _ _ (by simp)]
    rfl
  · rfl

theorem performAll_showChipOps (c : Fin 4) : performAll (showChipOps c) = showChip c := by
  funext s
  rw [showChipOps, performAll_append, performAll_append, performAll_append, performAll_selOneOps, performAll_selNoneOps,
    Run.andThen_assoc, Run.andThen_assoc, showChip]
  simp only [performAll_extractOps, Run.andThen_done, performAll_wrDataOps]

theorem performAll_showOps (s : State) : performAll (expansion .showFrame) s = showAll s := by
  rw [expansion, performAll_append, performAll_append, performAll_append, performAll_append,
    performAll_broadcastOps (.load config.sysEn) config.sysEn s (fun _ _ => rfl), Run.andThen_done,
    performAll_showChipOps, performAll_showChipOps, performAll_showChipOps, performAll_showChipOps, showAll]

theorem performAll_clearFrameOps (s : State) : performAll clearFrameOps s = .done (sendClearFrame s) := by
  rw [clearFrameOps, performAll_constOps, sendClearFrame]

theorem performAll_clearOps (s : State) : performAll (expansion .clear) s = .done (clearChips s) := by
  rw [expansion, performAll_append, performAll_append, performAll_selAllOps, Run.andThen_done, performAll_clearFrameOps,
    Run.andThen_done, performAll_selNoneOps, clearChips]

/-- The check of `i` passes in `s`: the index of SEL_ONE, the validity of WR_DATA and of BEGIN (R181, R183). -/
def checkPasses (i : Instr) (s : State) : Bool :=
  match i with
  | .selOne n => decide (n < config.n)
  | .wrData => s.planesValid
  | .beginInit => s.icmdValid
  | _ => true

/-- An instruction whose expansion runs to its end there. -/
theorem exec_expansion_of_done {i : Instr} {s t : State} (hp : performAll (expansion i) s = .done t)
    (he : exec i s = .next t) : exec i s = .next (performAll (expansion i) s).state ∧
      (checkPasses i s = true → ∃ t, performAll (expansion i) s = .done t) :=
  ⟨by rw [hp, he, Run.state_done], fun _ => ⟨t, hp⟩⟩

/-- Every instruction is its expansion performed in order, and the run does not raise if the check passes (R30, R184). -/
theorem exec_expansion (i : Instr) (s : State) : exec i s = .next (performAll (expansion i) s).state ∧
    (checkPasses i s = true → ∃ t, performAll (expansion i) s = .done t) := by
  cases i with
  | selNone => exact exec_expansion_of_done (performAll_selectOps _ s) (exec_selNone s)
  | selAll => exact exec_expansion_of_done (performAll_selectOps _ s) (exec_selAll s)
  | selOne n =>
    rw [expansion, performAll_selOneOps]
    exact ⟨exec_selOne n s, fun h => ⟨_, selOne_done n (of_decide_eq_true h) s⟩⟩
  | extract r q => exact exec_expansion_of_done (performAll_extractOps r q s) (exec_extract r q s)
  | wrData =>
    rw [expansion, performAll_wrDataOps]
    exact ⟨exec_wrData s, fun h => ⟨_, wrData_done s h⟩⟩
  | bcastCmd c => exact exec_expansion_of_done (performAll_broadcastOps _ _ s fun _ _ => rfl) (exec_bcastCmd c s)
  | beginInit =>
    rw [expansion, performAll_beginOps]
    exact ⟨exec_beginInit s, fun h => ⟨_, beginInit_done s h⟩⟩
  | setIntensity l =>
    rw [expansion, performAll, perform, Run.andThen_done, performAll_beginOps]
    exact ⟨exec_setIntensity l s, fun _ => ⟨_, beginInit_done _ rfl⟩⟩
  | clear => exact exec_expansion_of_done (performAll_clearOps s) (exec_clear s)
  | showFrame =>
    exact exec_expansion_of_done ((performAll_showOps s).trans (showAll_done s))
      (by rw [exec_showFrame, showAll_done, Run.state_done])
  | dataFrame red green => exact exec_expansion_of_done (performAll_constOps _ s) (exec_dataFrame red green s)
  | clearFrame => exact exec_expansion_of_done (performAll_clearFrameOps s) (exec_clearFrame s)
  | wrCmd | sysDis | sysEn | ledOff | ledOn | blinkOff | blinkOn | slaveMode | rcMasterMode | extClkMasterMode | comNmos8
  | comNmos16 | comPmos8 | comPmos16 | pwmDuty =>
    exact exec_expansion_of_done (performAll_commandOps (.load _) _ s rfl) rfl

/-- The state an instruction answers is the one its expansion leaves. -/
theorem state_of_exec {i : Instr} {s t : State} (h : exec i s = .next t) : t = (performAll (expansion i) s).state := by
  rw [(exec_expansion i s).1] at h
  exact (Host.Outcome.next.inj h).symm

/-- What every micro-operation keeps, every instruction keeps. -/
theorem exec_keeps {P : State → Prop} (hP : ∀ m u, P u → P (perform m u).state) {i : Instr} {s t : State}
    (h : exec i s = .next t) (hs : P s) : P t := by
  rw [state_of_exec h]
  exact performAll_keeps _ (fun m _ => hP m) s hs

/-- A value that no micro-operation held by the expansions of `i` changes is what it was. -/
theorem exec_eq {α : Type} (f : State → α) {i : Instr} (hf : ∀ m, MayHold i m → ∀ u, f (perform m u).state = f u)
    {s t : State} (h : exec i s = .next t) : f t = f s := by
  rw [state_of_exec h]
  exact performAll_eq f _ (fun m hm => hf m (expansion_mayHold i m hm)) s

/-! ## Registers and lines have their writers (R22, R27, R39) -/

/-- Settles O53: the new events are drives of the expansion, and it holds drives of the instruction's lines only. -/
theorem linesHaveTheirDrivers : Obligations.LinesHaveTheirDrivers := by
  unfold Obligations.LinesHaveTheirDrivers
  intro i s
  obtain ⟨events, htrace, hdrive⟩ := performAll_keeps
    (P := fun u => ∃ events, u.traceRev = events ++ s.traceRev ∧ ∀ e ∈ events, mayDrive i e.1 = true) (expansion i)
    (fun m hm u ⟨events, htrace, hdrive⟩ => by
      rcases perform_event m u with he | ⟨l, src, v, rfl, he⟩
      · exact ⟨events, he.trans htrace, hdrive⟩
      · exact ⟨(l, v) :: events, by rw [he, htrace, List.cons_append],
          List.forall_mem_cons.2 ⟨expansion_mayHold i _ hm, hdrive⟩⟩)
    s ⟨[], rfl, by simp⟩
  exact ⟨_, events.reverse, (exec_expansion i s).1, by rw [State.trace, htrace, List.reverse_append]; rfl,
    by simpa using hdrive⟩

/-- A micro-operation puts no unknown cell into the chain (R27). -/
theorem perform_known (m : MicroOp) (s : State) (h : ∀ k, s.sr.get k ≠ .unknown) (k : Fin 4) :
    (perform m s).state.sr.get k ≠ .unknown := by
  by_cases hm : ∃ src, m = .drive .clk src
  · obtain ⟨src, rfl⟩ := hm
    rcases drive_chain .clk (src.level s) s with ⟨hsr, -⟩ | ⟨-, f, hf, hsr, -⟩
    · exact hsr ▸ h k
    · rw [perform, Run.state_done, hsr]
      match k with
      | 0 => exact hf
      | 1 => exact h 0
      | 2 => exact h 1
      | 3 => exact h 2
  · rw [perform_sr m s fun src hsrc => hm ⟨src, hsrc⟩]
    exact h k

/-- Settles O55: a shift puts in a flag, which is 0 or 1. -/
theorem unknownIsNeverProduced : Obligations.UnknownIsNeverProduced := by
  unfold Obligations.UnknownIsNeverProduced
  intro i s t h hs
  exact exec_keeps perform_known h hs

/-- An instruction that cannot raise leaves the fault registers and `BUSY`. -/
theorem exec_fault {i : Instr} {s t : State} (h : exec i s = .next t) (hc : checkPasses i s = true) :
    t.fault = s.fault ∧ t.faultCode = s.faultCode ∧ t.faultInfo = s.faultInfo ∧ t.busy = s.busy := by
  obtain ⟨u, hu⟩ := (exec_expansion i s).2 hc
  rw [state_of_exec h, hu]
  exact performAll_fault _ hu

theorem checkPasses_of_ne {i : Instr} (s : State) (h1 : ∀ n, i ≠ .selOne n) (h2 : i ≠ .wrData) (h3 : i ≠ .beginInit) :
    checkPasses i s = true := by
  cases i <;> simp_all [checkPasses]

section
variable {i : Instr} {m : MicroOp} (hm : MayHold i m)
include hm

/-! What the expansion of an instruction does not hold. -/

theorem MayHold.ne_drive {l : Line} (hl : mayDrive i l = false) (src : Source) : m ≠ .drive l src := by
  rintro rfl
  exact Bool.false_ne_true (hl.symm.trans hm)

theorem MayHold.ne_read (hx : ∀ r q, i ≠ .extract r q) (hs : i ≠ .showFrame) (x y k : Nat) (last : Bool) :
    m ≠ .read x y k last := by
  rintro rfl
  obtain ⟨r, q, he⟩ | he := hm
  · exact hx r q he
  · exact hs he

theorem MayHold.ne_load (hc : loadsCmdsr i = false) (c : Command) : m ≠ .load c := by
  rintro rfl
  exact Bool.false_ne_true (hc.symm.trans hm)

theorem MayHold.ne_loadIcmd (hc : loadsCmdsr i = false) : m ≠ .loadIcmd := by
  rintro rfl
  exact Bool.false_ne_true (hc.symm.trans hm)

theorem MayHold.ne_storeIcmd (hi : ∀ l, i ≠ .setIntensity l) (l : Int) : m ≠ .storeIcmd l := by
  rintro rfl
  obtain ⟨l', hl⟩ := hm
  exact hi l' hl

end

/-- Settles O51: each register is written by one kind of micro-operation, and only the instructions named hold that kind. -/
theorem registersHaveTheirWriters : Obligations.RegistersHaveTheirWriters := by
  unfold Obligations.RegistersHaveTheirWriters
  intro i s t h
  refine ⟨fun hi => ?_, fun hx hs => ?_, fun hc => ?_, fun l hl => ?_, fun hk => ?_, fun hd => ?_, fun h1 h2 h3 => ?_, ?_⟩
  · have keeps := exec_eq (fun u => (u.icmd, u.icmdValid)) (fun m hm u => perform_icmd m u (hm.ne_storeIcmd hi)) h
    simpa using keeps
  · have keeps := exec_eq (fun u => (u.red, u.green, u.planesValid, u.pxTraceRev))
      (fun m hm u => perform_planes m u (hm.ne_read hx hs)) h
    simpa [State.pxTrace] using keeps
  · exact exec_eq (·.cmdsr) (fun m hm u => perform_cmdsr m u (hm.ne_load hc) (hm.ne_loadIcmd hc)) h
  · exact exec_eq (·.lines.get l) (fun m hm u => perform_line m u l (hm.ne_drive hl)) h
  · exact exec_eq (·.sr) (fun m hm u => perform_sr m u (hm.ne_drive hk)) h
  · have keeps := exec_eq (fun u => (u.traceRev, u.chips)) (fun m hm u => perform_trace m u fun l => hm.ne_drive (hd l)) h
    simpa [State.trace] using keeps
  · exact exec_fault h (checkPasses_of_ne s h1 h2 h3)
  · have keeps := exec_eq (fun u => (u.op, u.arg, u.upc, u.host, u.pixels)) (fun m _ u => perform_request m u) h
    simp only [Prod.mk.injEq] at keeps
    obtain ⟨hop, harg, hupc, hhost, hpixels⟩ := keeps
    exact ⟨hop, harg, hupc, hhost, pixelAt_congr hpixels⟩

/-! ## Registers that no micro-operation reads (R32, R184) -/

/-- A run with its last state changed by `g`. -/
def Run.map (g : State → State) (r : Run) : Run :=
  match r with
  | .done s => .done (g s)
  | .raised s => .raised (g s)

/-- `g` sets only registers that no micro-operation reads: whatever they held, the run ends alike, up to them. -/
def Unread (g : State → State) : Prop := ∀ m s, (perform m (g s)).map g = (perform m s).map g

/-- `s` with the fault registers cleared. -/
def clearFault (s : State) : State := { s with fault := false, faultCode := 0, faultInfo := 0 }

/-- A drive reads neither the fault registers nor `BUSY` and `UPC`, and leaves them. -/
theorem drive_unread (l : Line) (v : Level) (s : State) (f : Bool) (code : BitVec 2) (info : BitVec 12) (b : Bool)
    (upc : BitVec 12) :
    drive l v { s with fault := f, faultCode := code, faultInfo := info, busy := b, upc := upc } =
      { drive l v s with fault := f, faultCode := code, faultInfo := info, busy := b, upc := upc } := by
  cases l with
  | clk => simp only [drive]; split <;> rfl
  | cs => rfl
  | data => rfl
  | wr => simp only [drive]; split <;> rfl

theorem unread_clearFault : Unread clearFault := by
  intro m s
  cases m with
  | drive l src =>
    have hd := drive_unread l (src.level s) s false 0 0 s.busy s.upc
    exact congrArg Run.done ((congrArg clearFault hd).trans (by simp [clearFault]))
  | read | load | loadIcmd | storeIcmd => rfl
  | checkIndex i => rw [perform, perform]; split <;> rfl
  | checkIcmd => cases h : s.icmdValid <;> simp [perform, Run.map, clearFault, raise, h]
  | checkPlanes => cases h : s.planesValid <;> simp [perform, Run.map, clearFault, raise, h]

theorem unread_retire (n : Nat) : Unread (retire n) := by
  intro m s
  cases m with
  | drive l src =>
    have hd := drive_unread l (src.level s) s s.fault s.faultCode s.faultInfo false (BitVec.ofNat 12 n)
    exact congrArg Run.done ((congrArg (retire n) hd).trans (by simp [retire]))
  | read | load | loadIcmd | storeIcmd => rfl
  | checkIndex i => rw [perform, perform]; split <;> rfl
  | checkIcmd => cases h : s.icmdValid <;> simp [perform, Run.map, retire, raise, h]
  | checkPlanes => cases h : s.planesValid <;> simp [perform, Run.map, retire, raise, h]

theorem Run.map_state {g : State → State} {r r' : Run} (h : r.map g = r'.map g) : g r.state = g r'.state := by
  cases r <;> cases r' <;> simp_all [Run.map]

/-- How many micro-operations of the list are performed from `s`: the one that raises is the last (R184). -/
def performed : List MicroOp → State → Nat
  | [], _ => 0
  | m :: ms, s =>
    match perform m s with
    | .done t => performed ms t + 1
    | .raised _ => 1

section
variable {g : State → State} (hg : Unread g)
include hg

theorem Unread.performAll (ms : List MicroOp) {s s' : State} (h : g s = g s') :
    (performAll ms s).map g = (performAll ms s').map g ∧ performed ms s = performed ms s' := by
  induction ms generalizing s s' with
  | nil => exact ⟨congrArg Run.done h, rfl⟩
  | cons m ms ih =>
    have hm : (perform m s).map g = (perform m s').map g := by rw [← hg m s, h, hg m s']
    rw [Machine.performAll, Machine.performAll, performed, performed]
    cases hp : perform m s <;> cases hp' : perform m s' <;>
      simp only [hp, hp', Run.map, Run.done.injEq, Run.raised.injEq, reduceCtorEq] at hm
    · obtain ⟨hr, hn⟩ := ih hm
      exact ⟨hr, congrArg (· + 1) hn⟩
    · exact ⟨congrArg Run.raised hm, rfl⟩

/-- Instructions do not read what micro-operations do not read. -/
theorem Unread.exec (i : Instr) {s s' t t' : State} (h : g s = g s') (ht : exec i s = .next t)
    (ht' : exec i s' = .next t') : g t = g t' := by
  rw [state_of_exec ht, state_of_exec ht']
  exact Run.map_state (hg.performAll _ h).1

end

/-- Settles O49: the fault registers are unread. -/
theorem faultChangesNothingElse : Obligations.FaultChangesNothingElse := by
  unfold Obligations.FaultChangesNothingElse
  intro i s f code info
  obtain ⟨t, ht⟩ := exec_isNext i s
  obtain ⟨t', ht'⟩ := exec_isNext i { s with fault := f, faultCode := code, faultInfo := info }
  refine ⟨t, t', ht, ht', ?_⟩
  have h : clearFault t = clearFault t' := unread_clearFault.exec i (by rfl) ht ht'
  cases t
  cases t'
  simp_all [clearFault]

/-! ## The engine one micro-operation a step (R31) -/

/-- A busy engine performs the micro-operation at `UPC`. -/
theorem microStep_busy {i : Instr} {pre ms : List MicroOp} {m : MicroOp} {s : State} (hlen : (expansion i).length ≤ 4096)
    (hsplit : expansion i = pre ++ m :: ms) (hb : s.busy = true) (hd : decodeRequest (requestWord s.op s.arg) = some i)
    (hupc : s.upc = BitVec.ofNat 12 pre.length) :
    microStep s = .next (performStep m (pre.length + 1) (ms == []) s) := by
  have hl : (expansion i).length = pre.length + (ms.length + 1) := by rw [hsplit, List.length_append, List.length_cons]
  have hpre : s.upc.toNat = pre.length := by rw [hupc, BitVec.toNat_ofNat, Nat.mod_eq_of_lt (by omega)]
  have hat : (expansion i)[pre.length]? = some m := by rw [hsplit]; simp
  have hlast : (pre.length + 1 == (expansion i).length) = (ms == []) := by
    cases ms <;> simp [hl]
  simp only [microStep, hb, if_true, microBusy, hd, hpre, hat, hlast]

/-- The end of a run of micro-steps: `BUSY` falls and `UPC` stays. -/
theorem performStep_end {m : MicroOp} {s : State} {n : Nat} (next : Nat) (last : Bool) (hupc : s.upc = BitVec.ofNat 12 n)
    (h : last = true ∨ ∃ t, perform m s = .raised t) :
    performStep m next last s = retire n (perform m s).state := by
  have hu : (perform m s).state.upc = BitVec.ofNat 12 n := by
    have h := perform_request m s
    simp only [Prod.mk.injEq] at h
    obtain ⟨-, -, hu, -⟩ := h
    exact hu.trans hupc
  rw [performStep, retire, ← hu]
  cases hp : perform m s with
  | done t =>
    rcases h with h | ⟨t', ht⟩
    · simp [h]
    · simp [hp] at ht
  | raised t => rfl

theorem microRun_succ {s u : State} (h : microStep s = .next u) (k : Nat) : microRun (k + 1) s = microRun k u := by
  rw [microRun, h]

/-- The first micro-operation is the last performed if it raises or is alone. -/
theorem performed_eq_one {m : MicroOp} {ms : List MicroOp} {s : State} (h : performed (m :: ms) s = 1) :
    ms = [] ∨ ∃ t, perform m s = .raised t := by
  rw [performed] at h
  cases hp : perform m s with
  | raised t => exact .inr ⟨t, rfl⟩
  | done t =>
    rw [hp] at h
    cases ms with
    | nil => exact .inl rfl
    | cons m' ms =>
      have hpos : 0 < performed (m' :: ms) t := by
        rw [performed]
        split <;> omega
      simp only [Nat.add_eq_right] at h
      omega

/-- Otherwise the run goes on. -/
theorem performed_eq_succ {m : MicroOp} {ms : List MicroOp} {s : State} {n : Nat} (h : performed (m :: ms) s = n + 2) :
    ∃ t, perform m s = .done t ∧ performed ms t = n + 1 := by
  rw [performed] at h
  cases hp : perform m s with
  | raised t => simp [hp] at h
  | done t => exact ⟨t, rfl, by simpa [hp] using h⟩

theorem exists_cons_of_performed {ms : List MicroOp} {s : State} {n : Nat} (h : performed ms s = n + 1) :
    ∃ m ms', ms = m :: ms' := by
  cases ms with
  | nil => simp [performed] at h
  | cons m ms' => exact ⟨m, ms', rfl⟩

/-- Micro-steps from the middle of an expansion, after `pre`, come to the end of the operation. -/
theorem microRun_performAll {i : Instr} (hlen : (expansion i).length ≤ 4096) (n : Nat) (pre ms : List MicroOp) (s : State)
    (hsplit : expansion i = pre ++ ms) (hb : s.busy = true) (hd : decodeRequest (requestWord s.op s.arg) = some i)
    (hupc : s.upc = BitVec.ofNat 12 pre.length) (hn : performed ms s = n + 1) :
    microRun (n + 1) s = .next (retire (pre.length + n) (performAll ms s).state) := by
  induction n generalizing pre ms s with
  | zero =>
    obtain ⟨m, ms, rfl⟩ := exists_cons_of_performed hn
    have hlast := performed_eq_one hn
    rw [microRun_succ (microStep_busy hlen hsplit hb hd hupc), performStep_end _ _ hupc (hlast.imp (fun h => by simp [h]) id),
      microRun, performAll]
    rcases hlast with rfl | ⟨t, ht⟩
    · cases perform m s <;> rfl
    · rw [ht]
      rfl
  | succ n ih =>
    obtain ⟨m, ms, rfl⟩ := exists_cons_of_performed hn
    obtain ⟨t, ht, hn⟩ := performed_eq_succ hn
    have hreq := perform_request m s
    obtain ⟨-, -, -, hbusy⟩ := perform_fault m s ht
    simp only [ht, Run.state_done, Prod.mk.injEq] at hreq
    obtain ⟨hop, harg, -⟩ := hreq
    obtain ⟨hrun, hcount⟩ := (unread_retire (pre.length + (n + 1))).performAll ms
      (s := { t with upc := BitVec.ofNat 12 (pre.length + 1) }) (s' := t) rfl
    have hms : (ms == []) = false := by
      obtain ⟨m', ms', rfl⟩ := exists_cons_of_performed hn
      rfl
    have hnext : performStep m (pre.length + 1) (ms == []) s = { t with upc := BitVec.ofNat 12 (pre.length + 1) } := by
      simp [performStep, ht, hms]
    have hrest := ih (pre ++ [m]) ms { t with upc := BitVec.ofNat 12 (pre.length + 1) } (by simp [hsplit]) (hbusy.trans hb)
      (by rw [hop, harg, hd]) (by simp) (hcount.trans hn)
    rw [microRun_succ (microStep_busy hlen hsplit hb hd hupc), hnext, hrest, performAll, ht, Run.andThen_done,
      List.length_append, List.length_singleton, Nat.add_assoc, Nat.add_comm 1 n, Run.map_state hrun]

/-! ## How many micro-operations the expansions have (R30) -/

theorem countP_cons_toNat {α : Type} (p : α → Bool) (a : α) (as : List α) :
    (a :: as).countP p = (p a).toNat + as.countP p := by
  rw [List.countP_cons, Nat.add_comm]
  cases p a <;> rfl

theorem countP_flatMap_of_forall {α β : Type} (p : β → Bool) (f : α → List β) (n : Nat) (as : List α)
    (h : ∀ a ∈ as, (f a).countP p = n) : (as.flatMap f).countP p = as.length * n := by
  rw [List.countP_flatMap, List.map_congr_left (g := fun _ => n) (by simpa using h), List.map_const',
    List.sum_replicate, smul_eq_mul]

/-! Counts of the micro-operations that a test `p` accepts, for a `p` that does not tell one drive from another. -/

section
variable {p : MicroOp → Bool} {drives : Bool} (hd : ∀ l v, p (.drive l v) = drives)
include hd

theorem countP_pulseOps (n : Nat) : (pulseOps n).countP p = n * (2 * drives.toNat) := by
  rw [pulseOps, countP_flatMap_of_forall p _ (2 * drives.toNat), List.length_range]
  intro _ _
  simp only [countP_cons_toNat, hd, List.countP_nil]
  omega

theorem countP_selectOps (level : Level) : (selectOps level).countP p = 9 * drives.toNat := by
  rw [selectOps, countP_cons_toNat, hd, countP_pulseOps hd, show config.n = 4 from rfl]
  omega

theorem countP_cells {α : Type} (f : α → Source) (as : List α) :
    (as.flatMap fun a => bitOps (f a)).countP p = as.length * (3 * drives.toNat) := by
  rw [countP_flatMap_of_forall p _ (3 * drives.toNat)]
  intro _ _
  simp only [bitOps, countP_cons_toNat, hd, List.countP_nil]
  omega

theorem countP_selOneOps (i : Nat) (hi : i < config.n) :
    (selOneOps i).countP p = (p (.checkIndex i)).toNat + (13 + 2 * i) * drives.toNat := by
  rw [selOneOps, if_pos hi]
  simp only [List.countP_append, countP_cons_toNat, countP_selectOps hd, countP_pulseOps hd, hd, List.countP_nil]
  ring

theorem countP_commandOps (load : MicroOp) : (commandOps load).countP p = (p load).toNat + 36 * drives.toNat := by
  rw [commandOps, countP_cons_toNat, countP_cells hd, List.length_reverse, List.length_range]
  omega

theorem countP_broadcastOps (load : MicroOp) : (broadcastOps load).countP p = (p load).toNat + 54 * drives.toNat := by
  rw [broadcastOps, List.countP_append, List.countP_append, countP_selectOps hd, countP_selectOps hd, countP_commandOps hd]
  omega

theorem countP_constOps (bits : List Level) : (constOps bits).countP p = bits.length * (3 * drives.toNat) :=
  countP_cells hd _ bits

theorem countP_clearFrameOps : clearFrameOps.countP p = 1182 * drives.toNat := by
  rw [clearFrameOps, countP_constOps hd, List.length_append, List.length_replicate, show leadBits.length = 10 from rfl,
    show config.memBits = 384 from rfl]
  omega

theorem countP_wrDataOps : wrDataOps.countP p = (p .checkPlanes).toNat + 798 * drives.toNat := by
  rw [wrDataOps, countP_cons_toNat, List.countP_append, List.countP_append, countP_constOps hd, countP_cells hd,
    countP_cells hd, List.length_range, show leadBits.length = 10 from rfl, show config.planeBits = 128 from rfl]
  omega

theorem countP_beginOps : beginOps.countP p = (p .checkIcmd).toNat + (([.load config.sysDis, .load config.comNmos8,
    .load config.rcMasterMode, .load config.sysEn, .loadIcmd, .load config.blinkOff, .load config.ledOn] :
    List MicroOp).countP p + 378 * drives.toNat) := by
  rw [beginOps, countP_cons_toNat]
  simp only [List.flatMap_cons, List.flatMap_nil, List.countP_append, countP_broadcastOps hd, countP_cons_toNat,
    List.countP_nil]
  omega

end

theorem countP_extractOps {p : MicroOp → Bool} {reads : Bool} (hr : ∀ x y k last, p (.read x y k last) = reads)
    (r q : BitVec 1) : (extractOps r q).countP p = 128 * reads.toNat := by
  have hlen : scanOrder.length = 128 := rfl
  rw [extractOps, List.countP_map, Function.comp_def]
  simp only [hr]
  cases reads <;> simp [hlen]

section
variable {p : MicroOp → Bool} {drives reads : Bool} (hd : ∀ l v, p (.drive l v) = drives)
  (hr : ∀ x y k last, p (.read x y k last) = reads)
include hd hr

theorem countP_showChipOps (c : Fin 4) : (showChipOps c).countP p =
    (p (.checkIndex c.val)).toNat + (p .checkPlanes).toNat + 128 * reads.toNat + (820 + 2 * c.val) * drives.toNat := by
  rw [showChipOps, List.countP_append, List.countP_append, List.countP_append, countP_selOneOps hd c.val c.isLt,
    countP_extractOps hr, countP_wrDataOps hd, countP_selectOps hd]
  ring

/-- The composition of SHOW, by kind of micro-operation (R30). -/
theorem countP_showOps {indexes : Bool} (hi : ∀ i, p (.checkIndex i) = indexes) : (expansion .showFrame).countP p =
    3346 * drives.toNat + 512 * reads.toNat + (p (.load config.sysEn)).toNat + 4 * indexes.toNat +
      4 * (p .checkPlanes).toNat := by
  rw [expansion, List.countP_append, List.countP_append, List.countP_append, List.countP_append, countP_broadcastOps hd,
    countP_showChipOps hd hr, countP_showChipOps hd hr, countP_showChipOps hd hr, countP_showChipOps hd hr, hi, hi, hi, hi,
    show (0 : Fin 4).val = 0 from rfl, show (1 : Fin 4).val = 1 from rfl, show (2 : Fin 4).val = 2 from rfl,
    show (3 : Fin 4).val = 3 from rfl]
  ring

end

/-- The test that every micro-operation passes. -/
def everyOp (_ : MicroOp) : Bool := true

theorem length_eq_countP (ms : List MicroOp) : ms.length = ms.countP everyOp :=
  (congrFun List.countP_true ms).symm

/-- The expansion of an operation whose check passes ends at its last micro-operation. -/
theorem length_expansion {i : Instr} {s : State} (h : checkPasses i s = true) :
    (expansion i).length = lastMicro i s + 1 := by
  have hd : ∀ l v, everyOp (.drive l v) = true := fun _ _ => rfl
  have hr : ∀ x y k last, everyOp (.read x y k last) = true := fun _ _ _ _ => rfl
  rw [length_eq_countP]
  cases i with
  | selNone | selAll =>
    rw [expansion, countP_selectOps hd]
    rfl
  | selOne n =>
    have hn : n < config.n := of_decide_eq_true h
    have hlast : lastMicro (.selOne n) s = 13 + 2 * n := if_pos hn
    rw [expansion, countP_selOneOps hd n hn, hlast, Nat.add_comm, Bool.toNat_true, Nat.mul_one]
    rfl
  | extract r q => rw [expansion, countP_extractOps hr]; rfl
  | wrData =>
    have hlast : lastMicro .wrData s = 798 := if_pos h
    rw [expansion, countP_wrDataOps hd, hlast]
    rfl
  | bcastCmd c => exact countP_broadcastOps hd _
  | beginInit =>
    have hlast : lastMicro .beginInit s = 385 := if_pos h
    rw [expansion, countP_beginOps hd, hlast]
    rfl
  | setIntensity l =>
    rw [expansion, countP_cons_toNat, countP_beginOps hd]
    rfl
  | clear =>
    rw [expansion, List.countP_append, List.countP_append, countP_selectOps hd, countP_selectOps hd, countP_clearFrameOps hd]
    rfl
  | showFrame => exact countP_showOps hd hr (indexes := true) (fun _ => rfl)
  | dataFrame red green =>
    rw [expansion, countP_constOps hd, dataFrame_bits, dataFrame_length]
    rfl
  | clearFrame => exact countP_clearFrameOps hd
  | wrCmd | sysDis | sysEn | ledOff | ledOn | blinkOff | blinkOn | slaveMode | rcMasterMode | extClkMasterMode | comNmos8
  | comNmos16 | comPmos8 | comPmos16 | pwmDuty => exact countP_commandOps hd _

theorem lastMicro_selOne (n : Nat) (s : State) : lastMicro (.selOne n) s = if n < 4 then 13 + 2 * n else 9 := rfl

theorem lastMicro_wrData (s : State) : lastMicro .wrData s = if s.planesValid then 798 else 0 := rfl

theorem lastMicro_beginInit (s : State) : lastMicro .beginInit s = if s.icmdValid then 385 else 0 := rfl

/-- `UPC` stays within the expansion of SHOW (R30). -/
theorem lastMicro_le (i : Instr) (s : State) : lastMicro i s ≤ 3866 := by
  cases i with
  | selOne n => rw [lastMicro_selOne]; split <;> omega
  | wrData => rw [lastMicro_wrData]; split <;> decide
  | beginInit => rw [lastMicro_beginInit]; split <;> decide
  | _ => exact Nat.le_of_ble_eq_true rfl

/-- SEL_ONE out of range is the ten micro-operations up to its check (R104). -/
theorem selOneOps_of_ge {n : Nat} (h : ¬ n < config.n) :
    selOneOps n = selectOps config.csDeselectLevel ++ [.checkIndex n] := by
  rw [selOneOps, if_neg h, List.append_nil]

theorem length_expansion_le (i : Instr) : (expansion i).length ≤ 3867 := by
  by_cases h : checkPasses i { State.reset with planesValid := true, icmdValid := true } = true
  · rw [length_expansion h]
    exact Nat.succ_le_succ (lastMicro_le i _)
  · cases i with
    | selOne n =>
      rw [expansion, selOneOps_of_ge fun hn => h (decide_eq_true hn)]
      exact Nat.le_of_ble_eq_true rfl
    | _ => exact absurd rfl h

/-- Settles O58: the counts of SHOW by kind, and the length of every expansion from its last micro-operation. -/
theorem expansionsFitTheCounter : Obligations.ExpansionsFitTheCounter := by
  unfold Obligations.ExpansionsFitTheCounter
  refine ⟨length_expansion_le, length_expansion (i := .showFrame) (s := State.reset) rfl, ?_, ?_, ?_, ?_, ?_⟩
  · exact countP_showOps (drives := true) (reads := false) (indexes := false) (fun _ _ => rfl) (fun _ _ _ _ => rfl) fun _ => rfl
  · exact countP_showOps (drives := false) (reads := true) (indexes := false) (fun _ _ => rfl) (fun _ _ _ _ => rfl) fun _ => rfl
  · exact countP_showOps (drives := false) (reads := false) (indexes := false) (fun _ _ => rfl) (fun _ _ _ _ => rfl) fun _ => rfl
  · exact countP_showOps (drives := false) (reads := false) (indexes := true) (fun _ _ => rfl) (fun _ _ _ _ => rfl) fun _ => rfl
  · exact countP_showOps (drives := false) (reads := false) (indexes := false) (fun _ _ => rfl) (fun _ _ _ _ => rfl) fun _ => rfl

theorem performed_of_done {ms : List MicroOp} {s t : State} (h : performAll ms s = .done t) : performed ms s = ms.length := by
  induction ms generalizing s with
  | nil => rfl
  | cons m ms ih =>
    rw [performAll] at h
    rw [performed]
    cases hp : perform m s with
    | done u => simpa using ih (by simpa [hp] using h)
    | raised u => simp [hp] at h

theorem performed_append {as : List MicroOp} (bs : List MicroOp) {s t : State} (h : performAll as s = .done t) :
    performed (as ++ bs) s = as.length + performed bs t := by
  induction as generalizing s with
  | nil => cases h; simp
  | cons m as ih =>
    rw [performAll] at h
    rw [List.cons_append, performed]
    cases hp : perform m s with
    | done u =>
      simp only [ih (by simpa [hp] using h), List.length_cons]
      omega
    | raised u => simp [hp] at h

/-- The last micro-operation performed is the one `lastMicro` names (R31). -/
theorem performed_expansion (i : Instr) (s : State) : performed (expansion i) s = lastMicro i s + 1 := by
  by_cases h : checkPasses i s = true
  · obtain ⟨t, ht⟩ := (exec_expansion i s).2 h
    rw [performed_of_done ht, length_expansion h]
  · cases i with
    | selOne n =>
      have hn : ¬ n < config.n := fun hn => h (decide_eq_true hn)
      have hcheck : ∀ u, performed [.checkIndex n] u = 1 := fun u => by simp [performed, perform, hn]
      rw [expansion, selOneOps_of_ge hn, performed_append _ (performAll_selectOps _ s), hcheck]
      exact congrArg (· + 1) (if_neg hn).symm
    | wrData =>
      have hv : ¬ s.planesValid = true := h
      simp [expansion, wrDataOps, performed, perform, lastMicro_wrData, hv]
    | beginInit =>
      have hv : ¬ s.icmdValid = true := h
      simp [expansion, beginOps, performed, perform, lastMicro_beginInit, hv]
    | _ => exact absurd rfl h

/-- The step that takes a request from the host: acceptance, the instruction, the end (R31). -/
theorem step_request {s : State} {w : RequestWord} {rest : List HostMove} {i : Instr} (hb : s.busy = false)
    (hh : s.host = .present (.request w) :: rest) (hd : decodeRequest w = some i) :
    step s = retireOutcome (lastMicro i s) (exec i (accept w { s with host := rest })) := by
  have hlast : lastMicro i { s with host := rest } = lastMicro i s := by cases i <;> rfl
  have hidle : ¬ s.busy = true := by simp [hb]
  rw [step, nextAction, hh]
  simp only [if_neg hidle, takeMove, hd, runAction, hlast]

/-- Settles O8: acceptance, the instruction and retirement are the step's three parts. -/
theorem stepRunsThePresentedRequest : Obligations.StepRunsThePresentedRequest := by
  unfold Obligations.StepRunsThePresentedRequest
  intro s t w rest i hb hh hd ht
  rw [step_request hb hh hd]
  exact congrArg (retireOutcome (lastMicro i s)) ht

/-- Settles O57: micro-steps run the whole expansion, and the expansion is the instruction. -/
theorem microStepsComposeToTheStep : Obligations.MicroStepsComposeToTheStep := by
  unfold Obligations.MicroStepsComposeToTheStep
  intro s w rest i hb hh hd
  have hstep : step s = .next (retire (lastMicro i s) (performAll (expansion i) (accept w { s with host := rest })).state) := by
    rw [step_request hb hh hd, (exec_expansion i _).1, retireOutcome]
  have haccept : microStep s = .next (accept w { s with host := rest }) := by
    simp only [microStep, hb, Bool.false_eq_true, if_false, hh, hd]
  have hrun := microRun_performAll (Nat.le_trans (length_expansion_le i) (by decide)) (lastMicro i s) [] (expansion i)
    (accept w { s with host := rest }) rfl rfl (by rw [accept_op, accept_arg, requestWord_fields, hd]) rfl
    (performed_expansion i _)
  rw [microRun_succ haccept, hrun, List.length_nil, Nat.zero_add, hstep]
  exact ⟨rfl, _, rfl, rfl⟩

/-- Settles O10: with no move of the host the step waits. -/
theorem idleEngineWaits : Obligations.IdleEngineWaits := by
  unfold Obligations.IdleEngineWaits
  intro s hb hh
  rw [step, nextAction, hh, hb]
  rfl

/-! ## The invariant between operations (R38) -/

/-- The intensity command of any level is one of the sixteen words of R163. -/
theorem intensityCommand_mem (l : Int) : intensityCommand l ∈ (List.range 16).map levelWord := by
  have hclamp : 0 ≤ clamp l config.intensityMin config.intensityMax ∧ clamp l config.intensityMin config.intensityMax < 16 := by
    rw [clamp, show config.intensityMin = 0 from rfl, show config.intensityMax = 15 from rfl]
    split
    · omega
    · split <;> omega
  have hwords : ∀ n : Fin 16, (BitVec.ofInt 12 (n.val : Int) <<< 1) ||| config.pwmBase ∈ (List.range 16).map levelWord := by
    decide
  obtain ⟨n, hn⟩ := Int.eq_ofNat_of_zero_le hclamp.1
  rw [intensityCommand, hn]
  exact hwords ⟨n, by omega⟩

/-- A raise keeps the fault registers in agreement: a recorded code is a fault's (R180, R184). -/
theorem registersLegal_raise (f : EngineFault) (info : BitVec 12) {s : State} (h : RegistersLegal s) :
    RegistersLegal (raise f info s) := by
  have hf : f.code ≠ 0 := by cases f <;> decide
  obtain ⟨hicmd, -, hcode⟩ := h
  refine ⟨hicmd, by simp, fun _ => ?_⟩
  rw [raise_faultCode]
  split
  · exact hcode ‹_›
  · exact hf

/-- Every micro-operation keeps `ICMD` legal and the fault registers in agreement (R28, R180, R184). -/
theorem perform_registersLegal (m : MicroOp) (s : State) (h : RegistersLegal s) : RegistersLegal (perform m s).state := by
  have hp := perform_performs m s
  generalize perform m s = r at hp ⊢
  cases hp with
  | storeIcmd l =>
    obtain ⟨-, hfaults⟩ := h
    exact ⟨fun _ => intensityCommand_mem l, hfaults⟩
  | raises => exact registersLegal_raise _ _ h
  | drive | read | load | loadIcmd | pass => simpa [RegistersLegal, readCell] using h

theorem Received.close_frames (r : Received) (h : [] ∉ r.frames) : [] ∉ r.close.frames := by
  rw [Received.close]
  split
  · exact h
  · simp_all [eq_comm]

theorem Received.edge_frames (r : Received) (before after : ChainCell) (h : [] ∉ r.frames) :
    [] ∉ (r.edge before after).frames := by
  have hc := r.close_frames h
  cases before <;> cases after <;> simp_all [Received.edge]

/-- Every micro-operation keeps the observer legal (R60). -/
theorem perform_observerLegal (m : MicroOp) (s : State) (h : ObserverLegal s) : ObserverLegal (perform m s).state := by
  by_cases hm : ∃ l src, m = .drive l src
  · obtain ⟨l, src, rfl⟩ := hm
    intro k
    rw [perform, Run.state_done]
    obtain ⟨hrx, hframes⟩ := h k
    rcases drive_chain l (src.level s) s with ⟨hsr, hch | ⟨b, hch⟩⟩ | ⟨-, f, -, hsr, hch⟩
    · rw [hsr, hch]
      exact h k
    · rw [hsr, hch, PerChip.get_zipWith]
      cases hk : s.sr.get k <;> simp_all [Received.sample]
    · rw [hsr, hch, observeShift_get]
      exact ⟨(Received.settled_edge _ _ _ hrx).2, Received.edge_frames _ _ _ hframes⟩
  · have hne : ∀ l src, m ≠ .drive l src := fun l src e => hm ⟨l, src, e⟩
    have htrace := perform_trace m s hne
    simp only [Prod.mk.injEq] at htrace
    rw [ObserverLegal, perform_sr m s (hne .clk), htrace.2]
    exact h

/-! Each operation leaves `CLK` and `WR` idle and the chain at a selection of R27. -/

/-- The line and chain part of R38, kept folded so that the operations' states are not evaluated. -/
def AtRest (s : State) : Prop := ChainQuiet s

theorem atRest_of_sel {s : State} {c : Selection} (hclk : s.lines.clk = config.clkIdle)
    (hwr : s.lines.wr = config.wrIdle) (hsel : sel s.sr = c) (hc : c ≠ .mixed ∧ c ≠ .undef) : AtRest s :=
  ⟨hclk, hwr, hsel ▸ hc.1, fun h => absurd (hsel.symm.trans h) hc.2⟩

/-- What leaves `CLK` and the chain, and `WR` idle: a transfer among them. -/
theorem AtRest.of_eq {s t : State} (h : AtRest s) (hclk : t.lines.clk = s.lines.clk) (hwr : t.lines.wr = config.wrIdle)
    (hsr : t.sr = s.sr) : AtRest t := by
  obtain ⟨hidle, -, hsel⟩ := h
  exact ⟨hclk.trans hidle, hwr, hsr ▸ hsel⟩

section
variable {s : State} (h : AtRest s)
include h

theorem AtRest.wr : s.lines.wr = config.wrIdle := by
  obtain ⟨-, hwr, -⟩ := h
  exact hwr

theorem AtRest.selNone : AtRest (selNone s) := by
  rw [selNone_eq]
  exact atRest_of_sel (c := .none) rfl h.wr rfl (by decide)

theorem AtRest.selAll : AtRest (selAll s) := by
  rw [selAll_eq]
  exact atRest_of_sel (c := .all) rfl h.wr rfl (by decide)

theorem AtRest.raise (f : EngineFault) (info : BitVec 12) : AtRest (raise f info s) := h.of_eq rfl h.wr rfl

theorem AtRest.selOne (n : Nat) : AtRest (selOne n s).state := by
  by_cases hn : n < 4
  · have hsel : ∀ k : Fin 4, sel (onlyChip k.val) = .one k := by decide
    rw [selOne_done n hn]
    exact atRest_of_sel rfl h.wr (hsel ⟨n, hn⟩) (by simp)
  · rw [selOne_raised n (by omega)]
    exact h.selNone.raise _ _

theorem AtRest.sendCommand (c : Command) : AtRest (sendCommand c s) := by
  rw [sendCommand_eq]
  exact h.of_eq rfl rfl rfl

theorem AtRest.sendPlanes (red green : Plane) : AtRest (sendPlanes red green s) := by
  rw [sendPlanes_eq]
  exact h.of_eq rfl rfl rfl

theorem AtRest.sendClearFrame : AtRest (sendClearFrame s) := by
  rw [sendClearFrame_eq]
  exact h.of_eq rfl rfl rfl

theorem AtRest.extract (r q : BitVec 1) : AtRest (extract r q s) := by
  rw [extract_frame]
  exact h.of_eq rfl h.wr rfl

theorem AtRest.wrData : AtRest (wrData s).state := by
  rw [Machine.wrData]
  split
  · rw [Run.state_done]
    exact h.sendPlanes _ _
  · exact h.raise _ _

theorem AtRest.broadcast (c : Command) : AtRest (broadcast c s) := by
  rw [Machine.broadcast]
  exact (h.selAll.sendCommand c).selNone

theorem AtRest.broadcasts (cs : List Command) : AtRest (broadcasts cs s) := by
  induction cs generalizing s with
  | nil => exact h
  | cons c cs ih =>
    rw [Machine.broadcasts]
    exact ih (h.broadcast c)

theorem AtRest.beginInit : AtRest (beginInit s).state := by
  rw [Machine.beginInit]
  split
  · rw [Run.state_done]
    exact h.broadcasts _
  · exact h.raise _ _

theorem AtRest.setIntensity (l : Int) : AtRest (setIntensity l s).state := by
  have hs : AtRest { s with icmd := intensityCommand l, icmdValid := true } := h.of_eq rfl h.wr rfl
  rw [Machine.setIntensity]
  exact hs.beginInit

theorem AtRest.clearChips : AtRest (clearChips s) := by
  rw [Machine.clearChips]
  exact h.selAll.sendClearFrame.selNone

theorem AtRest.showChip (c : Fin 4) : AtRest (showChip c s).state := by
  rw [showChip_done, Run.state_done]
  exact (((h.selOne _).extract _ _).sendPlanes _ _).selNone

theorem AtRest.showAll : AtRest (showAll s).state := by
  rw [showAll_done, Run.state_done]
  exact ((((h.broadcast _).showChip 0).showChip 1).showChip 2).showChip 3

/-- Every instruction leaves the lines and the chain at rest (R38). -/
theorem AtRest.exec (i : Instr) : ∃ t, exec i s = .next t ∧ AtRest t := by
  cases i with
  | selNone => exact ⟨_, exec_selNone s, h.selNone⟩
  | selAll => exact ⟨_, exec_selAll s, h.selAll⟩
  | selOne n => exact ⟨_, exec_selOne n s, h.selOne n⟩
  | extract r q => exact ⟨_, exec_extract r q s, h.extract r q⟩
  | wrData => exact ⟨_, exec_wrData s, h.wrData⟩
  | bcastCmd c => exact ⟨_, exec_bcastCmd c s, h.broadcast _⟩
  | beginInit => exact ⟨_, exec_beginInit s, h.beginInit⟩
  | setIntensity l => exact ⟨_, exec_setIntensity l s, h.setIntensity l⟩
  | clear => exact ⟨_, exec_clear s, h.clearChips⟩
  | showFrame => exact ⟨_, exec_showFrame s, h.showAll⟩
  | dataFrame red green => exact ⟨_, exec_dataFrame red green s, h.sendPlanes red green⟩
  | clearFrame => exact ⟨_, exec_clearFrame s, h.sendClearFrame⟩
  | wrCmd | sysDis | sysEn | ledOff | ledOn | blinkOff | blinkOn | slaveMode | rcMasterMode | extClkMasterMode | comNmos8
  | comNmos16 | comPmos8 | comPmos16 | pwmDuty => exact ⟨_, rfl, h.sendCommand _⟩

end

/-- The invariant but for `BUSY`, which an accepted operation sets: what every instruction keeps. -/
def Settled (s : State) : Prop := AtRest s ∧ RegistersLegal s ∧ ObserverLegal s ∧ Memory.wf s.pixels = true

theorem quiet_iff (s : State) : Quiet s ↔ s.busy = false ∧ Settled s := Iff.rfl

theorem Settled.exec {i : Instr} {s t : State} (hs : Settled s) (h : exec i s = .next t) : Settled t := by
  obtain ⟨hrest, hregs, hobs, hwf⟩ := hs
  obtain ⟨u, hu, hrest⟩ := hrest.exec i
  obtain rfl : u = t := Host.Outcome.next.inj (hu.symm.trans h)
  exact ⟨hrest, exec_keeps perform_registersLegal h hregs, exec_keeps perform_observerLegal h hobs,
    exec_keeps (P := fun u => Memory.wf u.pixels = true) (fun m u hwf => by rw [perform_pixels]; exact hwf) h hwf⟩

/-- A reset leads to a quiet state (R37, R200). -/
theorem quiet_resetEngine {s : State} (h : Memory.wf s.pixels = true) : Quiet (resetEngine s) := by
  have hrest : AtRest (resetEngine s) := ⟨rfl, rfl, by simp [sel, PerChip.const], fun _ => rfl⟩
  exact ⟨rfl, hrest, ⟨by simp, by simp, by simp⟩, fun k => by simp, h⟩

/-- Raising a fault leaves a quiet state quiet (R184). -/
theorem quiet_raise (f : EngineFault) (info : BitVec 12) {s : State} (h : Settled s) : Quiet (raise f info s) := by
  obtain ⟨hrest, hregs, hobs, hwf⟩ := h
  exact ⟨rfl, hrest.raise f info, registersLegal_raise f info hregs, hobs, hwf⟩

/-- A pixel write leaves a settled state settled (R50, R63). -/
theorem Settled.writePixel (x : BitVec 5) (y : BitVec 4) (v : BitVec 2) {s : State} (h : Settled s) :
    Settled (writePixel x y v s) := by
  obtain ⟨hrest, hregs, hobs, hwf⟩ := h
  exact ⟨hrest.of_eq rfl hrest.wr rfl, hregs, hobs, wf_writePixel x y v s hwf⟩

/-- Settles O2: the reset state is the one a reset leaves with no pixel and no move. -/
theorem invariantAtReset : Obligations.InvariantAtReset := by
  unfold Obligations.InvariantAtReset
  exact quiet_resetEngine (s := State.reset) wf_reset

/-- Settles O1: the values are the fields of the reset state. -/
theorem resetLeavesTheStatedValues : Obligations.ResetLeavesTheStatedValues := by
  unfold Obligations.ResetLeavesTheStatedValues
  exact ⟨PerChip.get_const _, rfl, rfl, rfl, rfl, rfl, rfl, rfl, rfl, rfl, rfl, rfl, rfl, rfl, rfl⟩

/-- Settles O3: by cases on what an idle machine's step does; an instruction keeps the invariant but for `BUSY`, and `BUSY`
falls at the end. -/
theorem everyStepKeepsTheInvariant : Obligations.EveryStepKeepsTheInvariant := by
  unfold Obligations.EveryStepKeepsTheInvariant
  intro s t hq h
  obtain ⟨hb, hs⟩ := (quiet_iff s).1 hq
  have htaken : ∀ rest, Settled { s with host := rest } := fun _ => hs
  rcases step_idle_cases hb h with ⟨-, rfl⟩ | ⟨rest, -, rfl⟩ | ⟨x, y, v, rest, -, rfl⟩ | ⟨w, rest, -, -, rfl⟩ |
    ⟨w, rest, i, u, -, -, hu, rfl⟩ | ⟨p, rest, i, -, -, -, ht⟩
  · exact hq
  · obtain ⟨-, -, -, hwf⟩ := htaken rest
    exact quiet_resetEngine hwf
  · exact (quiet_iff _).2 ⟨hb, (htaken rest).writePixel x y v⟩
  · exact quiet_raise _ _ (htaken rest)
  · have haccepted : Settled (accept w { s with host := rest }) := htaken rest
    have hu : Settled u := haccepted.exec hu
    exact (quiet_iff _).2 ⟨rfl, hu⟩
  · exact (quiet_iff _).2 ⟨exec_keeps perform_idle ht hb, (htaken rest).exec ht⟩

end Sys2Proof.Machine

/-! SUPPORT. The family of 20_memory.md: a host's pixel write and what it leaves (R50, R63, R213), the end of the frames in
progress at a deselection (R60), and the RAM of the chips after SHOW and CLEAR (R57, R58). -/

namespace Sys2Proof.Machine

open Sys2Proof.Safety Sys2Proof.Claims

/-! ## The RAM of the chips (R57, R58) -/

/-- A broadcast closes every chip's frame, whatever was open before (R60, R122). -/
theorem broadcast_noFrameOpen (c : Command) (s : State) : NoFrameOpen (broadcast c s) := fun k => by
  rw [broadcast_eq, observeMany_close, Received.close_rx]

/-- A chip's part of `SHOW` leaves no frame open where none was. -/
theorem showChip_noFrameOpen (c : Fin 4) {s : State} (h : NoFrameOpen s) : NoFrameOpen (showChip c s).state := fun k => by
  rw [showChip_chips c s h k]
  split
  · rfl
  · exact h k

/-- After the broadcast of `SHOW` each chip records its own rectangle's data frame and nothing else, from every state: the
broadcast leaves no frame open (R166). -/
theorem showAll_chips_broadcast (s : State) (k : Fin 4) : (showAll s).state.chips.get k =
    ⟨[], ((broadcast config.sysEn s).chips.get k).frames ++ [chipFrame s k]⟩ := by
  have hpixels : (broadcast config.sysEn s).pixels = s.pixels := by rw [broadcast_eq]
  have h0 := broadcast_noFrameOpen config.sysEn s
  have h1 := showChip_noFrameOpen 0 h0
  have h2 := showChip_noFrameOpen 1 h1
  have h3 := showChip_noFrameOpen 2 h2
  rw [showAll_done, Run.state_done, showChip_chips 3 _ h3, showChip_chips 2 _ h2, showChip_chips 1 _ h1,
    showChip_chips 0 _ h0]
  simp only [chipFrame_congr (showChip_pixels _ _), chipFrame_congr hpixels]
  fin_cases k <;> simp

/-- A data frame decides all 256 bits that its two planes reach, whatever came before: red below 128, green above (R57, R78). -/
theorem ramBit_dataFrame (fs : List (List Level)) (red green : Nat → Level) {j : Nat} (hj : j < 128) :
    ramBit (fs ++ [dataFrame red green]) j = some (red j) ∧
      ramBit (fs ++ [dataFrame red green]) (128 + j) = some (green j) := by
  have hp := payload_dataFrame red green
  constructor
  · rw [ramBit_payload fs _ _ j hp (by simp; omega)]
    simp [hj]
  · rw [ramBit_payload fs _ _ (128 + j) hp (by simp; omega)]
    simp

/-- A clear frame zeroes the bits it reaches (R57, R79). -/
theorem ramBit_clearFrame (fs : List (List Level)) {j : Nat} (hj : j < 384) :
    ramBit (fs ++ [clearFrame]) j = some false := by
  rw [ramBit_payload fs _ _ j payload_clearFrame (by rwa [List.length_replicate]), List.getElem_replicate]

/-- Settles O44: the last frame each chip records is its rectangle's data frame, or the clear frame, and that frame decides
the bits. -/
theorem framesFillTheChips : Obligations.FramesFillTheChips := by
  unfold Obligations.FramesFillTheChips
  intro s
  refine ⟨⟨_, exec_showFrame s, fun c j hj => ?_⟩, fun h => ⟨_, exec_clear s, fun c j hj => ?_⟩⟩
  · simp only [chipRam, showAll_chips_broadcast, chipFrame]
    exact ramBit_dataFrame _ _ _ hj
  · simp only [chipRam, clearChips_chips s h]
    exact ramBit_clearFrame _ hj

/-! ## The pixel space (R50, R63) -/

/-- A pixel write at the head of the host's moves is taken by an idle engine's step (R213). -/
theorem step_pixel {s : State} {x : BitVec 5} {y : BitVec 4} {v : BitVec 2} {rest : List HostMove} (hb : s.busy = false)
    (hh : s.host = .pixel x y v :: rest) : step s = .next (writePixel x y v { s with host := rest }) := by
  rw [step, nextAction, hh, hb]
  rfl

/-- The pixel written reads back as the value written (R63). -/
theorem pixelAt_writePixel_same (x : BitVec 5) (y : BitVec 4) (v : BitVec 2) {s : State} (h : s.pixels.wf = true) :
    pixelAt (writePixel x y v s) x.toNat y.toNat = v := by
  rw [pixelAt, writePixel_pixels, Memory.read_write_same s.pixels h]
  exact BitVec.setWidth_setWidth_of_le v (by decide)

/-- A pixel write changes no other cell of the panel's columns: two cells of one address are one cell (R50). -/
theorem pixelAt_writePixel_other (x : BitVec 5) (y : BitVec 4) (v : BitVec 2) (s : State) {a b : Nat} (ha : a < 32)
    (h : ¬ (a = x.toNat ∧ b = y.toNat)) : pixelAt (writePixel x y v s) a b = pixelAt s a b := by
  have haddr : pixelAddress a b ≠ pixelAddress x.toNat y.toNat := fun e => h (pixelAddress_inj ha x.isLt e)
  rw [pixelAt, writePixel_pixels, Memory.read_write_other s.pixels haddr, pixelAt]

/-- Settles O14: the step is the pixel write; its cell reads back and every other address is another cell. -/
theorem pixelWriteIsSeen : Obligations.PixelWriteIsSeen := by
  unfold Obligations.PixelWriteIsSeen
  intro s x y v rest hb hwf hh
  refine ⟨_, step_pixel hb hh, pixelAt_writePixel_same x y v hwf, fun a b ha hab => ?_, rfl⟩
  exact pixelAt_writePixel_other x y v { s with host := rest } ha hab

/-! ## The end of the frames in progress (R60) -/

/-- A record once settled, as the claims state it. -/
theorem Received.settled_eq_ite (r : Received) (cell : ChainCell) : r.settled cell =
    if cell = .selected then ⟨[], if r.rx = [] then r.frames else r.frames ++ [r.rx]⟩ else r := by
  cases cell <;> rfl

/-- `SEL_NONE` settles every chip's record (R102). -/
theorem selNone_framesEnd {s : State} (h : ∀ k, (s.chips.get k).legal (s.sr.get k)) : FramesEnd s (selNone s) := fun k => by
  rw [selNone_eq, ← Received.settled_eq_ite]
  exact observeMany_deselect s.sr s.chips k h

/-- `SEL_ONE` settles every chip's record, in range, where the passing flag finds no frame open, and out of range, where it
ends after its `SEL_NONE` part (R104). -/
theorem selOne_framesEnd (i : Nat) {s : State} (h : ∀ k, (s.chips.get k).legal (s.sr.get k)) :
    FramesEnd s (selOne i s).state := by
  rcases Nat.lt_or_ge i 4 with hi | hi
  · intro k
    rw [selOne_done i hi, Run.state_done, ← Received.settled_eq_ite]
    exact selOne_chips i s.sr s.chips h k
  · rw [selOne_raised i hi]
    exact selNone_framesEnd h

/-- Settles O22: each of the two settles every record, given that no unselected chip has a frame open. -/
theorem deselectionEndsFrames : Obligations.DeselectionEndsFrames := by
  unfold Obligations.DeselectionEndsFrames
  intro i s hs
  have hlegal : ∀ k, (s.chips.get k).legal (s.sr.get k) := fun k => (hs k).1
  exact ⟨_, _, exec_selNone s, selNone_framesEnd hlegal, exec_selOne i s, selOne_framesEnd i hlegal⟩

end Sys2Proof.Machine

/-! SUPPORT. The family of 30_encoding.md: the decoder one operation code, command word and long frame at a time (R72 to R82),
what a presented frame and an illegal request do, transfers in one closed form (R74 to R80), and the composites as their
expansions (R86). -/

namespace Sys2Proof

/-! ## Request words (R72, R73, R82) -/

section
variable (arg : BitVec 12)

/-! What each operation code asks for. -/

@[simp] theorem decodeRequest_selNone : decodeRequest (requestWord 0x0#4 arg) = noOperand arg .selNone := by
  simp [decodeRequest]
@[simp] theorem decodeRequest_selAll : decodeRequest (requestWord 0x1#4 arg) = noOperand arg .selAll := by
  simp [decodeRequest]
@[simp] theorem decodeRequest_selOne : decodeRequest (requestWord 0x2#4 arg) = some (.selOne arg.toNat) := by
  simp [decodeRequest]
@[simp] theorem decodeRequest_wrCmd : decodeRequest (requestWord 0x3#4 arg) = some (.wrCmd arg.toNat) := by
  simp [decodeRequest]
@[simp] theorem decodeRequest_extract : decodeRequest (requestWord 0x4#4 arg) =
    if arg.extractLsb' 2 10 = 0 then some (.extract (arg.extractLsb' 1 1) (arg.extractLsb' 0 1)) else none := by
  simp [decodeRequest]
@[simp] theorem decodeRequest_wrData : decodeRequest (requestWord 0x5#4 arg) = noOperand arg .wrData := by
  simp [decodeRequest]
@[simp] theorem decodeRequest_bcastCmd : decodeRequest (requestWord 0x6#4 arg) = some (.bcastCmd arg.toNat) := by
  simp [decodeRequest]
@[simp] theorem decodeRequest_beginInit : decodeRequest (requestWord 0x7#4 arg) = noOperand arg .beginInit := by
  simp [decodeRequest]
@[simp] theorem decodeRequest_setIntensity : decodeRequest (requestWord 0x8#4 arg) = some (.setIntensity arg.toInt) := by
  simp [decodeRequest]
@[simp] theorem decodeRequest_clear : decodeRequest (requestWord 0x9#4 arg) = noOperand arg .clear := by
  simp [decodeRequest]
@[simp] theorem decodeRequest_showFrame : decodeRequest (requestWord 0xA#4 arg) = noOperand arg .showFrame := by
  simp [decodeRequest]

theorem decodeRequest_of_ge {op : BitVec 4} (h : 0xB ≤ op) : decodeRequest (requestWord op arg) = none := by
  have hop : op = 0xB ∨ op = 0xC ∨ op = 0xD ∨ op = 0xE ∨ op = 0xF := by
    revert op
    decide
  rcases hop with rfl | rfl | rfl | rfl | rfl <;> simp [decodeRequest]

end

/-- An operation code is an illegal one or one of the eleven of R72. -/
theorem opCode_cases (op : BitVec 4) : 0xB#4 ≤ op ∨ op = 0x0#4 ∨ op = 0x1#4 ∨ op = 0x2#4 ∨ op = 0x3#4 ∨ op = 0x4#4 ∨
    op = 0x5#4 ∨ op = 0x6#4 ∨ op = 0x7#4 ∨ op = 0x8#4 ∨ op = 0x9#4 ∨ op = 0xA#4 := by
  revert op
  decide

theorem noOperand_eq_some {arg : BitVec 12} {i j : Instr} : noOperand arg i = some j ↔ arg = 0 ∧ i = j := by
  rw [noOperand, Option.ite_none_right_eq_some, Option.some_inj]

theorem noOperand_eq_none {arg : BitVec 12} {i : Instr} : noOperand arg i = none ↔ arg ≠ 0 := by
  simp [noOperand]

/-- The operand of `EXTRACT` is its three fields put together. -/
theorem extract_fields (arg : BitVec 12) :
    arg.extractLsb' 2 10 ++ (arg.extractLsb' 1 1 ++ arg.extractLsb' 0 1) = arg := by
  rw [BitVec.extractLsb'_append_extractLsb'_eq_extractLsb' (by decide),
    BitVec.extractLsb'_append_extractLsb'_eq_extractLsb' (by decide)]
  exact BitVec.extractLsb'_eq_self

/-- `EXTRACT` requires `REQ[11:2] = 0`: its operand is below 4. -/
theorem reserved_eq_zero_iff (arg : BitVec 12) : arg.extractLsb' 2 10 = 0 ↔ arg.toNat < 4 := by
  rw [← BitVec.toNat_inj, BitVec.extractLsb'_toNat, Nat.shiftRight_eq_div_pow, show (0 : BitVec 10).toNat = 0 from rfl]
  have := arg.isLt
  omega

theorem requestWord_reserved (op : BitVec 4) (arg : BitVec 12) :
    (requestWord op arg).extractLsb' 2 10 = arg.extractLsb' 2 10 := by
  apply BitVec.eq_of_toNat_eq
  rw [BitVec.extractLsb'_toNat, BitVec.extractLsb'_toNat, requestWord_toNat, Nat.shiftRight_eq_div_pow,
    Nat.shiftRight_eq_div_pow]
  omega

theorem decodeRequest_extract_eq_some {arg : BitVec 12} {i : Instr} (h : decodeRequest (requestWord 0x4#4 arg) = some i) :
    encode i = .request (requestWord 0x4#4 arg) ∧ WellFormed i = true := by
  rw [decodeRequest_extract, Option.ite_none_right_eq_some, Option.some_inj] at h
  obtain ⟨hzero, rfl⟩ := h
  rw [encode, ← hzero, extract_fields]
  exact ⟨rfl, rfl⟩

theorem ofNat_toNat_operand (arg : BitVec 12) : BitVec.ofNat 12 arg.toNat = arg := by
  rw [BitVec.ofNat_toNat, BitVec.setWidth_eq]

/-- A legal request word is the encoding of the operation it asks for (R72, R82). -/
theorem encode_of_decodeRequest {w : RequestWord} {i : Instr} (h : decodeRequest w = some i) :
    encode i = .request w ∧ WellFormed i = true := by
  obtain ⟨op, arg, rfl⟩ : ∃ op arg, w = requestWord op arg := ⟨_, _, (requestWord_fields w).symm⟩
  have read : ∀ (j : Instr) (a : BitVec 12), some j = some i → encode j = .request (requestWord op a) → a = arg →
      WellFormed j = true → encode i = .request (requestWord op arg) ∧ WellFormed i = true := by
    rintro j a hj he rfl hw
    obtain rfl := Option.some.inj hj
    exact ⟨he, hw⟩
  have plain : ∀ j : Instr, noOperand arg j = some i → encode j = .request (requestWord op 0) → WellFormed j = true →
      encode i = .request (requestWord op arg) ∧ WellFormed i = true := by
    intro j hj he hw
    obtain ⟨hzero, hi⟩ := noOperand_eq_some.1 hj
    exact read j 0 (congrArg some hi) he hzero.symm hw
  have hlt : arg.toNat < 4096 := arg.isLt
  have hint : -2048 ≤ arg.toInt ∧ arg.toInt ≤ 2047 := ⟨arg.le_toInt, Int.le_of_lt_add_one arg.toInt_lt⟩
  rcases opCode_cases op with hop | rfl | rfl | rfl | rfl | rfl | rfl | rfl | rfl | rfl | rfl | rfl
  · rw [decodeRequest_of_ge arg hop] at h
    exact absurd h (by simp)
  · exact plain _ (decodeRequest_selNone arg ▸ h) rfl rfl
  · exact plain _ (decodeRequest_selAll arg ▸ h) rfl rfl
  · exact read (.selOne _) _ (decodeRequest_selOne arg ▸ h) rfl (ofNat_toNat_operand arg) (decide_eq_true hlt)
  · exact read (.wrCmd _) _ (decodeRequest_wrCmd arg ▸ h) rfl (ofNat_toNat_operand arg) (decide_eq_true hlt)
  · exact decodeRequest_extract_eq_some h
  · exact plain _ (decodeRequest_wrData arg ▸ h) rfl rfl
  · exact read (.bcastCmd _) _ (decodeRequest_bcastCmd arg ▸ h) rfl (ofNat_toNat_operand arg) (decide_eq_true hlt)
  · exact plain _ (decodeRequest_beginInit arg ▸ h) rfl rfl
  · exact read (.setIntensity _) _ (decodeRequest_setIntensity arg ▸ h) rfl BitVec.ofInt_toInt (decide_eq_true hint)
  · exact plain _ (decodeRequest_clear arg ▸ h) rfl rfl
  · exact plain _ (decodeRequest_showFrame arg ▸ h) rfl rfl

/-- The illegal request words (R82). -/
theorem decodeRequest_eq_none (op : BitVec 4) (arg : BitVec 12) : decodeRequest (requestWord op arg) = none ↔
    op.toNat ≥ 0xB ∨ (op.toNat ∈ [0x0, 0x1, 0x5, 0x7, 0x9, 0xA] ∧ arg ≠ 0) ∨
      (op.toNat = 0x4 ∧ arg.extractLsb' 2 10 ≠ 0) := by
  rcases opCode_cases op with hop | hop
  · exact iff_of_true (decodeRequest_of_ge arg hop) (.inl hop)
  · rcases hop with rfl | rfl | rfl | rfl | rfl | rfl | rfl | rfl | rfl | rfl | rfl <;> simp [noOperand_eq_none]

/-! ## Command words (R77, R80) -/

theorem decodeCommand_pwmWord (level : BitVec 4) : decodeCommand (pwmWord level) = some (.pwmDuty level) := by
  revert level
  decide

/-- The PWM word of bits 4:1 is the word itself where the mask finds `PWM_BASE` (R80). -/
theorem pwmWord_level {c : Command} (h : c &&& 0xFE1 = 0x940) : pwmWord (c.extractLsb' 1 4) = c := by
  have hlevel : (c.extractLsb' 1 4).zeroExtend 12 <<< 1 = c &&& 0x01E := by
    apply BitVec.eq_of_getLsbD_eq
    intro k hk
    interval_cases k <;> simp
  calc pwmWord (c.extractLsb' 1 4)
    _ = (0x940 : Command) ||| (c.extractLsb' 1 4).zeroExtend 12 <<< 1 := rfl
    _ = c &&& 0xFE1 ||| c &&& 0x01E := by rw [h, hlevel]
    _ = c &&& (0xFE1 ||| 0x01E) := BitVec.and_or_distrib_left.symm
    _ = c := BitVec.and_allOnes

/-- Each fixed word of the table is the encoding of its row (R80). -/
theorem encode_of_mem_commandWords : ∀ row ∈ commandWords, encode row.2 = .command row.1 ∧ WellFormed row.2 = true := by
  decide

/-- A command word of the table is the encoding of its row (R77, R80). -/
theorem encode_of_decodeCommand {c : Command} {i : Instr} (h : decodeCommand c = some i) :
    encode i = .command c ∧ WellFormed i = true := by
  rw [decodeCommand] at h
  split at h
  next hmask =>
    obtain rfl := Option.some.inj h
    exact ⟨by rw [encode, pwmWord_level hmask], rfl⟩
  next =>
    obtain ⟨before, after, hrows, -⟩ := List.lookup_eq_some_iff.1 h
    exact encode_of_mem_commandWords (c, i) (by rw [hrows]; simp)

/-! ## Long frames (R78, R79) -/

/-- The data frame of two planes, read back (R78). -/
theorem decodeLongFrame_dataFrameWord (red green : Plane) :
    decodeLongFrame 266 (dataFrameWord red green) = some (.dataFrame red green) := by
  have hr := red.isLt
  have hg := green.isLt
  have hhead : dataFrameWord red green % 2 ^ 10 = frameHead := by
    rw [dataFrameWord, frameHead]
    omega
  have hgreen : dataFrameWord red green / 2 ^ 138 = green.toNat := by
    rw [dataFrameWord, frameHead]
    omega
  have hred : dataFrameWord red green / 2 ^ 10 = red.toNat + 2 ^ 128 * green.toNat := by
    rw [dataFrameWord, frameHead]
    omega
  have hred' : BitVec.ofNat 128 (red.toNat + 2 ^ 128 * green.toNat) = red := by
    apply BitVec.eq_of_toNat_eq
    rw [BitVec.toNat_ofNat]
    omega
  rw [decodeLongFrame, if_pos rfl, hgreen, if_pos ⟨hhead, hg⟩, hred, hred', BitVec.ofNat_toNat, BitVec.setWidth_eq]

/-- A number with the ten leading bits and at most 266 bits is the data frame of its two fields (R78). -/
theorem dataFrameWord_fields {w : Nat} (hhead : w % 2 ^ 10 = frameHead) (hgreen : w / 2 ^ 138 < 2 ^ 128) :
    dataFrameWord (BitVec.ofNat 128 (w / 2 ^ 10)) (BitVec.ofNat 128 (w / 2 ^ 138)) = w := by
  rw [dataFrameWord, BitVec.toNat_ofNat, BitVec.toNat_ofNat, ← hhead]
  omega

/-- A long frame of the table is the encoding of its row (R78, R79). -/
theorem encode_of_decodeLongFrame {n w : Nat} {i : Instr} (h : decodeLongFrame n w = some i) :
    encode i = .longFrame n w ∧ WellFormed i = true := by
  rw [decodeLongFrame] at h
  split at h
  next hn =>
    rw [Option.ite_none_right_eq_some, Option.some_inj] at h
    obtain ⟨⟨hhead, hgreen⟩, rfl⟩ := h
    exact ⟨by rw [encode, dataFrameWord_fields hhead hgreen, hn], rfl⟩
  next =>
    rw [Option.ite_none_right_eq_some, Option.ite_none_right_eq_some, Option.some_inj] at h
    obtain ⟨hn, hw, rfl⟩ := h
    exact ⟨by rw [encode, hn, hw], rfl⟩

/-! ## Decoding and encoding -/

theorem toNat_ofNat_of_wellFormed {n : Nat} (h : decide (n < 4096) = true) : (BitVec.ofNat 12 n).toNat = n :=
  Nat.mod_eq_of_lt (of_decide_eq_true h)

/-- Settles O7: by the three forms of what is presented. -/
theorem encodeUndoesDecode : Obligations.EncodeUndoesDecode := by
  unfold Obligations.EncodeUndoesDecode
  intro p i h
  cases p with
  | request w => exact encode_of_decodeRequest h
  | command c => exact encode_of_decodeCommand h
  | longFrame n w => exact encode_of_decodeLongFrame h

/-- Settles O6: by the instruction, each operand read back from its field. -/
theorem decodeUndoesEncode : Obligations.DecodeUndoesEncode := by
  unfold Obligations.DecodeUndoesEncode
  intro i h
  cases i with
  | selNone => exact decodeRequest_selNone 0
  | selAll => exact decodeRequest_selAll 0
  | selOne n => exact (decodeRequest_selOne _).trans (by rw [toNat_ofNat_of_wellFormed h])
  | wrCmd c => exact (decodeRequest_wrCmd _).trans (by rw [toNat_ofNat_of_wellFormed h])
  | extract r q =>
    have hdecode : ∀ r q : BitVec 1, decode (encode (.extract r q)) = some (.extract r q) := by decide
    exact hdecode r q
  | wrData => exact decodeRequest_wrData 0
  | bcastCmd c => exact (decodeRequest_bcastCmd _).trans (by rw [toNat_ofNat_of_wellFormed h])
  | beginInit => exact decodeRequest_beginInit 0
  | setIntensity l =>
    obtain ⟨hlo, hhi⟩ : -2048 ≤ l ∧ l ≤ 2047 := of_decide_eq_true h
    have hl : (BitVec.ofInt 12 l).toInt = l := BitVec.toInt_ofInt_eq_self (by decide) hlo (Int.lt_add_one_of_le hhi)
    exact (decodeRequest_setIntensity _).trans (by rw [hl])
  | clear => exact decodeRequest_clear 0
  | showFrame => exact decodeRequest_showFrame 0
  | pwmDuty level => exact decodeCommand_pwmWord level
  | dataFrame red green => exact decodeLongFrame_dataFrameWord red green
  | clearFrame => rfl
  | sysDis | sysEn | ledOff | ledOn | blinkOff | blinkOn | slaveMode | rcMasterMode | extClkMasterMode | comNmos8 | comNmos16
  | comPmos8 | comPmos16 => rfl

/-- Settles O4: the equation of each operation code, `EXTRACT`'s with its reserved bits as a bound. -/
theorem requestCodesDecode : Obligations.RequestCodesDecode := by
  unfold Obligations.RequestCodesDecode
  intro a
  have hextract := decodeRequest_extract a
  simp only [reserved_eq_zero_iff] at hextract
  exact ⟨decodeRequest_selNone a, decodeRequest_selAll a, decodeRequest_selOne a, decodeRequest_wrCmd a, hextract,
    decodeRequest_wrData a, decodeRequest_bcastCmd a, decodeRequest_beginInit a, decodeRequest_setIntensity a,
    decodeRequest_clear a, decodeRequest_showFrame a, fun _ h => decodeRequest_of_ge a h⟩

/-- Settles O5: each word is decoded by evaluation. -/
theorem writtenWordsDecode : Obligations.WrittenWordsDecode := by
  unfold Obligations.WrittenWordsDecode
  decide

end Sys2Proof

namespace Sys2Proof.Machine

open Sys2Proof.Safety Sys2Proof.Claims

/-! ## What a step does with a frame and with an illegal request (R31, R182) -/

/-- A frame presented to an idle engine runs as its row. -/
theorem step_frame {s : State} {p : Presented} {rest : List HostMove} {i : Instr} (hb : s.busy = false)
    (hh : s.host = .present p :: rest) (hp : ∀ w, p ≠ .request w) (hd : decode p = some i) :
    step s = exec i { s with host := rest } := by
  have htake : takeMove (.present p) { s with host := rest } = .transmission i { s with host := rest } := by
    cases p with
    | request w => exact absurd rfl (hp w)
    | command c => exact congrArg (takeFrame · _) hd
    | longFrame n w => exact congrArg (takeFrame · _) hd
  have hidle : ¬ s.busy = true := by simp [hb]
  rw [step, nextAction, hh]
  simp only [if_neg hidle, htake, runAction]

/-- Settles O9: a frame is run with nothing added. -/
theorem stepRunsThePresentedFrame : Obligations.StepRunsThePresentedFrame := by
  unfold Obligations.StepRunsThePresentedFrame
  intro s p rest i hb hh hp hd
  exact step_frame hb hh hp hd

/-- An illegal request word presented to an idle engine raises its fault in the step that takes it (R82, R182). -/
theorem step_illegalRequest {s : State} {w : RequestWord} {rest : List HostMove} (hb : s.busy = false)
    (hh : s.host = .present (.request w) :: rest) (hd : decodeRequest w = none) :
    step s = .next (illegalRequest w { s with host := rest }) := by
  have hidle : ¬ s.busy = true := by simp [hb]
  rw [step, nextAction, hh]
  simp only [if_neg hidle, takeMove, hd, runAction]

/-- Settles O11: the words no operation code decodes, and the step that raises. -/
theorem illegalRequestRaises : Obligations.IllegalRequestRaises := by
  unfold Obligations.IllegalRequestRaises
  intro s w rest hb hh
  constructor
  · have h := decodeRequest_eq_none (w.extractLsb' 12 4) (w.extractLsb' 0 12)
    rwa [← requestWord_reserved, requestWord_fields] at h
  · intro hd
    rw [step_illegalRequest hb hh hd, illegalRequest, raise, ← hb]
    rfl

/-! ## Transfers (R74 to R80) -/

/-- The state after a transfer: `CMDSR` holds `c`, `DATA` is at the last bit, and the selected chips take the bits. -/
def afterTransfer (c : Command) (bits : List Level) (last : Level) (s : State) : State :=
  { s with
    cmdsr := c
    lines := { s.lines with data := last, wr := true }
    traceRev := (bitEvents bits).reverse ++ s.traceRev
    chips := takeBits bits s.sr s.chips }

theorem sendCommand_transfer (c : Command) (s : State) :
    sendCommand c s = afterTransfer c (commandFrame c) (c.getLsbD 0) s := sendCommand_eq c s

theorem sendPlanes_transfer (red green : Plane) (s : State) : sendPlanes red green s =
    afterTransfer s.cmdsr (dataFrame red.getLsbD green.getLsbD) (green.getLsbD 127) s := sendPlanes_eq red green s

theorem sendClearFrame_transfer (s : State) : sendClearFrame s = afterTransfer s.cmdsr clearFrame false s :=
  sendClearFrame_eq s

section
variable (c : Command) (bits : List Level) (last : Level) (s : State)

/-- A transfer's events follow those before it (R21, R74). -/
theorem afterTransfer_trace : (afterTransfer c bits last s).trace = s.trace ++ bitEvents bits := by
  rw [State.trace, State.trace, afterTransfer, List.reverse_append, List.reverse_reverse]

theorem afterTransfer_chipsTake : ChipsTake bits s (afterTransfer c bits last s) :=
  takeBits_get bits s.sr s.chips

theorem afterTransfer_serialFrame : SerialFrame s (afterTransfer c bits last s) :=
  ⟨rfl, rfl, rfl, pixelAt_congr rfl⟩

end

/-- A bit cell is three events (R74). -/
theorem bitEvents_length (bits : List Level) : (bitEvents bits).length = 3 * bits.length := by
  induction bits with
  | nil => rfl
  | cons b bits ih =>
    rw [bitEvents, List.length_cons, List.length_cons, List.length_cons, ih, List.length_cons]
    omega

theorem commandFrame_length (c : Command) : (commandFrame c).length = 12 := by
  rw [commandFrame, List.length_map, List.length_range]

theorem clearFrame_length : clearFrame.length = 394 := by
  rw [clearFrame, List.length_append, List.length_replicate]
  rfl

/-- An instruction that sends a command word sends it as the claims state it (R77, R121). -/
theorem sendsCommand_of_exec {i : Instr} {c : Command} {s : State} (h : exec i s = .next (sendCommand c s)) :
    SendsCommand i c s := by
  rw [sendCommand_transfer] at h
  exact ⟨_, h, rfl, rfl, rfl, afterTransfer_trace _ _ _ s, afterTransfer_chipsTake _ _ _ s,
    afterTransfer_serialFrame _ _ _ s⟩

/-- Settles O23: the word of `WR_CMD` is sent, and twelve cells are 36 events. -/
theorem wrCmdSendsTheWord : Obligations.WrCmdSendsTheWord := by
  unfold Obligations.WrCmdSendsTheWord
  intro c s
  exact ⟨sendsCommand_of_exec (exec_wrCmd c s), by rw [bitEvents_length, commandFrame_length]⟩

/-- The intensity command of an integer is the tabulated word of the clamped level (R162, R163). -/
theorem intensityCommand_eq_levelWord (l : Int) : intensityCommand l = levelWord (max 0 (min l 15)).toNat := by
  have hclamp : clamp l config.intensityMin config.intensityMax = max 0 (min l 15) := by
    rw [clamp, show config.intensityMin = 0 from rfl, show config.intensityMax = 15 from rfl]
    split
    · omega
    · split <;> omega
  have hwords : ∀ n : Fin 16, (BitVec.ofInt 12 (n.val : Int) <<< 1) ||| config.pwmBase = levelWord n.val := by
    decide
  obtain ⟨n, hn⟩ := Int.eq_ofNat_of_zero_le (show 0 ≤ max 0 (min l 15) by omega)
  rw [intensityCommand, hclamp, hn]
  exact hwords ⟨n, by omega⟩

theorem intensityCommand_level (level : BitVec 4) : intensityCommand level.toNat = levelWord level.toNat := by
  have hlt := level.isLt
  rw [intensityCommand_eq_levelWord]
  congr 1
  omega

/-- Settles O25: every command row runs as the sending of its word. -/
theorem commandRowsSendTheirWord : Obligations.CommandRowsSendTheirWord := by
  unfold Obligations.CommandRowsSendTheirWord
  intro s
  refine ⟨sendsCommand_of_exec (exec_sysDis s), sendsCommand_of_exec (exec_sysEn s), sendsCommand_of_exec (exec_ledOff s),
    sendsCommand_of_exec (exec_ledOn s), sendsCommand_of_exec (exec_blinkOff s), sendsCommand_of_exec (exec_blinkOn s),
    sendsCommand_of_exec (exec_slaveMode s), sendsCommand_of_exec (exec_rcMasterMode s),
    sendsCommand_of_exec (exec_extClkMasterMode s), sendsCommand_of_exec (exec_comNmos8 s),
    sendsCommand_of_exec (exec_comNmos16 s), sendsCommand_of_exec (exec_comPmos8 s),
    sendsCommand_of_exec (exec_comPmos16 s), fun level => sendsCommand_of_exec ?_⟩
  rw [exec_pwmDuty, intensityCommand_level, levelWord]

/-- Where the planes stand in a data frame (R78). -/
theorem dataFrame_getElem? (red green : Nat → Level) {k : Nat} (hk : k < 128) :
    (dataFrame red green)[10 + k]? = some (red k) ∧ (dataFrame red green)[138 + k]? = some (green k) := by
  have hlead : leading.length = 10 := rfl
  have hred : (leading ++ (List.range 128).map red).length = 138 := by
    rw [List.length_append, List.length_map, List.length_range, hlead]
  constructor
  · rw [dataFrame, List.getElem?_append_left (by omega), List.getElem?_append_right (by omega), hlead,
      Nat.add_sub_cancel_left, List.getElem?_map, List.getElem?_range hk, Option.map_some]
  · rw [dataFrame, List.getElem?_append_right (by omega), hred, Nat.add_sub_cancel_left, List.getElem?_map,
      List.getElem?_range hk, Option.map_some]

theorem dataFrame_take_ten (red green : Nat → Level) : (dataFrame red green).take 10 = leading := rfl

/-- Settles O31: the planes are sent as one data frame, laid out bit by bit. -/
theorem wrDataSendsThePlanes : Obligations.WrDataSendsThePlanes := by
  unfold Obligations.WrDataSendsThePlanes
  intro s hv
  have hexec : exec .wrData s = .next (sendPlanes s.red s.green s) := by
    rw [exec_wrData, wrData_done s hv, Run.state_done]
  rw [sendPlanes_transfer] at hexec
  refine ⟨_, _, hexec, dataFrame_length _ _, dataFrame_take_ten _ _, fun k hk => dataFrame_getElem? _ _ hk,
    afterTransfer_trace _ _ _ s, ?_, rfl, rfl, afterTransfer_chipsTake _ _ _ s, afterTransfer_serialFrame _ _ _ s, rfl⟩
  rw [bitEvents_length, dataFrame_length]

/-- Settles O33: the data frame of the planes given, which touches no register. -/
theorem dataFrameRowSendsItsPlanes : Obligations.DataFrameRowSendsItsPlanes := by
  unfold Obligations.DataFrameRowSendsItsPlanes
  intro red green s
  have hexec := exec_dataFrame red green s
  rw [sendPlanes_transfer] at hexec
  refine ⟨_, hexec, afterTransfer_trace _ _ _ s, ?_, rfl, rfl, afterTransfer_chipsTake _ _ _ s,
    afterTransfer_serialFrame _ _ _ s, rfl⟩
  rw [bitEvents_length, dataFrame_length]

/-- Settles O34: the clear frame, 394 bit cells. -/
theorem clearFrameRowSendsZeros : Obligations.ClearFrameRowSendsZeros := by
  unfold Obligations.ClearFrameRowSendsZeros
  intro s
  have hexec := exec_clearFrame s
  rw [sendClearFrame_transfer] at hexec
  refine ⟨_, hexec, afterTransfer_trace _ _ _ s, ?_, rfl, rfl, afterTransfer_chipsTake _ _ _ s,
    afterTransfer_serialFrame _ _ _ s, rfl⟩
  rw [← clearFrame, bitEvents_length, clearFrame_length]

/-! ## Composites (R86) -/

/-- A list of instructions runs its first and then the rest. -/
theorem execAll_cons {i : Instr} {s t : State} (h : exec i s = .next t) (is : List Instr) :
    execAll (i :: is) s = execAll is t := by
  rw [execAll, h]

/-- Broadcasts run one after another (R160). -/
theorem execAll_bcastCmd (words : List Nat) (s : State) :
    execAll (words.map .bcastCmd) s = .next (broadcasts (words.map maskCommand) s) := by
  induction words generalizing s with
  | nil => rfl
  | cons c words ih =>
    rw [List.map_cons, execAll_cons (exec_bcastCmd c s), ih, List.map_cons, broadcasts]

theorem maskCommand_toNat (c : Command) : maskCommand c.toNat = c := ofNat_toNat_operand c

/-- `BCAST_CMD` is a selection of all, the command and a deselection (R122). -/
theorem exec_bcastCmd_expansion (c : Nat) (s : State) :
    exec (.bcastCmd c) s = execAll [.selAll, .wrCmd c, .selNone] s := by
  rw [execAll_cons (exec_selAll s), execAll_cons (exec_wrCmd c _), execAll_cons (exec_selNone _), exec_bcastCmd, broadcast]
  rfl

/-- `BEGIN` is its seven broadcasts (R160). -/
theorem exec_beginInit_expansion {s : State} (h : s.icmdValid = true) : exec .beginInit s =
    execAll ([0x800, 0x840, 0x830, 0x802, s.icmd.toNat, 0x810, 0x806].map .bcastCmd) s := by
  rw [exec_beginInit, beginInit_done s h, Run.state_done, execAll_bcastCmd]
  simp only [List.map_cons, List.map_nil, maskCommand_toNat]
  rfl

/-- `SET_INTENSITY` is `BEGIN` once the level's word is stored (R162). -/
theorem exec_setIntensity_expansion (l : Int) (s : State) : exec (.setIntensity l) s =
    exec .beginInit { s with icmd := levelWord (max 0 (min l 15)).toNat, icmdValid := true } := by
  rw [exec_setIntensity, exec_beginInit, setIntensity, intensityCommand_eq_levelWord]

/-- The clear frame is its preamble, its address and its zeros (R79). -/
theorem sendClearFrame_cells (s : State) : sendClearFrame s = wrBits (List.replicate 384 false)
    (wrBits (List.replicate 7 false) (wrBit true (wrBit false (wrBit true s)))) := by
  rw [sendClearFrame, wrBits_append, leadBits, wrBits_append]
  rfl

/-- The part of `SHOW` for one chip: its selection, its reads, its data frame and a deselection (R166). -/
theorem execAll_showChip (c : Fin 4) (is : List Instr) (s : State) :
    execAll (.selOne c.val :: .extract (chipPos c).1 (chipPos c).2 :: .wrData :: .selNone :: is) s =
      execAll is (showChip c s).state := by
  rw [execAll_cons (exec_selOne _ s), execAll_cons (exec_extract _ _ _), execAll_cons (exec_wrData _),
    execAll_cons (exec_selNone _), wrData_done _ rfl, Run.state_done, showChip_done, Run.state_done]

/-- `SHOW` is `SYS_EN` to all and then the four chips' parts (R166). -/
theorem exec_showFrame_expansion (s : State) : exec .showFrame s = execAll [.bcastCmd 0x802,
    .selOne 0, .extract 0 0, .wrData, .selNone, .selOne 1, .extract 0 1, .wrData, .selNone,
    .selOne 2, .extract 1 0, .wrData, .selNone, .selOne 3, .extract 1 1, .wrData, .selNone] s := by
  rw [exec_showFrame, showAll_done, Run.state_done, execAll_cons (exec_bcastCmd 0x802 s)]
  symm
  exact (execAll_showChip 0 _ _).trans ((execAll_showChip 1 _ _).trans ((execAll_showChip 2 _ _).trans
    (execAll_showChip 3 _ _)))

/-- Settles O56: each composite is its expansion. -/
theorem compositesAreTheirExpansions : Obligations.CompositesAreTheirExpansions := by
  unfold Obligations.CompositesAreTheirExpansions
  intro s
  refine ⟨fun c => exec_bcastCmd_expansion c s, exec_beginInit_expansion, fun l => exec_setIntensity_expansion l s,
    ⟨_, exec_selAll s, ?_⟩, exec_showFrame_expansion s⟩
  rw [exec_clear, exec_selNone, clearChips, sendClearFrame_cells]

end Sys2Proof.Machine

/-! SUPPORT. The family of 40_chip_select.md: where a flag stands after pulses (R101), selections in one closed form (R102 to
R104), the observer at a selection of all (R60), and what two selections in a row leave (R105, R106). -/

namespace Sys2Proof.Machine

open Sys2Proof.Safety Sys2Proof.Claims

/-! ## Flags in the chain (R26, R101) -/

/-- A shift moves every cell one place on (R26). -/
theorem shiftIn_get_succ (f : ChainCell) (sr : PerChip ChainCell) (j : Fin 3) :
    (shiftIn f sr).get j.succ = sr.get j.castSucc := by
  match j with
  | 0 => rfl
  | 1 => rfl
  | 2 => rfl

/-- `m` shifts move a cell `m` places on. -/
theorem shiftMany_get_add (m : Nat) (f : ChainCell) (sr : PerChip ChainCell) {j k : Fin 4} (h : k.val = j.val + m) :
    (shiftMany m f sr).get k = sr.get j := by
  induction m generalizing sr j with
  | zero => rw [Fin.ext h, shiftMany]
  | succ m ih =>
    have hj : j.val < 3 := by omega
    have hk : k.val = (Fin.succ ⟨j.val, hj⟩ : Fin 4).val + m := by simp only [Fin.val_succ]; omega
    rw [shiftMany, ih (shiftIn f sr) hk, shiftIn_get_succ]
    rfl

/-- `m` shifts of one flag put it in the first `m` cells: the last of them in chip 0, where the flag has just entered, the
others by the shifts before. -/
theorem shiftMany_get_lt (m : Nat) (f : ChainCell) (sr : PerChip ChainCell) {k : Fin 4} (h : k.val < m) :
    (shiftMany m f sr).get k = f := by
  induction m generalizing sr with
  | zero => omega
  | succ m ih =>
    rw [shiftMany]
    rcases Nat.lt_succ_iff_lt_or_eq.mp h with hlt | heq
    · exact ih (shiftIn f sr) hlt
    · exact shiftMany_get_add m f (shiftIn f sr) (j := 0) (by rw [heq]; exact (Nat.zero_add m).symm)

theorem pulses_sr (m : Nat) (s : State) : (pulses m s).sr = shiftMany m (csFlag s.lines.cs) s.sr := by rw [pulses_eq]

/-- Settles O15: the chain after the pulses is that many shifts of the flag of `CS`. -/
theorem pulsesMoveTheFlag : Obligations.PulsesMoveTheFlag := by
  unfold Obligations.PulsesMoveTheFlag
  intro m s
  simp only [pulses_sr]
  refine ⟨fun k hk => ?_, fun k j hm hj => ?_, fun k => ?_⟩
  · exact shiftMany_get_lt m _ s.sr (by omega)
  · exact shiftMany_get_add m _ s.sr (by omega)
  · rw [shiftMany_four, PerChip.get_const]

/-! ## Selections (R102 to R104) -/

/-- The state after a selection: `CS` is at `level`, `CLK` idle, and the chain and the observer are as given. -/
def afterSelection (level : Level) (events : List Event) (sr : PerChip ChainCell) (chips : PerChip Received) (s : State) :
    State :=
  { s with
    lines := { s.lines with cs := level, clk := config.clkIdle }
    traceRev := events.reverse ++ s.traceRev
    sr := sr
    chips := chips }

theorem selNone_selection (s : State) : selNone s = afterSelection config.csDeselectLevel
    (selectEvents config.csDeselectLevel) (PerChip.const .deselected) (observeMany 4 .deselected s.sr s.chips) s := selNone_eq s

theorem selAll_selection (s : State) : selAll s = afterSelection config.csSelectLevel
    (selectEvents config.csSelectLevel) (PerChip.const .selected) (observeMany 4 .selected s.sr s.chips) s := selAll_eq s

/-- `SEL_ONE` in range is a selection of that chip alone; what the observer holds then is left open here (R104). -/
theorem selOne_selection {i : Nat} (hi : i < 4) (s : State) : ∃ chips, (selOne i s).state =
    afterSelection config.csDeselectLevel (selectOneEvents i) (onlyChip i) chips s := by
  rw [selOne_done i hi, Run.state_done]
  exact ⟨_, rfl⟩

section
variable (level : Level) (events : List Event) (sr : PerChip ChainCell) (chips : PerChip Received) (s : State)

/-- A selection's events follow those before it (R21, R76). -/
theorem afterSelection_trace : (afterSelection level events sr chips s).trace = s.trace ++ events := by
  rw [State.trace, State.trace, afterSelection, List.reverse_append, List.reverse_reverse]

theorem afterSelection_selectFrame : SelectFrame s (afterSelection level events sr chips s) :=
  ⟨rfl, rfl, rfl, pixelAt_congr rfl⟩

end

/-- A raise makes no event (R184). -/
theorem raise_trace (f : EngineFault) (info : BitVec 12) (s : State) : (raise f info s).trace = s.trace := rfl

theorem sel_onlyChip (i : Fin 4) : sel (onlyChip i.val) = .one i := by
  revert i
  decide

/-- The select code of chip `i`: nine events of a deselection, four that inject the flag, and two for each of its `i` moves
(R76). -/
theorem selectOneEvents_length (i : Fin 4) : (selectOneEvents i.val).length = 13 + 2 * i.val := by
  revert i
  decide

/-- Settles O16: the selection of no chip, whose code is the nine events. -/
theorem selNoneDeselectsEveryChip : Obligations.SelNoneDeselectsEveryChip := by
  unfold Obligations.SelNoneDeselectsEveryChip
  intro s
  have hexec := exec_selNone s
  rw [selNone_selection] at hexec
  exact ⟨_, hexec, PerChip.get_const _, rfl, rfl, rfl, afterSelection_trace _ _ _ _ s, afterSelection_selectFrame _ _ _ _ s⟩

/-- Settles O18: the selection of chip `i` alone. -/
theorem selOneSelectsOneChip : Obligations.SelOneSelectsOneChip := by
  unfold Obligations.SelOneSelectsOneChip
  intro i s
  obtain ⟨chips, hsel⟩ := selOne_selection i.isLt s
  have hexec := exec_selOne i.val s
  rw [hsel] at hexec
  refine ⟨_, hexec, fun k => ?_, sel_onlyChip i, rfl, rfl, afterSelection_trace _ _ _ _ s, selectOneEvents_length i,
    afterSelection_selectFrame _ _ _ _ s⟩
  rw [afterSelection, onlyChip_get]
  simp only [Fin.ext_iff]

/-- Settles O19: the selection of no chip, and then the raise, which touches the fault registers and `BUSY` only. -/
theorem selOneOutOfRangeFaults : Obligations.SelOneOutOfRangeFaults := by
  unfold Obligations.SelOneOutOfRangeFaults
  intro i s hi
  have hexec := exec_selOne i s
  rw [selOne_raised i hi, Run.state_raised, selNone_selection] at hexec
  exact ⟨_, hexec, PerChip.get_const _, rfl, rfl, (raise_trace _ _ _).trans (afterSelection_trace _ _ _ _ s), rfl, rfl, rfl,
    rfl, rfl, pixelAt_congr rfl⟩

/-! ## The observer at a selection of all (R60, R103) -/

/-- No chip is selected in one chain only, every cell 0; the other rows of `sel` answer otherwise (R27). -/
theorem sel_eq_none {sr : PerChip ChainCell} (h : sel sr = .none) : sr = PerChip.const .deselected := by
  unfold sel at h
  split at h <;> cases h
  rfl

/-- Every chip is selected in one chain only, every cell 1 (R27). -/
theorem sel_eq_all {sr : PerChip ChainCell} (h : sel sr = .all) : sr = PerChip.const .selected := by
  unfold sel at h
  split at h <;> cases h
  rfl

/-- Four selecting shifts from no chip selected start every chip's frame empty, once, as the flag reaches the chip. -/
theorem observeMany_start (chips : PerChip Received) (k : Fin 4) :
    (observeMany 4 .selected (PerChip.const .deselected) chips).get k = ⟨[], (chips.get k).frames⟩ := by
  match k with
  | 0 => rfl
  | 1 => rfl
  | 2 => rfl
  | 3 => rfl

/-- Settles O17: the selection of every chip; on the observer's side the flag starts every frame, finds none to close, or finds
every chip selected already. -/
theorem selAllSelectsEveryChip : Obligations.SelAllSelectsEveryChip := by
  unfold Obligations.SelAllSelectsEveryChip
  intro s
  have hexec := exec_selAll s
  rw [selAll_selection] at hexec
  refine ⟨_, hexec, PerChip.get_const _, rfl, rfl, rfl, afterSelection_trace _ _ _ _ s,
    afterSelection_selectFrame _ _ _ _ s, fun hnone k => ?_, ?_⟩
  · rw [afterSelection, sel_eq_none hnone, observeMany_start]
  · rintro (hopen | hall) k
    · rw [afterSelection, observeMany_noFrame _ _ _ _ hopen]
    · rw [afterSelection, sel_eq_all hall]
      rfl

/-! ## Selections in a row (R105, R106) -/

/-- Settles O20: the last deselection writes `CS`, `CLK` and the chain whatever they were, and before it only a raise, which
needs `i` out of range, writes anything but `TRACE` and the observer besides. -/
theorem selectThenDeselectIsDeselect : Obligations.SelectThenDeselectIsDeselect := by
  unfold Obligations.SelectThenDeselectIsDeselect
  intro i s
  have hexec : execAll [.selOne i, .selNone] s = .next (selNone (selOne i s).state) := by
    rw [execAll_cons (exec_selOne i s), execAll_cons (exec_selNone _), execAll]
  refine ⟨_, _, hexec, exec_selNone s, ?_⟩
  rcases Nat.lt_or_ge i 4 with hi | hi
  · obtain ⟨chips, hsel⟩ := selOne_selection hi s
    rw [hsel, selNone_selection, selNone_selection s]
    exact ⟨rfl, rfl, rfl, PerChip.get_const _, fun _ => ⟨rfl, rfl, rfl⟩, rfl⟩
  · rw [selOne_raised i hi, Run.state_raised, selNone_selection (raise _ _ _), selNone_selection s]
    exact ⟨rfl, rfl, rfl, PerChip.get_const _, fun h => absurd h (Nat.not_lt.mpr hi), rfl⟩

/-- `i` makes the events listed and leaves the chain given, from every state (R106). -/
def SelectsAs (i : Instr) (events : List Event) (sr : PerChip ChainCell) : Prop :=
  ∀ s, ∃ t, exec i s = .next t ∧ t.trace = s.trace ++ events ∧ t.sr = sr

/-- An instruction that runs as a selection does so from every state. -/
theorem selectsAs_of_selection {i : Instr} {level : Level} {events : List Event} {sr : PerChip ChainCell}
    (h : ∀ s, ∃ chips, exec i s = .next (afterSelection level events sr chips s)) : SelectsAs i events sr := fun s => by
  obtain ⟨chips, hexec⟩ := h s
  exact ⟨_, hexec, afterSelection_trace _ _ _ _ s, rfl⟩

theorem selectsAs_selNone : SelectsAs .selNone (selectEvents config.csDeselectLevel) (PerChip.const .deselected) :=
  selectsAs_of_selection fun s => ⟨_, by rw [exec_selNone, selNone_selection]⟩

theorem selectsAs_selAll : SelectsAs .selAll (selectEvents config.csSelectLevel) (PerChip.const .selected) :=
  selectsAs_of_selection fun s => ⟨_, by rw [exec_selAll, selAll_selection]⟩

theorem selectsAs_selOne {n : Nat} (hn : n < 4) : SelectsAs (.selOne n) (selectOneEvents n) (onlyChip n) :=
  selectsAs_of_selection fun s => by
    obtain ⟨chips, hsel⟩ := selOne_selection hn s
    exact ⟨chips, by rw [exec_selOne, hsel]⟩

/-- Out of range `SEL_ONE` selects as `SEL_NONE` does: the raise makes no event and leaves the chain (R104). -/
theorem selectsAs_selOne_outOfRange {n : Nat} (hn : 4 ≤ n) :
    SelectsAs (.selOne n) (selectEvents config.csDeselectLevel) (PerChip.const .deselected) := fun s => by
  obtain ⟨t, hexec, htrace, hsr⟩ := selectsAs_selNone s
  rw [exec_selNone] at hexec
  cases hexec
  have hraise := exec_selOne n s
  rw [selOne_raised n hn, Run.state_raised] at hraise
  exact ⟨_, hraise, (raise_trace _ _ _).trans htrace, hsr⟩

/-- Every chip-select operation has events and a final chain of its own, with no chip, all or one selected (R106). -/
theorem exists_selectsAs {i : Instr} (h : i = .selNone ∨ i = .selAll ∨ ∃ n, i = .selOne n) :
    ∃ events sr, SelectsAs i events sr ∧ (sel sr = .none ∨ sel sr = .all ∨ ∃ k, sel sr = .one k) := by
  rcases h with rfl | rfl | ⟨n, rfl⟩
  · exact ⟨_, _, selectsAs_selNone, .inl rfl⟩
  · exact ⟨_, _, selectsAs_selAll, .inr (.inl rfl)⟩
  · rcases Nat.lt_or_ge n 4 with hn | hn
    · exact ⟨_, _, selectsAs_selOne hn, .inr (.inr ⟨⟨n, hn⟩, sel_onlyChip ⟨n, hn⟩⟩)⟩
    · exact ⟨_, _, selectsAs_selOne_outOfRange hn, .inl rfl⟩

/-- Settles O21: the operation's own events and chain serve both states. -/
theorem selectionEventsDependOnOperandOnly : Obligations.SelectionEventsDependOnOperandOnly := by
  unfold Obligations.SelectionEventsDependOnOperandOnly
  intro i s s' hi
  obtain ⟨events, sr, hselects, hsel⟩ := exists_selectsAs hi
  obtain ⟨t, hexec, htrace, hsr⟩ := hselects s
  obtain ⟨t', hexec', htrace', hsr'⟩ := hselects s'
  exact ⟨t, t', events, hexec, hexec', htrace, htrace', hsr.trans hsr'.symm, hsr ▸ hsel⟩

end Sys2Proof.Machine

/-! SUPPORT. The family of 41_command_serializer.md: bit cells one by one (R74, R123), and what a broadcast leaves and how many
events it makes (R122). -/

namespace Sys2Proof.Machine

open Sys2Proof.Safety Sys2Proof.Claims

/-! ## The cells of a command (R123) -/

/-- Bit cells are one cell per bit, in order (R74). -/
theorem bitEvents_eq_flatMap (bits : List Level) :
    bitEvents bits = bits.flatMap fun b => [(Line.wr, false), (Line.data, b), (Line.wr, true)] := by
  induction bits with
  | nil => rfl
  | cons b bits ih =>
    rw [bitEvents, ih, List.flatMap_cons]
    rfl

/-- A command operand's bits below 12 are those of its word (R73, R121). -/
theorem getLsbD_commandOperand (c : Nat) {k : Nat} (hk : k < 12) : (BitVec.ofNat 12 c).getLsbD k = c.testBit k := by
  rw [BitVec.getLsbD_ofNat, decide_eq_true hk, Bool.true_and]

/-- A command frame carries bit `12 - n` of its operand at place `n`, counted from 1 (R77, R123). -/
theorem commandFrame_ofNat (c : Nat) :
    commandFrame (BitVec.ofNat 12 c) = (List.range' 1 12).map fun n => c.testBit (12 - n) := by
  rw [commandFrame, List.range'_eq_map_range, List.map_map]
  refine List.map_congr_left fun n _ => ?_
  rw [getLsbD_commandOperand c (by omega), Function.comp_apply, ← Nat.sub_sub]

/-- Settles O24: the word is sent as its frame, whose place `n` gives the `n`-th cell. -/
theorem wrCmdEmitsTwelveBits : Obligations.WrCmdEmitsTwelveBits := by
  unfold Obligations.WrCmdEmitsTwelveBits
  intro cmd s _
  obtain ⟨t, hexec, -, -, -, htrace, -⟩ := sendsCommand_of_exec (exec_wrCmd cmd s)
  refine ⟨t, hexec, ?_⟩
  rw [htrace, maskCommand, bitEvents_eq_flatMap, commandFrame_ofNat, List.flatMap_map]

/-! ## Broadcasts (R122) -/

/-- A broadcast's events follow those before it (R21, R122). -/
theorem broadcast_trace (c : Command) (s : State) : (broadcast c s).trace = s.trace ++ broadcastEvents c := by
  rw [State.trace, State.trace, broadcast_eq, List.reverse_append, List.reverse_reverse]

/-- A broadcast writes the lines, `CMDSR`, the chain, `TRACE` and the observer, and nothing else (R39). -/
theorem broadcast_frame (c : Command) (s : State) : broadcast c s = { s with
    lines := (broadcast c s).lines
    cmdsr := (broadcast c s).cmdsr
    sr := (broadcast c s).sr
    traceRev := (broadcast c s).traceRev
    chips := (broadcast c s).chips } := by
  rw [broadcast_eq]

/-- The code that selects no chip or all is one event of `CS` and four pulses (R76). -/
theorem selectEvents_length (level : Level) : (selectEvents level).length = 9 := rfl

/-- A broadcast is two select codes of nine events and twelve bit cells of three (R122). -/
theorem broadcastEvents_length (c : Command) : (broadcastEvents c).length = 54 := by
  rw [broadcastEvents, List.length_append, List.length_append, selectEvents_length, selectEvents_length, bitEvents_length,
    commandFrame_length]

/-- Settles O26: the broadcast in closed form, in which the selection it started from does not occur. -/
theorem bcastCmdSendsToAll : Obligations.BcastCmdSendsToAll := by
  unfold Obligations.BcastCmdSendsToAll
  intro c s
  have hword := broadcast_eq (maskCommand c) s
  have hbit : (maskCommand c).getLsbD 0 = c.testBit 0 := getLsbD_commandOperand c (by omega)
  refine ⟨_, exec_bcastCmd c s, ?_, ?_, ?_, broadcast_trace _ s, broadcastEvents_length _, broadcast_frame _ s,
    pixelAt_congr ?_⟩
  · rw [hword, maskCommand]
  · rw [hword, hbit]
    rfl
  · rw [hword]
    rfl
  · rw [hword]

/-- Settles O27: from no open frame the word is all that the last deselection finds to record at each chip. -/
theorem bcastCmdIsRecordedByAll : Obligations.BcastCmdIsRecordedByAll := by
  unfold Obligations.BcastCmdIsRecordedByAll
  intro c s hopen
  exact ⟨_, exec_bcastCmd c s, broadcast_chips (maskCommand c) s hopen⟩

end Sys2Proof.Machine

/-! SUPPORT. The family of 42_plane_data.md: what EXTRACT leaves and which pixel each cell holds (R140, R141), WR_DATA without
planes (R142), and what SHOW sends of a black panel and of one with a coloured corner (R143, R144). -/

namespace Sys2Proof.Machine

open Sys2Proof.Safety Sys2Proof.Claims

/-! ## The planes of a rectangle (R140, R141) -/

/-- A rectangle is 16 columns of 8 reads (R140). -/
theorem rectangle_length (r q : Nat) : (rectangle r q).length = 128 := by
  simp [rectangle, List.length_flatMap]

/-- The reads of `EXTRACT` follow those before it (R35, R140). -/
theorem extract_pxTrace (r q : BitVec 1) (s : State) :
    (extract r q s).pxTrace = s.pxTrace ++ rectangle r.toNat q.toNat := by
  rw [State.pxTrace, State.pxTrace, extract_frame, List.reverse_append, List.reverse_reverse, readCoords_eq]

/-- Settles O28: the cells, the reads and the frame of `EXTRACT`, each by its lemma. -/
theorem extractReadsTheRectangle : Obligations.ExtractReadsTheRectangle := by
  unfold Obligations.ExtractReadsTheRectangle
  intro r q s
  refine ⟨_, exec_extract r q s, fun k hk => ⟨extract_red r q s k hk, extract_green r q s k hk⟩, rfl, extract_pxTrace r q s,
    rectangle_length _ _, ?_, pixelAt_congr (extract_pixels r q s)⟩
  rw [extract_frame]

/-- Every cell's pixel lies inside the rectangle, so panels that agree there have the same cells (R140). -/
theorem cellPixel_of_agree {s s' : State} {r q : Nat}
    (h : ∀ x y : Nat, 16 * q ≤ x → x < 16 * q + 16 → 8 * r ≤ y → y < 8 * r + 8 → pixelAt s' x y = pixelAt s x y)
    {k : Nat} (hk : k < 128) : cellPixel s' r q k = cellPixel s r q k :=
  h _ _ (by omega) (by omega) (by omega) (by omega)

/-- Settles O29: both planes are equal cell by cell. -/
theorem extractDependsOnItsRectangleOnly : Obligations.ExtractDependsOnItsRectangleOnly := by
  unfold Obligations.ExtractDependsOnItsRectangleOnly
  intro r q s s' hagree
  refine ⟨_, _, exec_extract r q s, exec_extract r q s', ?_, ?_⟩
  · refine BitVec.eq_of_getLsbD_eq fun k hk => ?_
    rw [extract_red r q s k hk, extract_red r q s' k hk, redCell, redCell, cellPixel_of_agree hagree hk]
  · refine BitVec.eq_of_getLsbD_eq fun k hk => ?_
    rw [extract_green r q s k hk, extract_green r q s' k hk, greenCell, greenCell, cellPixel_of_agree hagree hk]

/-- The cells of the planes of a chip's rectangle, by the chip's place in the grid (R52, R141). -/
theorem extract_chip_cell (c : Fin 4) (s : State) {k : Nat} (hk : k < 128) :
    (extract (chipPos c).1 (chipPos c).2 s).red.getLsbD k = redCell s (gridOf c).1 (gridOf c).2 k ∧
      (extract (chipPos c).1 (chipPos c).2 s).green.getLsbD k = greenCell s (gridOf c).1 (gridOf c).2 k := by
  obtain ⟨hrow, hcol⟩ := Prod.mk.inj (chipPos_eq c)
  rw [extract_red _ _ s k hk, extract_green _ _ s k hk, hrow, hcol]
  exact ⟨rfl, rfl⟩

/-- Settles O30: the cell of a pixel is the cell whose pixel it is, once chip and cell index are taken apart again. -/
theorem cellsAndPixelsCorrespond : Obligations.CellsAndPixelsCorrespond := by
  unfold Obligations.CellsAndPixelsCorrespond
  refine fun s => ⟨fun x y hx hy => ?_, fun c k hk => ⟨_, exec_extract _ _ s, extract_chip_cell c s hk⟩⟩
  obtain ⟨c, hc⟩ : ∃ c : Fin 4, c.val = 2 * (y / 8) + x / 16 := ⟨⟨_, by omega⟩, rfl⟩
  obtain ⟨k, hk⟩ : ∃ k, k = 8 * (x % 16) + y % 8 := ⟨_, rfl⟩
  have hrow : c.val / 2 = y / 8 := by omega
  have hcol : c.val % 2 = x / 16 := by omega
  have hpixel : cellPixel s (gridOf c).1 (gridOf c).2 k = pixelAt s x y := by
    rw [cellPixel, gridOf, show 16 * (c.val % 2) + k / 8 = x by omega, show 8 * (c.val / 2) + k % 8 = y by omega]
  have hcell := extract_chip_cell c s (k := k) (by omega)
  rw [redCell, greenCell, hpixel] at hcell
  refine ⟨c, k, hc, hk, by omega, ?_, by omega, by omega, _, exec_extract _ _ s, hcell⟩
  rw [chipPos_eq, gridOf, hrow, hcol]

/-! ## WR_DATA without planes (R142, R183) -/

/-- Settles O32: the validity check raises before anything is sent. -/
theorem wrDataWithoutPlanesFaults : Obligations.WrDataWithoutPlanesFaults := by
  unfold Obligations.WrDataWithoutPlanesFaults
  intro s hinvalid
  rw [exec_wrData, wrData_raised s hinvalid, Run.state_raised]
  rfl

/-! ## What SHOW sends of a panel that is black but for its corner (R143, R144) -/

/-- `SHOW`'s events follow those before it (R21, R166). -/
theorem showAll_trace (s : State) : (showAll s).state.trace = s.trace ++ showEvents s := by
  rw [State.trace, State.trace, showAll_eq, List.reverse_append, List.reverse_reverse]

/-- The events of `SHOW`, from the frame of each chip (R166). -/
theorem showEvents_of_frames {s : State} {frame : Nat → List Level} (h : ∀ c : Fin 4, chipFrame s c = frame c.val) :
    showEvents s = broadcastEvents 0x802 ++ ([0, 1, 2, 3].flatMap fun c =>
      selectOneEvents c ++ bitEvents (frame c) ++ selectEvents true) := by
  simp only [showEvents, showChipEvents, h, List.flatMap_cons, List.flatMap_nil, List.append_nil, List.append_assoc]
  rfl

/-- `SHOW`, on the lines and at the chips, from the frame of each chip (R166). -/
theorem exec_showFrame_of_frames {s : State} {frame : Nat → List Level} (h : ∀ c : Fin 4, chipFrame s c = frame c.val) :
    ∃ t, exec .showFrame s = .next t ∧
      t.trace = s.trace ++ broadcastEvents 0x802 ++ ([0, 1, 2, 3].flatMap fun c =>
        selectOneEvents c ++ bitEvents (frame c) ++ selectEvents true) ∧
      (NoFrameOpen s → ChipsRecord (fun c => [commandFrame 0x802, frame c.val]) s t) := by
  refine ⟨_, exec_showFrame s, ?_, fun hopen k => ?_⟩
  · rw [showAll_trace, showEvents_of_frames h, List.append_assoc]
  · rw [showAll_chips s hopen k, h k]

/-- Every pixel of the panel is 0, but for `(0, 0)`, which is `v`. -/
def BlackButCorner (v : BitVec 2) (s : State) : Prop :=
  pixelAt s 0 0 = v ∧ ∀ x y : Nat, x < 32 → y < 16 → ¬ (x = 0 ∧ y = 0) → pixelAt s x y = 0

/-- The corner pixel feeds cell 0 of chip 0, and every other cell of every chip is black (R141). -/
theorem cellPixel_of_blackButCorner {v : BitVec 2} {s : State} (h : BlackButCorner v s) (c : Fin 4) {k : Nat} (hk : k < 128) :
    cellPixel s (gridOf c).1 (gridOf c).2 k = if c.val = 0 ∧ k = 0 then v else 0 := by
  obtain ⟨hcorner, hblack⟩ := h
  have hc := c.isLt
  rw [cellPixel, gridOf]
  split
  case isTrue h0 => rw [h0.1, h0.2]; exact hcorner
  case isFalse h0 => exact hblack _ _ (by omega) (by omega) (by omega)

/-- A plane that is zero from cell 1 on. -/
theorem map_range_of_zero {cell : Nat → Level} (h : ∀ k, k < 127 → cell (k + 1) = false) :
    (List.range 128).map cell = [cell 0] ++ List.replicate 127 false := by
  rw [List.range_succ_eq_map, List.map_cons, List.map_map, List.singleton_append]
  refine congrArg (cell 0 :: ·) (List.eq_replicate_iff.mpr ⟨by simp, ?_⟩)
  simpa using h

/-- The data frame of a chip of such a panel: the corner's red and green bit lead their planes, in chip 0's frame only (R143). -/
theorem chipFrame_of_blackButCorner {v : BitVec 2} {s : State} (h : BlackButCorner v s) (c : Fin 4) :
    chipFrame s c = leading ++ cornerPayload v c.val := by
  have hzero : ∀ k, k < 127 → cellPixel s (gridOf c).1 (gridOf c).2 (k + 1) = 0 := fun k hk => by
    rw [cellPixel_of_blackButCorner h c (by omega), if_neg (by omega)]
  have hred : ∀ k, k < 127 → redCell s (gridOf c).1 (gridOf c).2 (k + 1) = false := fun k hk => by
    rw [redCell, hzero k hk]
    exact BitVec.getLsbD_zero
  have hgreen : ∀ k, k < 127 → greenCell s (gridOf c).1 (gridOf c).2 (k + 1) = false := fun k hk => by
    rw [greenCell, hzero k hk]
    exact BitVec.getLsbD_zero
  rw [chipFrame, dataFrame, map_range_of_zero hred, map_range_of_zero hgreen, redCell, greenCell,
    cellPixel_of_blackButCorner h c (by omega), cornerPayload]
  by_cases hc : c.val = 0
  · rw [if_pos ⟨hc, rfl⟩, if_pos hc]
    rfl
  · rw [if_neg (fun h0 => hc h0.1), if_neg hc]
    rfl

/-- Settles O46: the frames of a panel that is black but for its corner. -/
theorem cornerPixelReachesPositionZero : Obligations.CornerPixelReachesPositionZero := by
  unfold Obligations.CornerPixelReachesPositionZero
  intro s v hcorner hblack
  have hpanel : BlackButCorner v s := ⟨hcorner, hblack⟩
  exact exec_showFrame_of_frames (frame := fun c => leading ++ cornerPayload v c) (chipFrame_of_blackButCorner hpanel)

/-- A black corner is no exception: every payload is zero. -/
theorem cornerPayload_zero (c : Nat) : cornerPayload 0 c = List.replicate 256 false := by
  rw [cornerPayload]
  split <;> rfl

/-- Settles O45: `CLEAR` leaves the pixels and no frame open, and a black panel is one whose corner is black too. -/
theorem blackPanelSendsZeroPayloads : Obligations.BlackPanelSendsZeroPayloads := by
  unfold Obligations.BlackPanelSendsZeroPayloads
  intro s hblack
  have hpixels : (clearChips s).pixels = s.pixels := by rw [clearChips_eq]
  have hpanel : BlackButCorner 0 s := ⟨hblack 0 0 (by decide) (by decide), fun x y hx hy _ => hblack x y hx hy⟩
  have hframe (c : Fin 4) : chipFrame (clearChips s) c = leading ++ List.replicate 256 false := by
    rw [chipFrame_congr hpixels, chipFrame_of_blackButCorner hpanel, cornerPayload_zero]
  obtain ⟨u, hexec, htrace, hrecord⟩ :=
    exec_showFrame_of_frames (frame := fun _ => leading ++ List.replicate 256 false) hframe
  refine ⟨_, u, exec_clear s, hexec, htrace, fun hopen k => ?_⟩
  have hcleared := clearChips_chips s hopen
  have hopen' : NoFrameOpen (clearChips s) := fun k => by rw [hcleared k]
  rw [hrecord hopen' k, hcleared k, List.append_assoc]
  rfl

end Sys2Proof.Machine

/-! SUPPORT. The family of 43_sequencer.md: what BEGIN, SET_INTENSITY and SHOW leave, each in one closed form (R160 to R163,
R166), the bits of CLEAR's frame (R164), and the four operations as the claims state them. -/

namespace Sys2Proof.Machine

open Sys2Proof.Safety Sys2Proof.Claims

/-- Events put in front of `TRACE`'s newest-first list follow those before them (R35). -/
theorem trace_of_traceRev {s t : State} {events : List Event} (h : t.traceRev = events.reverse ++ s.traceRev) :
    t.trace = s.trace ++ events := by
  rw [State.trace, State.trace, h, List.reverse_append, List.reverse_reverse]

/-! ## BEGIN and SET_INTENSITY (R160 to R163) -/

/-- The state after the seven broadcasts of `BEGIN` with the intensity command `icmd`; the observer is as given. -/
def afterBegin (icmd : Command) (chips : PerChip Received) (s : State) : State :=
  { s with
    cmdsr := config.ledOn
    lines := ⟨config.clkIdle, config.csDeselectLevel, config.ledOn.getLsbD 0, true⟩
    traceRev := ((initWords icmd).flatMap broadcastEvents).reverse ++ s.traceRev
    sr := PerChip.const .deselected
    chips := chips }

/-- The events of `BEGIN` follow those before it (R21, R160). -/
theorem afterBegin_trace (icmd : Command) (chips : PerChip Received) (s : State) :
    (afterBegin icmd chips s).trace = s.trace ++ (initWords icmd).flatMap broadcastEvents :=
  trace_of_traceRev rfl

/-- `BEGIN` with a valid `ICMD` broadcasts its seven words, the last of them `LED_ON` (R160, R161). -/
theorem exec_beginInit_afterBegin {s : State} (h : s.icmdValid = true) :
    ∃ chips, exec .beginInit s = .next (afterBegin s.icmd chips s) ∧
      (NoFrameOpen s → ChipsRecord (fun _ => (initWords s.icmd).map commandFrame) s (afterBegin s.icmd chips s)) := by
  obtain ⟨chips, hrun, hrecord⟩ := broadcasts_spec [config.sysDis, config.comNmos8, config.rcMasterMode, config.sysEn, s.icmd,
    config.blinkOff] config.ledOn s
  refine ⟨chips, ?_, hrecord⟩
  rw [exec_beginInit, beginInit_done s h, Run.state_done]
  exact congrArg Host.Outcome.next hrun

/-- Broadcasts make 54 events each (R122). -/
theorem flatMap_broadcastEvents_length (words : List Command) :
    (words.flatMap broadcastEvents).length = words.length * 54 := by
  rw [List.length_flatMap, funext broadcastEvents_length, List.map_const', List.sum_replicate, smul_eq_mul]

/-- The seven broadcasts of `BEGIN` make 378 events (R160, R161). -/
theorem initWords_events_length (icmd : Command) : ((initWords icmd).flatMap broadcastEvents).length = 378 := by
  rw [flatMap_broadcastEvents_length, show (initWords icmd).length = 7 from rfl]

/-- Settles O35: the closed form of `BEGIN`, and seven broadcasts of 54 events. -/
theorem beginSendsSevenCommands : Obligations.BeginSendsSevenCommands := by
  unfold Obligations.BeginSendsSevenCommands
  intro s h
  obtain ⟨chips, hexec, hrecord⟩ := exec_beginInit_afterBegin h
  exact ⟨_, hexec, afterBegin_trace _ _ s, initWords_events_length s.icmd, rfl, rfl, rfl, hrecord, rfl,
    pixelAt_congr rfl⟩

/-- Settles O36: the validity check raises before anything is sent. -/
theorem beginWithoutIntensityFaults : Obligations.BeginWithoutIntensityFaults := by
  unfold Obligations.BeginWithoutIntensityFaults
  intro s hinvalid
  rw [exec_beginInit, beginInit_raised s hinvalid, Run.state_raised]
  rfl

/-- Settles O37: `SET_INTENSITY` is `BEGIN` from the state in which the level's word is stored and valid. -/
theorem setIntensityStoresAndBegins : Obligations.SetIntensityStoresAndBegins := by
  unfold Obligations.SetIntensityStoresAndBegins
  intro l s
  rw [exec_setIntensity_expansion]
  generalize levelWord (max 0 (min l 15)).toNat = word
  obtain ⟨chips, hexec, hrecord⟩ := exec_beginInit_afterBegin (s := { s with icmd := word, icmdValid := true }) rfl
  exact ⟨_, hexec, rfl, rfl, afterBegin_trace _ _ _, rfl, rfl, rfl, hrecord, rfl, pixelAt_congr rfl⟩

/-- Settles O38: the table lists the words of the levels 0 to 15, each of which is its own clamped level. -/
theorem intensityWordsAreTabulated : Obligations.IntensityWordsAreTabulated := by
  unfold Obligations.IntensityWordsAreTabulated
  intro s level word hmem
  change (level, word) ∈ (List.range 16).map fun n => (n, levelWord n) at hmem
  obtain ⟨n, hn, heq⟩ := List.mem_map.1 hmem
  obtain ⟨rfl, rfl⟩ := Prod.mk.inj heq
  obtain ⟨t, hexec, hicmd, -⟩ := setIntensityStoresAndBegins n s
  have hclamped : (max 0 (min (n : Int) 15)).toNat = n := by
    have hlt := List.mem_range.1 hn
    omega
  exact ⟨t, hexec, hicmd.trans (congrArg levelWord hclamped)⟩

/-! ## CLEAR (R164) -/

/-- A clear frame is the preamble and 391 zeros, seven of them the address (R79). -/
theorem clearFrame_eq_preamble_zeros : clearFrame = [true, false, true] ++ List.replicate 391 false := by
  have hleading : leading = [true, false, true] ++ List.replicate 7 false := rfl
  rw [clearFrame, hleading, List.append_assoc, List.replicate_append_replicate]

/-- Settles O40: the closed form of `CLEAR`, which writes none of `CMDSR`, `ICMD` and the planes. -/
theorem clearZeroesEveryChip : Obligations.ClearZeroesEveryChip := by
  unfold Obligations.ClearZeroesEveryChip
  intro s
  obtain ⟨chips, hstate, hrecord⟩ := clearChips_spec s
  have hexec := exec_clear s
  rw [hstate] at hexec
  rw [← clearFrame_eq_preamble_zeros]
  refine ⟨_, hexec, (trace_of_traceRev rfl).trans ?_, rfl, rfl, hrecord, rfl, pixelAt_congr rfl⟩
  simp only [List.append_assoc]
  rfl

/-! ## SHOW (R166) -/

/-- The reads of `SHOW`: the four rectangles, chip by chip (R166). -/
def showReads : List (Nat × Nat) := rectangle 0 0 ++ rectangle 0 1 ++ rectangle 1 0 ++ rectangle 1 1

/-- The state after `SHOW`: what is left in the registers is chip 3's; the observer is as given. -/
def afterShow (chips : PerChip Received) (s : State) : State :=
  { s with
    lines := ⟨config.clkIdle, config.csDeselectLevel, (extract 1 1 s).green.getLsbD 127, true⟩
    cmdsr := config.sysEn
    red := (extract 1 1 s).red
    green := (extract 1 1 s).green
    planesValid := true
    sr := PerChip.const .deselected
    traceRev := (showEvents s).reverse ++ s.traceRev
    pxTraceRev := showReads.reverse ++ s.pxTraceRev
    chips := chips }

/-- `SHOW` answers that state, from every state (R166). -/
theorem exec_showFrame_afterShow (s : State) : ∃ chips, exec .showFrame s = .next (afterShow chips s) :=
  ⟨_, (exec_showFrame s).trans (congrArg Host.Outcome.next (showAll_eq s))⟩

section
variable (chips : PerChip Received) (s : State)

theorem afterShow_trace : (afterShow chips s).trace = s.trace ++ showEvents s :=
  trace_of_traceRev rfl

theorem afterShow_pxTrace : (afterShow chips s).pxTrace = s.pxTrace ++ showReads := by
  rw [State.pxTrace, State.pxTrace, afterShow, List.reverse_append, List.reverse_reverse]

/-- `DATA` is left at the last cell of chip 3's green plane, which is the pixel of the panel's last corner (R141, R166). -/
theorem afterShow_lines : (afterShow chips s).lines = ⟨false, true, (pixelAt s 31 15).getLsbD 0, true⟩ := by
  have hgreen : (extract 1 1 s).green.getLsbD 127 = (pixelAt s 31 15).getLsbD 0 := extract_green 1 1 s 127 (by decide)
  rw [afterShow, hgreen]
  rfl

/-- A second `SHOW` finds the same pixels, so it leaves every register as the first did (R166). -/
theorem afterShow_afterShow (chips' : PerChip Received) : afterShow chips' (afterShow chips s) = { afterShow chips s with
    traceRev := (showEvents (afterShow chips s)).reverse ++ (afterShow chips s).traceRev
    pxTraceRev := showReads.reverse ++ (afterShow chips s).pxTraceRev
    chips := chips' } := by
  obtain ⟨hred, hgreen⟩ := extract_planes_congr 1 1 (s := s) (t := afterShow chips s) rfl
  rw [afterShow, hred, hgreen]
  rfl

end

/-- The events of `SHOW` depend on the pixels alone (R166). -/
theorem showEvents_congr {s t : State} (h : t.pixels = s.pixels) : showEvents t = showEvents s := by
  simp only [showEvents, showChipEvents_congr h]

/-- Settles O41: the closed form of `SHOW`; the planes left are those of the rectangle extracted last. -/
theorem showSendsEveryRectangle : Obligations.ShowSendsEveryRectangle := by
  unfold Obligations.ShowSendsEveryRectangle
  intro s
  obtain ⟨chips, hexec⟩ := exec_showFrame_afterShow s
  refine ⟨_, hexec, afterShow_trace chips s, ?_, afterShow_lines chips s, rfl, rfl,
    fun k hk => ⟨extract_red 1 1 s k hk, extract_green 1 1 s k hk⟩, rfl, rfl, pixelAt_congr rfl⟩
  rw [afterShow_pxTrace, showReads]
  simp only [List.append_assoc]

/-- Settles O42: the broadcast reaches every chip, and each data frame the one chip selected for it. -/
theorem showIsRecordedByEachChip : Obligations.ShowIsRecordedByEachChip := by
  unfold Obligations.ShowIsRecordedByEachChip
  intro s hopen
  exact ⟨_, exec_showFrame s, showAll_chips s hopen⟩

/-- Settles O43: the first `SHOW` leaves the pixels, on which alone the events and the planes depend. -/
theorem showRepeatsItself : Obligations.ShowRepeatsItself := by
  unfold Obligations.ShowRepeatsItself
  intro s
  obtain ⟨chips, hexec⟩ := exec_showFrame_afterShow s
  obtain ⟨chips', hexec'⟩ := exec_showFrame_afterShow (afterShow chips s)
  have hevents : showEvents (afterShow chips s) = showEvents s := showEvents_congr rfl
  refine ⟨_, _, showEvents s, showReads, hexec, hexec', afterShow_trace chips s, ?_, afterShow_pxTrace chips s,
    afterShow_pxTrace chips' _, ?_⟩
  · rw [afterShow_trace, hevents]
  · rw [afterShow_afterShow]

end Sys2Proof.Machine

/-! SUPPORT. The family of 60_exceptions.md: the first fault stays recorded (R184), what each failed check raises (R180, R181,
R183), and the three claims about faults. -/

namespace Sys2Proof.Machine

/-! ## The clamp of an intensity (R162, R185) -/

/-- `SET_INTENSITY` reads its operand through the clamp only (R162). -/
theorem exec_setIntensity_congr {l l' : Int} (h : max 0 (min l 15) = max 0 (min l' 15)) (s : State) :
    exec (.setIntensity l) s = exec (.setIntensity l') s := by
  rw [exec_setIntensity_expansion, exec_setIntensity_expansion, h]

/-- Settles O39: the clamp sends a level out of range to the bound it is beyond, and `SET_INTENSITY` has no check to fail. -/
theorem intensityIsClamped : Obligations.IntensityIsClamped := by
  unfold Obligations.IntensityIsClamped
  intro l s
  refine ⟨fun hbelow => exec_setIntensity_congr (by omega) s, fun habove => exec_setIntensity_congr (by omega) s, ?_⟩
  obtain ⟨t, ht⟩ := exec_isNext (.setIntensity l) s
  obtain ⟨hfault, hcode, hinfo, -⟩ := exec_fault ht rfl
  exact ⟨t, ht, hfault, hcode, hinfo⟩

/-! ## The first fault (R184) -/

/-- `FAULT` is set and the fault recorded is `code` with `info`. -/
def Recorded (code : BitVec 2) (info : BitVec 12) (s : State) : Prop :=
  s.fault = true ∧ s.faultCode = code ∧ s.faultInfo = info

/-- A further raise leaves the fault recorded (R184). -/
theorem raise_recorded {code : BitVec 2} {info : BitVec 12} {s : State} (h : Recorded code info s) (f : EngineFault)
    (info' : BitVec 12) : Recorded code info (raise f info' s) := by
  obtain ⟨hfault, hcode, hinfo⟩ := h
  exact ⟨raise_fault s f info', by rw [raise_faultCode, if_pos hfault, hcode],
    by rw [raise_faultInfo, if_pos hfault, hinfo]⟩

/-- No micro-operation changes a recorded fault: only a raise writes the fault registers (R184). -/
theorem perform_recorded {code : BitVec 2} {info : BitVec 12} (m : MicroOp) (s : State) (h : Recorded code info s) :
    Recorded code info (perform m s).state := by
  have hp := perform_performs m s
  generalize perform m s = r at hp ⊢
  cases hp with
  | raises => exact raise_recorded h _ _
  | drive | read | load | loadIcmd | storeIcmd | pass => simpa [Recorded, readCell] using h

/-- Settles O48: a recorded fault is kept by every micro-operation, so by every instruction. -/
theorem firstFaultIsKept : Obligations.FirstFaultIsKept := by
  unfold Obligations.FirstFaultIsKept
  intro i s t hexec hfault
  exact exec_keeps perform_recorded hexec (show Recorded s.faultCode s.faultInfo s from ⟨hfault, rfl, rfl⟩)

/-! ## Who raises what (R180, R181, R183) -/

/-- An instruction whose check fails is one of three, and it ends in the raise of its fault: `SEL_ONE` after its `SEL_NONE`
part, `BEGIN` and `WR_DATA` at once (R181, R183). -/
theorem exec_of_checkFails {i : Instr} {s t : State} (hexec : exec i s = .next t) (hcheck : checkPasses i s = false) :
    (∃ n, i = .selOne n ∧ 4 ≤ n ∧ t = raise .addressingError (indexInfo n) (selNone s)) ∨
    (i = .beginInit ∧ s.icmdValid = false ∧ t = raise .uninitialised 0 s) ∨
    (i = .wrData ∧ s.planesValid = false ∧ t = raise .uninitialised 1 s) := by
  cases i with
  | selOne n =>
    have hn : 4 ≤ n := Nat.le_of_not_lt (of_decide_eq_false hcheck)
    rw [exec_selOne, selOne_raised n hn] at hexec
    exact .inl ⟨n, rfl, hn, (Host.Outcome.next.inj hexec).symm⟩
  | beginInit =>
    rw [exec_beginInit, beginInit_raised s hcheck] at hexec
    exact .inr (.inl ⟨rfl, hcheck, (Host.Outcome.next.inj hexec).symm⟩)
  | wrData =>
    rw [exec_wrData, wrData_raised s hcheck] at hexec
    exact .inr (.inr ⟨rfl, hcheck, (Host.Outcome.next.inj hexec).symm⟩)
  | _ => exact absurd hcheck (by simp [checkPasses])

/-- Into clear fault registers a raise writes its own code and operand (R184). -/
theorem raise_first {s : State} (h : s.fault = false) (f : EngineFault) (info : BitVec 12) :
    (raise f info s).faultCode = f.code ∧ (raise f info s).faultInfo = info := by
  simp [h]

/-- Settles O50: a run whose check passes leaves `FAULT`; of the others each raises its own fault, the first. -/
theorem onlyThreeInstructionsFault : Obligations.OnlyThreeInstructionsFault := by
  unfold Obligations.OnlyThreeInstructionsFault
  intro i s t hexec hclear hfault
  have hcheck : checkPasses i s = false := Bool.eq_false_iff.2 fun hpasses => by
    obtain ⟨hkept, -⟩ := exec_fault hexec hpasses
    exact Bool.false_ne_true (hclear.symm.trans (hkept.symm.trans hfault))
  rcases exec_of_checkFails hexec hcheck with ⟨n, hi, hn, rfl⟩ | ⟨hi, hinvalid, rfl⟩ | ⟨hi, hinvalid, rfl⟩
  · have hselNone : (selNone s).fault = false := by rw [selNone_eq, hclear]
    exact .inl ⟨n, hi, hn, raise_first hselNone _ _⟩
  · exact .inr (.inl ⟨hi, hinvalid, raise_first hclear _ _⟩)
  · exact .inr (.inr ⟨hi, hinvalid, raise_first hclear _ _⟩)

end Sys2Proof.Machine

/-! SUPPORT. The family of 70_reset_and_hazards.md: a reset at any time (R200), the host's moves while an operation is in
progress (R205, R207), what construction leaves (R202), the duties of R208 through every operation, and the counts of R211. -/

namespace Sys2Proof.Machine

open Sys2Proof.Safety Sys2Proof.Claims

/-! ## Reset (R200) -/

/-- Settles O13: a reset at the head of the host's moves is taken whether or not an operation is in progress. -/
theorem resetMoveResets : Obligations.ResetMoveResets := by
  unfold Obligations.ResetMoveResets
  intro s rest hhost
  rw [step, nextAction, hhost]
  cases s.busy <;> rfl

/-! ## The host's moves while an operation is in progress (R205, R207) -/

/-- `s` with the host's moves to come replaced. -/
def withHost (moves : List HostMove) (s : State) : State := { s with host := moves }

/-- A drive leaves the host's moves, and its events, shift and samples do not depend on them (R21). -/
theorem drive_withHost (moves : List HostMove) (l : Line) (v : Level) (s : State) :
    drive l v (withHost moves s) = withHost moves (drive l v s) := by
  cases l with
  | clk | wr =>
    rw [drive, drive, apply_ite (withHost moves)]
    rfl
  | cs | data => rfl

/-- A micro-operation ends alike whatever the host's moves, and leaves them (R31). -/
theorem perform_withHost (moves : List HostMove) (m : MicroOp) (s : State) :
    perform m (withHost moves s) = (perform m s).map (withHost moves) := by
  cases m with
  | drive l src =>
    have hlevel : src.level (withHost moves s) = src.level s := by cases src <;> rfl
    rw [perform, hlevel, drive_withHost]
    rfl
  | read | load | loadIcmd | storeIcmd => rfl
  | checkIndex | checkIcmd | checkPlanes =>
    rw [perform, perform, apply_ite (Run.map (withHost moves))]
    rfl

theorem performStep_withHost (moves : List HostMove) (m : MicroOp) (next : Nat) (isLast : Bool) (s : State) :
    performStep m next isLast (withHost moves s) = withHost moves (performStep m next isLast s) := by
  rw [performStep, performStep, perform_withHost]
  cases perform m s with
  | done t => cases isLast <;> rfl
  | raised t => rfl

/-- The busy branch answers a next state exactly where the expansion of `(OP, ARG)` has a micro-operation at `UPC` (R31). -/
theorem microBusy_eq_next {s t : State} : microBusy s = .next t ↔
    ∃ i m, decodeRequest (requestWord s.op s.arg) = some i ∧ (expansion i)[s.upc.toNat]? = some m ∧
      performStep m (s.upc.toNat + 1) (s.upc.toNat + 1 == (expansion i).length) s = t := by
  rw [microBusy]
  cases decodeRequest (requestWord s.op s.arg) with
  | none => simp
  | some i => cases hm : (expansion i)[s.upc.toNat]? <;> simp [hm]

/-- The busy branch goes on alike whatever the host's moves, and leaves them (R205, R207). -/
theorem microBusy_withHost (moves : List HostMove) {s t : State} (h : microBusy s = .next t) :
    microBusy (withHost moves s) = .next (withHost moves t) := by
  obtain ⟨i, m, hd, hm, rfl⟩ := microBusy_eq_next.1 h
  exact microBusy_eq_next.2 ⟨i, m, hd, hm, performStep_withHost moves m _ _ s⟩

/-- A busy engine with no reset to take performs its next micro-operation (R31, R204). -/
theorem step_busy {s : State} (hb : s.busy = true) (hhost : ∀ rest, s.host ≠ .reset :: rest) : step s = microBusy s := by
  rw [step, nextAction]
  split
  next => rw [if_pos hb, runAction]
  next move rest hs =>
    have hmove : move ≠ .reset := fun h => hhost rest (h ▸ hs)
    rw [if_pos hb, if_neg hmove, runAction]

/-- Settles O12: the micro-operation performed leaves the host's moves as they are, and is the same with none to come. -/
theorem busyEngineTakesNoRequest : Obligations.BusyEngineTakesNoRequest := by
  unfold Obligations.BusyEngineTakesNoRequest
  intro s t hb hhost hstep
  rw [step_busy hb hhost] at hstep
  have hkept : t = withHost s.host t :=
    Host.Outcome.next.inj (hstep.symm.trans (microBusy_withHost (s := s) s.host hstep))
  have hnone : step (withHost [] s) = microBusy (withHost [] s) := step_busy hb (by simp [withHost])
  exact ⟨(congrArg State.host hkept).trans rfl, hnone.trans (microBusy_withHost [] hstep)⟩

/-! ## Construction (R202) -/

/-- `SET_INTENSITY` where nothing has been recorded and no fault raised: the seven words are every chip's whole record. -/
theorem exec_setIntensity_fresh (l : Int) {s : State} (hchips : s.chips = PerChip.const ⟨[], []⟩) (hfault : s.fault = false) :
    ∃ t, exec (.setIntensity l) s = .next t ∧ ∀ k : Fin 4,
      t.chips.get k = ⟨[], (initWords (levelWord (max 0 (min l 15)).toNat)).map commandFrame⟩ ∧ sel t.sr = .none ∧
        t.icmdValid = true ∧ t.fault = false := by
  obtain ⟨t, hexec, -, hvalid, -, -, -, hsel, hrecord, -, -⟩ := setIntensityStoresAndBegins l s
  obtain ⟨hkept, -⟩ := exec_fault hexec rfl
  have hfresh (k : Fin 4) : s.chips.get k = ⟨[], []⟩ := by rw [hchips, PerChip.get_const]
  refine ⟨t, hexec, fun k => ⟨?_, hsel, hvalid, hkept.trans hfault⟩⟩
  rw [hrecord (fun k => by rw [hfresh k]) k, hfresh k, List.nil_append]

/-- Settles O47: the request finds the reset state as acceptance leaves it, the abstract operation the reset state itself, and
retirement changes nothing that is claimed. -/
theorem constructionSendsSevenCommands : Obligations.ConstructionSendsSevenCommands := by
  unfold Obligations.ConstructionSendsSevenCommands
  rintro l s ⟨s0, hreset, ⟨w, rest, hhost, hdecode, hstep⟩ | ⟨-, hexec⟩⟩
  · have hchips : (accept w { s0 with host := rest }).chips = PerChip.const ⟨[], []⟩ := by rw [hreset]; rfl
    have hfault : (accept w { s0 with host := rest }).fault = false := by rw [hreset]; rfl
    obtain ⟨t, ht, hclaims⟩ := exec_setIntensity_fresh l hchips hfault
    rw [step_request (by rw [hreset]; rfl) hhost hdecode, ht, retireOutcome] at hstep
    cases hstep
    exact hclaims
  · obtain ⟨t, ht, hclaims⟩ := exec_setIntensity_fresh l (s := s0) (by rw [hreset]; rfl) (by rw [hreset]; rfl)
    cases ht.symm.trans hexec
    exact hclaims

/-! ## The duties of R208 -/

/-- The chain and the observer agree with the host's use: what `Tracks` says of them, kept folded so that the operations' states
are not evaluated. -/
def ChipsTrack (u : HostUse) (s : State) : Prop :=
  (if u.selection = .none then ∀ k : Fin 4, s.sr.get k ≠ .selected else sel s.sr = u.selection) ∧
    (∀ k : Fin 4, ∀ f ∈ (s.chips.get k).frames, isRow f = true) ∧
    (∀ k : Fin 4, if s.sr.get k = .selected ∧ u.sent = true then isRow (s.chips.get k).rx = true
      else (s.chips.get k).rx = [])

theorem tracks_iff (u : HostUse) (s : State) : Tracks u s ↔ ChipsTrack u s ∧
    (s.icmdValid = true → (decodeCommand s.icmd).isSome = true) ∧ (u.planes ≠ none → s.planesValid = true) := by
  simp only [Tracks, ChipsTrack, and_assoc]

/-! ### What the host's use says -/

theorem selection_of_idle {u : HostUse} (h : u.idle = true) : u.selection = .none := of_decide_eq_true h

theorem sent_of_ready {u : HostUse} (h : u.ready = true) : u.sent = false := by
  obtain ⟨-, hsent⟩ := Bool.and_eq_true_iff.1 h
  simpa using hsent

theorem planes_of_paired {u : HostUse} (h : u.paired = true) : u.planes ≠ none := by
  unfold HostUse.paired at h
  split at h
  next c => rw [of_decide_eq_true h]; exact Option.some_ne_none _
  all_goals cases h

/-! ### Selections and transfers -/

/-- With no frame open and none to be open yet, the recorded frames and the selection are all there is to agree on. -/
theorem chipsTrack_of_noFrameOpen {u : HostUse} {s : State} (hsent : u.sent = false) (hopen : NoFrameOpen s)
    (hsel : if u.selection = .none then ∀ k : Fin 4, s.sr.get k ≠ .selected else sel s.sr = u.selection)
    (hrows : ∀ k : Fin 4, ∀ f ∈ (s.chips.get k).frames, isRow f = true) : ChipsTrack u s :=
  ⟨hsel, hrows, fun k => by rw [if_neg (by simp [hsent])]; exact hopen k⟩

section
variable {u : HostUse} {s : State} (h : ChipsTrack u s)
include h

/-- A chip that is not selected has no frame open. -/
theorem ChipsTrack.legal (k : Fin 4) : (s.chips.get k).legal (s.sr.get k) := fun hk => by
  obtain ⟨-, -, hopen⟩ := h
  simpa [hk] using hopen k

/-- With no chip selected no frame is open. -/
theorem ChipsTrack.noFrameOpen (hidle : u.idle = true) : NoFrameOpen s := fun k => by
  have hlegal := h.legal k
  obtain ⟨hsel, -, -⟩ := h
  rw [if_pos (selection_of_idle hidle)] at hsel
  exact hlegal (hsel k)

/-- A frame that ends is a row or has no bit, so every record holds rows only once its frames have ended. -/
theorem ChipsTrack.rows_of_framesEnd {t : State} (hend : FramesEnd s t) (k : Fin 4) :
    (t.chips.get k).rx = [] ∧ ∀ f ∈ (t.chips.get k).frames, isRow f = true := by
  have hlegal := h.legal k
  obtain ⟨-, hrows, hopen⟩ := h
  have hrow : s.sr.get k = .selected → (s.chips.get k).rx ≠ [] → isRow (s.chips.get k).rx = true := by
    intro hk hne
    have hk' := hopen k
    split at hk'
    · exact hk'
    · exact absurd hk' hne
  rw [hend k]
  split
  next hk =>
    refine ⟨rfl, fun f hf => ?_⟩
    dsimp only at hf
    split at hf
    · exact hrows k f hf
    next hne =>
      rcases List.mem_append.1 hf with hf | hf
      · exact hrows k f hf
      · rw [List.mem_singleton.1 hf]
        exact hrow hk hne
  next hk => exact ⟨hlegal hk, hrows k⟩

/-- A selection that ends the frames in progress begins the host's next one. -/
theorem ChipsTrack.select {t : State} {chips : Selection} (hend : FramesEnd s t)
    (hsel : if chips = .none then ∀ k : Fin 4, t.sr.get k ≠ .selected else sel t.sr = chips) :
    ChipsTrack (u.select chips) t :=
  chipsTrack_of_noFrameOpen rfl (fun k => (h.rows_of_framesEnd hend k).1) hsel fun k => (h.rows_of_framesEnd hend k).2

theorem ChipsTrack.selNone : ChipsTrack (u.select .none) (selNone s) :=
  h.select (selNone_framesEnd h.legal) (by simp [selNone_eq])

/-- Out of range no chip is left selected, in range that one (R104). -/
theorem ChipsTrack.selOne (n : Nat) : ChipsTrack (u.after (.selOne n)) (selOne n s).state := by
  rw [HostUse.after]
  split
  next hn =>
    have hsr : (Machine.selOne n s).state.sr = onlyChip n := by rw [selOne_done n hn, Run.state_done]
    exact h.select (selOne_framesEnd n h.legal) (by rw [if_neg (by simp), hsr]; exact sel_onlyChip ⟨n, hn⟩)
  next hn => exact h.select (selOne_framesEnd n h.legal) (by simp [selOne_raised n (by omega), selNone_eq])

/-- `SEL_ALL` finds no frame open, and leaves the records (R103). -/
theorem ChipsTrack.selAll (hidle : u.idle = true) : ChipsTrack (u.select .all) (selAll s) := by
  have hopen := h.noFrameOpen hidle
  obtain ⟨-, hrows, -⟩ := h
  have hchips : (Machine.selAll s).chips = s.chips := by rw [selAll_eq, observeMany_noFrame _ _ _ _ hopen]
  exact chipsTrack_of_noFrameOpen rfl (fun k => by rw [hchips]; exact hopen k) (by rw [selAll_eq]; rfl)
    (by rw [hchips]; exact hrows)

/-- The transfer of a selection: the chips selected have no bit yet, and take a row (R208 b, e). -/
theorem ChipsTrack.transfer (hready : u.ready = true) {bits : List Level} (hrow : isRow bits = true) (c : Command)
    (last : Level) : ChipsTrack u.send (afterTransfer c bits last s) := by
  have hsent := sent_of_ready hready
  obtain ⟨hsel, hrows, hopen⟩ := h
  have hempty (k : Fin 4) : (s.chips.get k).rx = [] := by simpa [hsent] using hopen k
  have htake := afterTransfer_chipsTake c bits last s
  refine ⟨hsel, fun k => ?_, fun k => ?_⟩
  · rw [htake k]
    split <;> exact hrows k
  · rw [htake k, hempty k]
    by_cases hk : s.sr.get k = .selected
    · rw [if_pos ⟨hk, rfl⟩, if_pos hk]
      exact hrow
    · rw [if_neg fun hand => hk hand.1, if_neg hk]
      exact hempty k

theorem ChipsTrack.sendCommand (hready : u.ready = true) {c : Command} (hc : (decodeCommand c).isSome = true) :
    ChipsTrack u.send (sendCommand c s) := by
  rw [sendCommand_transfer]
  exact h.transfer hready ((isRow_commandFrame c).trans hc) _ _

theorem ChipsTrack.sendPlanes (hready : u.ready = true) (red green : Plane) : ChipsTrack u.send (sendPlanes red green s) := by
  rw [sendPlanes_transfer]
  exact h.transfer hready (isRow_dataFrame _ _) _ _

theorem ChipsTrack.sendClearFrame (hready : u.ready = true) : ChipsTrack u.send (sendClearFrame s) := by
  rw [sendClearFrame_transfer]
  exact h.transfer hready isRow_clearFrame _ _

/-- What leaves the chain and the observer leaves the agreement, whatever planes the host has read. -/
theorem ChipsTrack.of_eq {t : State} (hsr : t.sr = s.sr) (hchips : t.chips = s.chips)
    (planes : Option (BitVec 1 × BitVec 1)) : ChipsTrack { u with planes := planes } t := by
  rw [ChipsTrack, hsr, hchips]
  exact h

/-! ### Composites, each a disciplined use of its parts -/

theorem ChipsTrack.broadcast (hidle : u.idle = true) {c : Command} (hc : (decodeCommand c).isSome = true) :
    ChipsTrack (u.select .none) (broadcast c s) := by
  rw [Machine.broadcast]
  exact ((h.selAll hidle).sendCommand rfl hc).selNone

theorem ChipsTrack.clearChips (hidle : u.idle = true) : ChipsTrack (u.select .none) (clearChips s) := by
  rw [Machine.clearChips]
  exact ((h.selAll hidle).sendClearFrame rfl).selNone

theorem ChipsTrack.showChip (c : Fin 4) : ChipsTrack (u.select .none) (showChip c s).state := by
  have hsel : ChipsTrack (u.select (.one c)) (Machine.selOne c.val s).state := by
    have hone := h.selOne c.val
    rwa [HostUse.after, dif_pos c.isLt] at hone
  have hread := hsel.of_eq (extract_sr (chipPos c).1 (chipPos c).2 _) (extract_chips (chipPos c).1 (chipPos c).2 _) u.planes
  rw [showChip_done, Run.state_done]
  exact (hread.sendPlanes rfl _ _).selNone

theorem ChipsTrack.showAll (hidle : u.idle = true) : ChipsTrack (u.select .none) (showAll s).state := by
  rw [showAll_done, Run.state_done]
  exact ((((h.broadcast hidle rfl).showChip 0).showChip 1).showChip 2).showChip 3

/-- A host with no chip selected is where a deselection leaves it. -/
theorem ChipsTrack.deselected (hidle : u.idle = true) : ChipsTrack (u.select .none) s := by
  have hopen := h.noFrameOpen hidle
  obtain ⟨hsel, hrows, -⟩ := h
  rw [if_pos (selection_of_idle hidle)] at hsel
  exact chipsTrack_of_noFrameOpen rfl hopen hsel hrows

theorem ChipsTrack.broadcasts (hidle : u.idle = true) {words : List Command}
    (hwords : ∀ c ∈ words, (decodeCommand c).isSome = true) : ChipsTrack (u.select .none) (broadcasts words s) := by
  induction words generalizing u s with
  | nil => exact h.deselected hidle
  | cons c words ih =>
    obtain ⟨hc, hwords⟩ := List.forall_mem_cons.1 hwords
    rw [Machine.broadcasts]
    have htail := ih (h.broadcast hidle hc) rfl hwords
    exact htail

/-- `BEGIN` broadcasts words of the table, `ICMD` among them, or raises (R160, R183). -/
theorem ChipsTrack.beginInit (hidle : u.idle = true) (hicmd : s.icmdValid = true → (decodeCommand s.icmd).isSome = true) :
    ChipsTrack (u.select .none) (beginInit s).state := by
  rw [Machine.beginInit]
  split
  next hvalid =>
    have hwords : ∀ c ∈ initCommands s.icmd, (decodeCommand c).isSome = true := by
      simp only [initCommands, List.forall_mem_cons, List.not_mem_nil, false_implies, implies_true, and_true]
      exact ⟨rfl, rfl, rfl, rfl, hicmd hvalid, rfl, rfl⟩
    rw [Run.state_done]
    exact h.broadcasts hidle hwords
  next => exact (h.deselected hidle).of_eq rfl rfl u.planes

end

/-- The intensity command of any level is a word of the table (R80, R163). -/
theorem isSome_decodeCommand_intensity (l : Int) : (decodeCommand (intensityCommand l)).isSome = true := by
  have hpwm : ∀ n ∈ List.range 16, levelWord n = pwmWord (BitVec.ofNat 4 n) := by decide
  obtain ⟨n, hn, hword⟩ := List.mem_map.1 (intensityCommand_mem l)
  rw [← hword, hpwm n hn, decodeCommand_pwmWord, Option.isSome_some]

/-- `ICMD` stays a word of the table once valid (R28). -/
theorem perform_icmdRow (m : MicroOp) (s : State) (h : s.icmdValid = true → (decodeCommand s.icmd).isSome = true) :
    (perform m s).state.icmdValid = true → (decodeCommand (perform m s).state.icmd).isSome = true := by
  have hp := perform_performs m s
  generalize perform m s = r at hp ⊢
  cases hp with
  | storeIcmd l => exact fun _ => isSome_decodeCommand_intensity l
  | drive | read | load | loadIcmd | pass | raises => simpa [readCell] using h

/-- Planes read by the host are valid: only `EXTRACT` and `SHOW` read any, and they leave the planes valid (R25, R166). -/
theorem planesValid_after {i : Instr} {u : HostUse} {s t : State} (hexec : exec i s = .next t)
    (h : u.planes ≠ none → s.planesValid = true) : (u.after i).planes ≠ none → t.planesValid = true := by
  by_cases hreads : (∃ r q, i = .extract r q) ∨ i = .showFrame
  · rcases hreads with ⟨r, q, rfl⟩ | rfl
    · rw [exec_extract] at hexec
      rw [← Host.Outcome.next.inj hexec, extract_frame]
      exact fun _ => rfl
    · obtain ⟨chips, hshow⟩ := exec_showFrame_afterShow s
      rw [← Host.Outcome.next.inj (hshow.symm.trans hexec)]
      exact fun _ => rfl
  · obtain ⟨hx, hs⟩ := not_or.1 hreads
    have hkept : (u.after i).planes = u.planes := by
      cases i with
      | extract r q => exact absurd ⟨r, q, rfl⟩ hx
      | showFrame => exact absurd rfl hs
      | selOne n => rw [HostUse.after]; split <;> rfl
      | _ => rfl
    obtain ⟨-, hplanes, -⟩ := registersHaveTheirWriters i s t hexec
    obtain ⟨-, -, hvalid, -⟩ := hplanes (fun r q hi => hx ⟨r, q, hi⟩) hs
    rwa [hkept, hvalid]

/-- An instruction that the duties allow leaves the chain and the observer in agreement with the use that follows (R208). -/
theorem ChipsTrack.exec {i : Instr} {u : HostUse} {s : State} (h : ChipsTrack u s) (hallow : u.allows i = true)
    (hicmd : s.icmdValid = true → (decodeCommand s.icmd).isSome = true)
    (hplanes : u.planes ≠ none → s.planesValid = true) : ∃ t, exec i s = .next t ∧ ChipsTrack (u.after i) t := by
  cases i with
  | selNone => exact ⟨_, exec_selNone s, h.selNone⟩
  | selAll => exact ⟨_, exec_selAll s, h.selAll hallow⟩
  | selOne n => exact ⟨_, exec_selOne n s, h.selOne n⟩
  | extract r q => exact ⟨_, exec_extract r q s, h.of_eq (extract_sr r q s) (extract_chips r q s) _⟩
  | wrCmd c =>
    obtain ⟨hready, hword⟩ := Bool.and_eq_true_iff.1 hallow
    exact ⟨_, exec_wrCmd c s, h.sendCommand hready hword⟩
  | wrData =>
    obtain ⟨hready, hpaired⟩ := Bool.and_eq_true_iff.1 hallow
    have hdone := wrData_done s (hplanes (planes_of_paired hpaired))
    exact ⟨_, (exec_wrData s).trans (by rw [hdone, Run.state_done]), h.sendPlanes hready _ _⟩
  | bcastCmd c =>
    obtain ⟨hidle, hword⟩ := Bool.and_eq_true_iff.1 hallow
    exact ⟨_, exec_bcastCmd c s, h.broadcast hidle hword⟩
  | beginInit => exact ⟨_, exec_beginInit s, h.beginInit hallow hicmd⟩
  | setIntensity l =>
    have hstored : ChipsTrack u { s with icmd := intensityCommand l, icmdValid := true } := h
    exact ⟨_, exec_setIntensity l s, hstored.beginInit hallow fun _ => isSome_decodeCommand_intensity l⟩
  | clear => exact ⟨_, exec_clear s, h.clearChips hallow⟩
  | showFrame => exact ⟨_, exec_showFrame s, (h.showAll hallow).of_eq rfl rfl _⟩
  | pwmDuty level => exact ⟨_, exec_pwmDuty level s, h.sendCommand hallow (isSome_decodeCommand_intensity _)⟩
  | dataFrame red green => exact ⟨_, exec_dataFrame red green s, h.sendPlanes hallow red green⟩
  | clearFrame => exact ⟨_, exec_clearFrame s, h.sendClearFrame hallow⟩
  | sysDis | sysEn | ledOff | ledOn | blinkOff | blinkOn | slaveMode | rcMasterMode | extClkMasterMode | comNmos8 | comNmos16
  | comPmos8 | comPmos16 => exact ⟨_, rfl, h.sendCommand hallow rfl⟩

/-- Settles O52: the agreement of the chain and the observer, the word of `ICMD` and the validity of the planes are each kept. -/
theorem disciplinedUseSendsWholeRows : Obligations.DisciplinedUseSendsWholeRows := by
  unfold Obligations.DisciplinedUseSendsWholeRows
  intro i u s t htracks hallow hexec
  obtain ⟨hchips, hicmd, hplanes⟩ := (tracks_iff u s).1 htracks
  obtain ⟨t', ht', hchips'⟩ := hchips.exec hallow hicmd hplanes
  cases ht'.symm.trans hexec
  exact (tracks_iff _ _).2 ⟨hchips', exec_keeps perform_icmdRow hexec hicmd, planesValid_after hexec hplanes⟩

/-! ## Counts of events and reads (R211) -/

/-- The numbers of a list of events, of which no reads are part. -/
def eventCounts (events : List Event) : Counts where
  cs := events.countP (·.1 = .cs)
  clk := events.countP (·.1 = .clk)
  wr := events.countP (·.1 = .wr)
  data := events.countP (·.1 = .data)
  bits := events.count (.wr, true)
  reads := 0

/-- The numbers of two parts together. -/
def addCounts (c d : Counts) : Counts :=
  ⟨c.cs + d.cs, c.clk + d.clk, c.wr + d.wr, c.data + d.data, c.bits + d.bits, c.reads + d.reads⟩

theorem eventCounts_append (a b : List Event) : eventCounts (a ++ b) = addCounts (eventCounts a) (eventCounts b) := by
  simp [eventCounts, addCounts]

/-- Every event is on one of the four lines (R20). -/
theorem length_eq_eventCounts (events : List Event) : events.length =
    (eventCounts events).cs + (eventCounts events).clk + (eventCounts events).wr + (eventCounts events).data := by
  induction events with
  | nil => rfl
  | cons e events ih =>
    obtain ⟨line, level⟩ := e
    simp only [eventCounts, List.length_cons, List.countP_cons] at ih ⊢
    cases line <;> simp <;> omega

theorem eventCounts_pulseEvents (m : Nat) : eventCounts (pulseEvents m) = ⟨0, 2 * m, 0, 0, 0, 0⟩ := by
  induction m with
  | zero => rfl
  | succ m ih =>
    have hpulse : eventCounts [(.clk, config.clkFirst), (.clk, config.clkIdle)] = ⟨0, 2, 0, 0, 0, 0⟩ := rfl
    change eventCounts ([(.clk, config.clkFirst), (.clk, config.clkIdle)] ++ pulseEvents m) = _
    simp only [eventCounts_append, hpulse, ih, addCounts, Counts.mk.injEq, true_and, and_true]
    omega

theorem eventCounts_selectEvents (level : Level) : eventCounts (selectEvents level) = ⟨1, 8, 0, 0, 0, 0⟩ := by
  cases level <;> rfl

theorem eventCounts_selectOneEvents (i : Nat) : eventCounts (selectOneEvents i) = ⟨3, 10 + 2 * i, 0, 0, 0, 0⟩ := by
  have hcs (level : Level) : eventCounts [(.cs, level)] = ⟨1, 0, 0, 0, 0, 0⟩ := by cases level <;> rfl
  simp only [selectOneEvents, eventCounts_append, eventCounts_selectEvents, eventCounts_pulseEvents, hcs, addCounts]

theorem eventCounts_bitEvents (bits : List Level) : eventCounts (bitEvents bits) =
    ⟨0, 0, 2 * bits.length, bits.length, bits.length, 0⟩ := by
  induction bits with
  | nil => rfl
  | cons b bits ih =>
    have hcell : eventCounts [(.wr, false), (.data, b), (.wr, true)] = ⟨0, 0, 2, 1, 1, 0⟩ := by cases b <;> rfl
    change eventCounts ([(.wr, false), (.data, b), (.wr, true)] ++ bitEvents bits) = _
    simp only [eventCounts_append, hcell, ih, addCounts, List.length_cons, Counts.mk.injEq, true_and, and_true]
    omega

/-- A broadcast is two selections and twelve bits (R122). -/
theorem eventCounts_broadcastEvents (c : Command) : eventCounts (broadcastEvents c) = ⟨2, 16, 24, 12, 12, 0⟩ := by
  simp only [broadcastEvents, eventCounts_append, eventCounts_selectEvents, eventCounts_bitEvents, commandFrame_length]
  rfl

/-- The seven broadcasts of `BEGIN` (R160). -/
theorem eventCounts_initWords (icmd : Command) :
    eventCounts ((initWords icmd).flatMap broadcastEvents) = ⟨14, 112, 168, 84, 84, 0⟩ := by
  simp only [initWords, List.flatMap_cons, List.flatMap_nil, eventCounts_append, eventCounts_broadcastEvents]
  rfl

/-- `SHOW` is a broadcast and, for each chip, two selections and a data frame (R166). -/
theorem eventCounts_showEvents (s : State) : eventCounts (showEvents s) = ⟨18, 100, 2152, 1076, 1076, 0⟩ := by
  simp only [showEvents, showChipEvents, chipFrame, eventCounts_append, eventCounts_broadcastEvents,
    eventCounts_selectOneEvents, eventCounts_selectEvents, eventCounts_bitEvents, dataFrame_length]
  rfl

section
variable {i : Instr} {s t : State} {events : List Event} {c : Counts} (hexec : exec i s = .next t)
  (htrace : t.trace = s.trace ++ events)
include hexec htrace

/-- What a run added to `TRACE` and `PXTRACE` is what it is counted by. -/
theorem hasCounts_of_added {reads : List (Nat × Nat)} (hreads : t.pxTrace = s.pxTrace ++ reads)
    (hc : { eventCounts events with reads := reads.length } = c) : HasCounts i s c := by
  subst hc
  exact ⟨t, events, reads, hexec, htrace, hreads, rfl, rfl, rfl, rfl, length_eq_eventCounts events, rfl, rfl⟩

/-- An instruction that is neither `EXTRACT` nor `SHOW` is counted by its events (R39). -/
theorem hasCounts_of_events (hc : eventCounts events = c) (hi : (∀ r q, i ≠ .extract r q) ∧ i ≠ .showFrame) :
    HasCounts i s c := by
  obtain ⟨-, hplanes, -⟩ := registersHaveTheirWriters i s t hexec
  obtain ⟨-, -, -, hpx⟩ := hplanes hi.1 hi.2
  exact hasCounts_of_added hexec htrace (reads := []) (by rw [hpx, List.append_nil]) hc

end

/-- An instruction that runs as one transfer of `n` bits makes three events for each of them (R74). -/
theorem hasCounts_transfer {i : Instr} {s : State} {c : Command} {bits : List Level} {last : Level} {n : Nat}
    (hexec : exec i s = .next (afterTransfer c bits last s)) (hn : bits.length = n)
    (hi : (∀ r q, i ≠ .extract r q) ∧ i ≠ .showFrame) : HasCounts i s ⟨0, 0, 2 * n, n, n, 0⟩ :=
  hasCounts_of_events hexec (afterTransfer_trace _ _ _ s) (hn ▸ eventCounts_bitEvents bits) hi

/-- An instruction that selects makes the events of its select code (R76, R106). -/
theorem hasCounts_select {i : Instr} {events : List Event} {sr : PerChip ChainCell} {c : Counts} (s : State)
    (hsel : SelectsAs i events sr) (hc : eventCounts events = c) (hi : (∀ r q, i ≠ .extract r q) ∧ i ≠ .showFrame) :
    HasCounts i s c := by
  obtain ⟨t, hexec, htrace, -⟩ := hsel s
  exact hasCounts_of_events hexec htrace hc hi

/-- `CLEAR` is two selections and a clear frame (R164). -/
theorem hasCounts_clear (s : State) : HasCounts .clear s ⟨2, 16, 788, 394, 394, 0⟩ := by
  have htrace := trace_of_traceRev (s := s) (t := clearChips s) (by rw [clearChips_eq])
  refine hasCounts_of_events (exec_clear s) htrace ?_ (by simp)
  simp only [eventCounts_append, eventCounts_selectEvents, eventCounts_bitEvents, clearFrame_length]
  rfl

/-- `SHOW` reads the four rectangles (R166). -/
theorem hasCounts_showFrame (s : State) : HasCounts .showFrame s ⟨18, 100, 2152, 1076, 1076, 512⟩ := by
  obtain ⟨chips, hexec⟩ := exec_showFrame_afterShow s
  have hreads : showReads.length = 512 := by simp only [showReads, List.length_append, rectangle_length]
  exact hasCounts_of_added hexec (afterShow_trace chips s) (afterShow_pxTrace chips s)
    (by rw [eventCounts_showEvents, hreads])

/-- Settles O54: each operation's numbers are those of the selections, transfers and reads it is made of. -/
theorem eventCountsAreTabulated : Obligations.EventCountsAreTabulated := by
  unfold Obligations.EventCountsAreTabulated
  intro s
  refine ⟨?_, ?_, fun i hi => ?_, fun i hi => ?_, fun c => ?_, fun c => ?_, fun r q => ?_, fun hvalid => ?_, fun hvalid => ?_,
    fun l => ?_, hasCounts_clear s, hasCounts_showFrame s⟩
  · exact hasCounts_select s selectsAs_selNone (eventCounts_selectEvents _) (by simp)
  · exact hasCounts_select s selectsAs_selAll (eventCounts_selectEvents _) (by simp)
  · exact hasCounts_select s (selectsAs_selOne hi) (eventCounts_selectOneEvents i) (by simp)
  · exact hasCounts_select s (selectsAs_selOne_outOfRange hi) (eventCounts_selectEvents _) (by simp)
  · exact hasCounts_transfer ((exec_wrCmd c s).trans (by rw [sendCommand_transfer])) (commandFrame_length _) (by simp)
  · exact hasCounts_of_events (exec_bcastCmd c s) (broadcast_trace _ s) (eventCounts_broadcastEvents _) (by simp)
  · exact hasCounts_of_added (exec_extract r q s) (events := []) (by simp [State.trace]) (extract_pxTrace r q s)
      (by rw [rectangle_length]; rfl)
  · have hexec : exec .wrData s = .next (sendPlanes s.red s.green s) := by
      rw [exec_wrData, wrData_done s hvalid, Run.state_done]
    exact hasCounts_transfer (hexec.trans (by rw [sendPlanes_transfer])) (dataFrame_length _ _) (by simp)
  · obtain ⟨chips, hexec, -⟩ := exec_beginInit_afterBegin hvalid
    exact hasCounts_of_events hexec (afterBegin_trace _ _ s) (eventCounts_initWords _) (by simp)
  · obtain ⟨t, hexec, -, -, htrace, -⟩ := setIntensityStoresAndBegins l s
    exact hasCounts_of_events hexec htrace (eventCounts_initWords _) (by simp)

end Sys2Proof.Machine
